-- ==== Sys2Proof/Word.lean ====
section
/-!
DEFINITION. Word.lean: the bit-vector types the spec names (00_scope.md R10, R11).
-/

namespace Sys2Proof

/-- Eight bits: a byte of a block, of a stream or of GF(2^8). -/
abbrev Byte := BitVec 8

/-- A command word, `STATUS`, `ECMD` (30_encoding.md R70). -/
abbrev Word := BitVec 32

/-- A data register's content, a Cipher-A block, key or round key (10_state.md R21). -/
abbrev Block := BitVec 128

/-- A Cipher-B block or key (00_scope.md R6). -/
abbrev Block64 := BitVec 64

/-- A Cipher-B round subkey (00_scope.md R6). -/
abbrev Subkey := BitVec 48

end Sys2Proof
end

