-- ==== Sys2Proof/Machine/Bytes.lean ====
section
/-!
DEFINITION. Machine/Bytes.lean: the byte order of 00_scope.md R11 and the position numbering of R12.
-/

namespace Sys2Proof.Machine

/-- `byte(v, k)` of an `n`-byte value: byte 0 is the most significant one (00_scope.md R11). -/
def byteOf (n : Nat) (v : Block) (k : Nat) : Byte := v.extractLsb' (8 * (n - 1 - k)) 8

/-- `bytes_n(v)` (00_scope.md R11). -/
def toBytes (n : Nat) (v : Block) : List Byte := (List.range n).map (byteOf n v)

/-- `frombytes(L)` for at most sixteen bytes, zero-extended to 128 bits (00_scope.md R11). -/
def fromBytes (bs : List Byte) : Block := bs.foldl (fun acc b => (acc <<< 8) ||| b.setWidth 128) 0

/-- `pos(v, w, p) = v[w-p]`: position 1 is the most significant bit (00_scope.md R12). -/
def posBit {w : Nat} (v : BitVec w) (p : Nat) : Bool := v.getLsbD (w - p)

/-- `perm(v, w, T)` for a table `T` of length `m` (00_scope.md R12): the first entry gives the most
significant bit of the result. -/
def perm {w : Nat} (v : BitVec w) (table : List Nat) (m : Nat) : BitVec m :=
  table.foldl (fun acc p => (acc <<< 1) ||| (BitVec.ofBool (posBit v p)).setWidth m) 0

end Sys2Proof.Machine
end

