-- ==== Sys2Proof/Syntax.lean ====
section
/-!
DEFINITION. Syntax.lean: the fifteen instructions of 30_encoding.md R73, one constructor per row of
spec/opcode_table.json, with the operands their formats (R72) give them.
-/

namespace Sys2Proof

/-- A data register number; all sixteen name a register (30_encoding.md R71). -/
abbrev Reg := Fin 16

/-- The `ciph` field and the state bit `M.ciph`: 0 = Cipher-A, 1 = Cipher-B (30_encoding.md R77). -/
inductive Cipher where
  | a
  | b
  deriving DecidableEq, Repr

/-- The five modes of 43_modes_block.md R160, in the order of their numbers 0..4. -/
inductive Mode where
  | ecb
  | cfi
  | cfb
  | pfb
  | ctr
  deriving DecidableEq, Repr

/-- The instructions. `idx` is the four-bit field of format FK as it stands; the bound R73 puts on it
for `A.RDK` is checked by `Instr.wellFormed`. -/
inductive Instr where
  /-- `GF.MUL rd, rs1, rs2` (40_gf256.md R92) -/
  | gfMul (rd rs1 rs2 : Reg)
  /-- `A.KEY rs1` (41_cipher_a.md R104) -/
  | aKey (rs1 : Reg)
  /-- `A.ENC rd, rs1` (41_cipher_a.md R110) -/
  | aEnc (rd rs1 : Reg)
  /-- `A.DEC rd, rs1` (41_cipher_a.md R117) -/
  | aDec (rd rs1 : Reg)
  /-- `A.RDK rd, idx` (41_cipher_a.md R118) -/
  | aRdk (rd : Reg) (idx : Fin 16)
  /-- `B.KEY rs1` (42_cipher_b.md R141) -/
  | bKey (rs1 : Reg)
  /-- `B.ENC rd, rs1` (42_cipher_b.md R148) -/
  | bEnc (rd rs1 : Reg)
  /-- `B.DEC rd, rs1` (42_cipher_b.md R149) -/
  | bDec (rd rs1 : Reg)
  /-- `B.RDK rd, idx` (42_cipher_b.md R150) -/
  | bRdk (rd : Reg) (idx : Fin 16)
  /-- `M.INIT mode, ciph, rs1` (43_modes_block.md R165) -/
  | mInit (mode : Mode) (ciph : Cipher) (rs1 : Reg)
  /-- `M.ENCB rd, rs1` (43_modes_block.md R170) -/
  | mEncb (rd rs1 : Reg)
  /-- `M.DECB rd, rs1` (43_modes_block.md R171) -/
  | mDecb (rd rs1 : Reg)
  /-- `M.ENCS` (44_modes_stream.md R191) -/
  | mEncs
  /-- `M.DECS` (44_modes_stream.md R197) -/
  | mDecs
  /-- `M.END` (43_modes_block.md R178) -/
  | mEnd
  deriving DecidableEq, Repr

end Sys2Proof
end

