-- ==== Sys2Proof/WellFormed.lean ====
section
/-!
DEFINITION. WellFormed.lean: what an instruction must satisfy beyond its operand types.
-/

namespace Sys2Proof

/-- The extra condition of the `A.RDK` row, `idx <= 10` (30_encoding.md R73). The other extra condition,
`mode <= 4`, is in the type `Mode`; every other operand value is encodable (R71). -/
def Instr.wellFormed : Instr → Bool
  | .aRdk _ idx => decide (idx.val ≤ 10)
  | .gfMul _ _ _ => true
  | .aKey _ => true
  | .aEnc _ _ => true
  | .aDec _ _ => true
  | .bKey _ => true
  | .bEnc _ _ => true
  | .bDec _ _ => true
  | .bRdk _ _ => true
  | .mInit _ _ _ => true
  | .mEncb _ _ => true
  | .mDecb _ _ => true
  | .mEncs => true
  | .mDecs => true
  | .mEnd => true

end Sys2Proof
end

