-- ==== Sys2Proof/Decode.lean ====
section
/-!
DEFINITION. Decode.lean: from command words to instructions and back (30_encoding.md R70 to R74, R77, R82).
A word is cut into the fields of R71 once; the formats of R72 say which fields must be zero.
-/

namespace Sys2Proof

/-- The eight fields of a command word (R71). -/
structure Fields where
  op : BitVec 8
  rd : BitVec 4
  rs1 : BitVec 4
  rs2 : BitVec 4
  idx : BitVec 4
  mode : BitVec 4
  ciph : BitVec 1
  z : BitVec 3
  deriving DecidableEq, Repr

/-- The fields at their positions in the word (R71). -/
def Fields.ofWord (w : Word) : Fields where
  op := w.extractLsb' 24 8
  rd := w.extractLsb' 20 4
  rs1 := w.extractLsb' 16 4
  rs2 := w.extractLsb' 12 4
  idx := w.extractLsb' 8 4
  mode := w.extractLsb' 4 4
  ciph := w.extractLsb' 3 1
  z := w.extractLsb' 0 3

/-- The word with these fields (R71). -/
def Fields.toWord (f : Fields) : Word :=
  f.op ++ f.rd ++ f.rs1 ++ f.rs2 ++ f.idx ++ f.mode ++ f.ciph ++ f.z

/-- The six formats (R72). -/
inductive Format where
  | f3 | f2 | f1 | fk | fm | f0
  deriving DecidableEq, Repr

/-- A field the format does not use must be zero (R72, R74). -/
def Format.unusedZero : Format → Fields → Bool
  | .f3, f => f.idx == 0 && f.mode == 0 && f.ciph == 0 && f.z == 0
  | .f2, f => f.rs2 == 0 && f.idx == 0 && f.mode == 0 && f.ciph == 0 && f.z == 0
  | .f1, f => f.rd == 0 && f.rs2 == 0 && f.idx == 0 && f.mode == 0 && f.ciph == 0 && f.z == 0
  | .fk, f => f.rs1 == 0 && f.rs2 == 0 && f.mode == 0 && f.ciph == 0 && f.z == 0
  | .fm, f => f.rd == 0 && f.rs2 == 0 && f.idx == 0 && f.z == 0
  | .f0, f => f.rd == 0 && f.rs1 == 0 && f.rs2 == 0 && f.idx == 0 && f.mode == 0 && f.ciph == 0 && f.z == 0

/-- Why a word selects no row (R74 lists the cases). -/
inductive Reject where
  /-- the `op` value is none of the fifteen -/
  | unknownOpcode
  /-- a field the format does not use is not zero -/
  | unusedFieldSet
  /-- `A.RDK` with `idx` in 11..15 -/
  | noSuchRoundKey
  /-- `M.INIT` with `mode` in 5..15 -/
  | noSuchMode
  deriving DecidableEq, Repr

/-- The `mode` field (R77). -/
def Mode.ofField (m : BitVec 4) : Option Mode :=
  if m = 0 then some .ecb
  else if m = 1 then some .cfi
  else if m = 2 then some .cfb
  else if m = 3 then some .pfb
  else if m = 4 then some .ctr
  else none

def Mode.toField : Mode → BitVec 4
  | .ecb => 0
  | .cfi => 1
  | .cfb => 2
  | .pfb => 3
  | .ctr => 4

/-- The `ciph` field (R77). -/
def Cipher.ofField (c : BitVec 1) : Cipher := if c = 0 then .a else .b

def Cipher.toField : Cipher → BitVec 1
  | .a => 0
  | .b => 1

/-- An instruction of this format, once the unused fields are known to be zero. -/
def checkFormat (fmt : Format) (f : Fields) (i : Instr) : Except Reject Instr :=
  if fmt.unusedZero f then .ok i else .error .unusedFieldSet

/-- The opcode map (R73). -/
def decodeFields (f : Fields) : Except Reject Instr :=
  if f.op = 0x10 then checkFormat .f3 f (.gfMul f.rd.toFin f.rs1.toFin f.rs2.toFin)
  else if f.op = 0x20 then checkFormat .f1 f (.aKey f.rs1.toFin)
  else if f.op = 0x21 then checkFormat .f2 f (.aEnc f.rd.toFin f.rs1.toFin)
  else if f.op = 0x22 then checkFormat .f2 f (.aDec f.rd.toFin f.rs1.toFin)
  else if f.op = 0x23 then
    if f.idx.toNat ≤ 10 then checkFormat .fk f (.aRdk f.rd.toFin f.idx.toFin) else .error .noSuchRoundKey
  else if f.op = 0x30 then checkFormat .f1 f (.bKey f.rs1.toFin)
  else if f.op = 0x31 then checkFormat .f2 f (.bEnc f.rd.toFin f.rs1.toFin)
  else if f.op = 0x32 then checkFormat .f2 f (.bDec f.rd.toFin f.rs1.toFin)
  else if f.op = 0x33 then checkFormat .fk f (.bRdk f.rd.toFin f.idx.toFin)
  else if f.op = 0x40 then
    match Mode.ofField f.mode with
    | some m => checkFormat .fm f (.mInit m (Cipher.ofField f.ciph) f.rs1.toFin)
    | none => .error .noSuchMode
  else if f.op = 0x41 then checkFormat .f2 f (.mEncb f.rd.toFin f.rs1.toFin)
  else if f.op = 0x42 then checkFormat .f2 f (.mDecb f.rd.toFin f.rs1.toFin)
  else if f.op = 0x43 then checkFormat .f0 f .mEncs
  else if f.op = 0x44 then checkFormat .f0 f .mDecs
  else if f.op = 0x45 then checkFormat .f0 f .mEnd
  else .error .unknownOpcode

/-- Decoding, total on all words (R82): an instruction, or the reason the word is illegal. -/
def decode (w : Word) : Except Reject Instr := decodeFields (Fields.ofWord w)

/-- The fields of an instruction's word; those its format does not use are zero (R71 to R73). -/
def encodeFields : Instr → Fields
  | .gfMul rd rs1 rs2 => ⟨0x10, .ofFin rd, .ofFin rs1, .ofFin rs2, 0, 0, 0, 0⟩
  | .aKey rs1 => ⟨0x20, 0, .ofFin rs1, 0, 0, 0, 0, 0⟩
  | .aEnc rd rs1 => ⟨0x21, .ofFin rd, .ofFin rs1, 0, 0, 0, 0, 0⟩
  | .aDec rd rs1 => ⟨0x22, .ofFin rd, .ofFin rs1, 0, 0, 0, 0, 0⟩
  | .aRdk rd idx => ⟨0x23, .ofFin rd, 0, 0, .ofFin idx, 0, 0, 0⟩
  | .bKey rs1 => ⟨0x30, 0, .ofFin rs1, 0, 0, 0, 0, 0⟩
  | .bEnc rd rs1 => ⟨0x31, .ofFin rd, .ofFin rs1, 0, 0, 0, 0, 0⟩
  | .bDec rd rs1 => ⟨0x32, .ofFin rd, .ofFin rs1, 0, 0, 0, 0, 0⟩
  | .bRdk rd idx => ⟨0x33, .ofFin rd, 0, 0, .ofFin idx, 0, 0, 0⟩
  | .mInit mode ciph rs1 => ⟨0x40, 0, .ofFin rs1, 0, 0, mode.toField, ciph.toField, 0⟩
  | .mEncb rd rs1 => ⟨0x41, .ofFin rd, .ofFin rs1, 0, 0, 0, 0, 0⟩
  | .mDecb rd rs1 => ⟨0x42, .ofFin rd, .ofFin rs1, 0, 0, 0, 0, 0⟩
  | .mEncs => ⟨0x43, 0, 0, 0, 0, 0, 0, 0⟩
  | .mDecs => ⟨0x44, 0, 0, 0, 0, 0, 0, 0⟩
  | .mEnd => ⟨0x45, 0, 0, 0, 0, 0, 0, 0⟩

/-- The command word of an instruction (R71 to R73). -/
def encode (i : Instr) : Word := (encodeFields i).toWord

/-- The instruction the decoder reads from the table's `nbits` low bits of `w`; a command word is one
32-bit word (R70), so longer ones do not exist (log entry 14). -/
def decodeTableWord (nbits w : Nat) : Option Instr :=
  if w % 2 ^ nbits < 2 ^ 32 then (decode (BitVec.ofNat 32 (w % 2 ^ nbits))).toOption else none

end Sys2Proof
end

