-- ==== Sys2Proof/Config.lean ====
section
/-!
DEFINITION. Config.lean: the parameters of 00_scope.md R6 and R7, each at the value this hardware takes
(log entry 8; the unbounded queues, log entry 13).
Nothing here is a free value: the spec gives every one (93_implementation_defined.md, end of part 1).
`NREG` is the 16 of `Reg`; `SINCAP` and `SOUTCAP` are unbounded, so the queues are plain lists.
-/

namespace Sys2Proof

/-- The two readings of Cipher-A decrypt (41_cipher_a.md R115, R116). -/
inductive ADec where
  | source
  | inverse
  deriving DecidableEq, Repr

namespace Config

/-- `ADEC`, this hardware: `SOURCE` (00_scope.md R7). -/
def adec : ADec := .source

/-- `PAD`, per mode: 0x00 in all five (44_modes_stream.md R192). -/
def pad : Mode → Byte
  | .ecb => 0x00#8
  | .cfi => 0x00#8
  | .cfb => 0x00#8
  | .pfb => 0x00#8
  | .ctr => 0x00#8

/-- `bw`: block width in bits (43_modes_block.md R163). -/
def bw : Cipher → Nat
  | .a => 128
  | .b => 64

/-- `bwB`: block width in bytes (44_modes_stream.md R193). -/
def bwB : Cipher → Nat
  | .a => 16
  | .b => 8

/-- `hw`: block width in hex digits (44_modes_stream.md R193). -/
def hw : Cipher → Nat
  | .a => 32
  | .b => 16

/-- `cw`, the parameter `CTRW`: counter and nonce width in bits (43_modes_block.md R168). -/
def cw : Cipher → Nat
  | .a => 64
  | .b => 32

/-- `CTR0`: first counter value (43_modes_block.md R168). -/
def ctr0 : BitVec 64 := 0#64

/-- `HEXIN`: whether uppercase `A`..`F` are accepted on input; this hardware: no (44_modes_stream.md R196). -/
def hexinUpper : Bool := false

end Config

end Sys2Proof
end

