-- ==== Sys2Proof/Machine/State.lean ====
section
/-!
DEFINITION. Machine/State.lean: `Hardware`, the architectural state of 10_state.md R20 with its reset values
(R35); and `State`, what one step of a run carries: that hardware beside the host's moves and observations
(70_reset_and_hazards.md R255), which are no state of the hardware (00_scope.md R9).
-/

namespace Sys2Proof.Machine

/-- What the outside world can do between commands: the two host primitives of 20_memory.md R52, and reset,
which is an event of the environment (70_reset_and_hazards.md R240). -/
inductive HostMove where
  /-- `HostRead(n)` -/
  | read (n : BitVec 8)
  /-- `HostWrite(n, v)` -/
  | write (n : BitVec 8) (v : Block)
  /-- reset -/
  | reset
  deriving DecidableEq, Repr

/-- The result codes of a failed command (60_exceptions.md R214). -/
inductive Err where
  | illegal
  | nokey
  | nomode
  | format
  | unimpl
  | width
  | locked
  | ctrovf
  | fatald
  deriving DecidableEq, Repr

/-- The registers of the mode unit (10_state.md R32); its flag `MV` is a field of `Hardware`. -/
structure ModeUnit where
  /-- `M.mode` -/
  mode : Mode
  /-- `M.ciph` -/
  ciph : Cipher
  /-- `M.chain` -/
  chain : Block
  /-- `M.nonce` -/
  nonce : BitVec 64
  /-- `M.ctr` -/
  ctr : BitVec 64
  deriving DecidableEq, Repr

/-- The architectural state, component by component: "exactly these components and nothing else"
(10_state.md R20). -/
structure Hardware where
  /-- `d[0..15]` (R21) -/
  d : Vector Block 16
  /-- `A.rk[0..10]` (R30) -/
  ark : Vector Block 11
  /-- `AKV` (R23) -/
  akv : Bool
  /-- `B.sk[0..15]` (R31) -/
  bsk : Vector Subkey 16
  /-- `BKV` (R23) -/
  bkv : Bool
  /-- `M.mode`, `M.ciph`, `M.chain`, `M.nonce`, `M.ctr` (R32) -/
  m : ModeUnit
  /-- `MV` (R23) -/
  mv : Bool
  /-- `FATAL` (R23) -/
  fatal : Bool
  /-- `ERR` (R25) -/
  err : BitVec 4
  /-- `ELOG` (R26) -/
  elog : BitVec 16
  /-- `ECMD` (R27) -/
  ecmd : Word
  /-- `sin` (R33), head first -/
  sin : List Byte
  /-- `sout` (R33), head first -/
  sout : List Byte
  deriving DecidableEq, Repr

/-- What a step maps to a step: the hardware, and the run's two lists. The host's moves are a parameter of the
step and not state of the hardware (00_scope.md R9); `step` has no other argument to take them from, so they
stand beside the hardware. No instruction can read or change them (log entries 1 and 2). -/
structure State extends Hardware where
  /-- the host's moves not yet performed, next first (70_reset_and_hazards.md R255; log entry 1) -/
  pending : List HostMove
  /-- the values the host's reads have returned, oldest first (70_reset_and_hazards.md R255; log entry 2) -/
  observed : List Block
  deriving DecidableEq, Repr

/-- The machine never stops with a fault: "there is no halt instruction, no stuck state and no hang"
(70_reset_and_hazards.md R255). So there is no reason to name, and the type is empty (log entry 3; safe). -/
inductive Fault where
  deriving DecidableEq, Repr

/-- Why a step has no meaning. -/
inductive Refusal where
  /-- An instruction of the table that has no meaning yet; raised by an arm of `exec` alone, and by none now.
  Safe: nothing can be proved of a run that is refused. -/
  | notModelled (mnemonic : String)
  deriving DecidableEq, Repr

/-- The mode unit after reset (10_state.md R35). -/
def ModeUnit.reset : ModeUnit where
  mode := .ecb
  ciph := .a
  chain := 0
  nonce := 0
  ctr := 0

/-- The hardware after reset (10_state.md R35, 70_reset_and_hazards.md R241): everything zero, both queues
empty. -/
def Hardware.reset : Hardware where
  d := Vector.replicate 16 0
  ark := Vector.replicate 11 0
  akv := false
  bsk := Vector.replicate 16 0
  bkv := false
  m := ModeUnit.reset
  mv := false
  fatal := false
  err := 0
  elog := 0
  ecmd := 0
  sin := []
  sout := []

/-- The hardware after reset, at the start of a run: no move is pending and none has been observed
(log entries 1 and 2). -/
def State.reset : State where
  toHardware := Hardware.reset
  pending := []
  observed := []

/-- A run with another hardware, the host's lists as they were. -/
def State.withHardware (s : State) (h : Hardware) : State := ⟨h, s.pending, s.observed⟩

/-- A hardware outside any run: no moves, nothing observed. -/
def Hardware.alone (h : Hardware) : State := ⟨h, [], []⟩

end Sys2Proof.Machine
end

