-- ==== Sys2Proof/Machine/Flags.lean ====
section
/-!
DEFINITION. Machine/Flags.lean: the flags as instructions test them, the error codes, and the read-only
registers the host sees (10_state.md R23 to R29, R33).
-/

namespace Sys2Proof.Machine

/-- The code of an error (60_exceptions.md R214). -/
def Err.code : Err → BitVec 4
  | .illegal => 1
  | .nokey => 2
  | .nomode => 3
  | .format => 4
  | .unimpl => 5
  | .width => 6
  | .locked => 7
  | .ctrovf => 8
  | .fatald => 9

/-- `ELOG` with the bit of this error set (10_state.md R26). -/
def logErr (elog : BitVec 16) (e : Err) : BitVec 16 := elog ||| (1#16 <<< e.code.toNat)

/-- The key-valid flag of a cipher: `AKV` or `BKV` (60_exceptions.md R217). -/
def Hardware.keyValid (h : Hardware) : Cipher → Bool
  | .a => h.akv
  | .b => h.bkv

/-- A live instance uses this cipher, so its key is held (60_exceptions.md R219). -/
def Hardware.locked (h : Hardware) (c : Cipher) : Bool := h.mv && h.m.ciph == c

/-- The number of a mode in `M.mode` (43_modes_block.md R160). -/
def modeNum : Mode → BitVec 3
  | .ecb => 0
  | .cfi => 1
  | .cfb => 2
  | .pfb => 3
  | .ctr => 4

/-- The number of a cipher in `M.ciph` (10_state.md R20). -/
def ciphNum : Cipher → BitVec 1
  | .a => 0
  | .b => 1

/-- `STATUS` (10_state.md R24): bits 31:24 zero, `ELOG`, `ERR`, `FATAL`, `MV`, `BKV`, `AKV`. -/
def Hardware.status (h : Hardware) : Word :=
  0#8 ++ h.elog ++ h.err ++ BitVec.ofBool h.fatal ++ BitVec.ofBool h.mv ++ BitVec.ofBool h.bkv ++
    BitVec.ofBool h.akv

/-- `MCFG` (10_state.md R28): `M.mode` in bits 2:0, `M.ciph` in bit 4. -/
def Hardware.mcfg (h : Hardware) : Word := 0#27 ++ ciphNum h.m.ciph ++ 0#1 ++ modeNum h.m.mode

/-- `MCTR` (10_state.md R29): `M.nonce ‖ M.ctr`. -/
def Hardware.mctr (h : Hardware) : Block := h.m.nonce ++ h.m.ctr

/-- A count register: `min(len, 2^32-1)` (10_state.md R33). -/
def countReg (q : List Byte) : Word := BitVec.ofNat 32 (min q.length (2 ^ 32 - 1))

/-- `M.ctr[cw-1:0] = 2^cw - 1`: the counter has no next value (43_modes_block.md R176). -/
def ModeUnit.ctrFull (m : ModeUnit) : Bool :=
  m.ctr.setWidth (Config.cw m.ciph) == BitVec.allOnes (Config.cw m.ciph)

/-- A message of `nb` blocks would take the counter past its last value:
mode `ctr` and `M.ctr + nb > 2^cw - 1` (44_modes_stream.md R191, R197; log entry 9). -/
def ModeUnit.ctrWouldOverflow (m : ModeUnit) (nb : Nat) : Bool :=
  m.mode == .ctr && decide (m.ctr.toNat + nb > 2 ^ Config.cw m.ciph - 1)

end Sys2Proof.Machine
end

