-- ==== Sys2Proof/Machine/Operands.lean ====
section
/-!
DEFINITION. Machine/Operands.lean: the one place data registers are read and written, and the narrow
operand forms of 10_state.md R37.
-/

namespace Sys2Proof.Machine

/-- `d[r]` (10_state.md R21). -/
def Hardware.reg (h : Hardware) (r : Reg) : Block := h.d[r]

/-- `d[r] <- v` (10_state.md R21). -/
def Hardware.setReg (h : Hardware) (r : Reg) (v : Block) : Hardware := { h with d := h.d.set r v }

/-- A state of a run with `d[r] <- v` on its hardware: the host loading a register between commands. -/
def State.setReg (s : State) (r : Reg) (v : Block) : State := s.withHardware (s.toHardware.setReg r v)

/-- `d[r][7:0]`, an operand of `GF.MUL` (10_state.md R37). -/
def Hardware.reg8 (h : Hardware) (r : Reg) : Byte := (h.reg r).setWidth 8

/-- `d[r][63:0]`, a Cipher-B operand (10_state.md R37). -/
def Hardware.reg64 (h : Hardware) (r : Reg) : Block64 := (h.reg r).setWidth 64

/-- The low `bw` bits of a value, zero-extended: how a block of the cipher `c` is read from a data register
or from `M.chain` (43_modes_block.md R163, 10_state.md R37; log entry 12). -/
def lowBlock (c : Cipher) (v : Block) : Block := (v.setWidth (Config.bw c)).setWidth 128

/-- Whether `v` has a bit set at or above bit `n`: `v[127:n] != 0` (60_exceptions.md R220). -/
def widerThan (n : Nat) (v : Block) : Bool := v >>> n != 0

end Sys2Proof.Machine
end

