-- ==== Sys2Proof/Machine/Ops.lean ====
section
/-!
DEFINITION. Machine/Ops.lean: how a command completes. Failing with an error is this hardware's "trap entry"
(60_exceptions.md R213); there is no return from one to model (R226): the next command just runs.
-/

namespace Sys2Proof.Machine

/-- `raise e` for the command word `w` (60_exceptions.md R213): `ERR <- k`, `ELOG[k] <- 1`, `ECMD <- w`,
and `FATAL <- 1` when the error is `WIDTH`. Nothing else changes. -/
def raise (e : Err) (w : Word) (h : Hardware) : Hardware :=
  { h with
    err := e.code
    elog := logErr h.elog e
    ecmd := w
    fatal := h.fatal || e == .width }

/-- A command that passed every check: `ERR <- 0` (60_exceptions.md R212). -/
def succeed (h : Hardware) : Hardware := { h with err := 0 }

/-- How an instruction's own checks and effect end (30_encoding.md R75, steps 3 and 4). A failure carries
the state the error is recorded over: the state before the command, but for a message instruction that has
already taken `sin` (44_modes_stream.md R199). -/
inductive Completion where
  | done (u : Hardware)
  | fails (e : Err) (u : Hardware)
  deriving DecidableEq, Repr

/-- A check of an instruction: raise `e` when `bad` holds, else go on (30_encoding.md R75, step 3). -/
def failIf (bad : Bool) (e : Err) (h : Hardware) (rest : Completion) : Completion :=
  if bad then .fails e h else rest

/-- The frame of every instruction (30_encoding.md R75): `FATALD` first, then its own checks and effect, then
`ERR <- 0` or the error record. The failing command word is the instruction's own word: decoding is one to one
(R82), so it is the word the host wrote (log entry 5). -/
def runCommand (i : Instr) (body : Hardware → Completion) (h : Hardware) : Hardware :=
  if h.fatal then raise .fatald (encode i) h
  else
    match body h with
    | .done u => succeed u
    | .fails e u => raise e (encode i) u

/-- A command acts on the hardware alone: what it does cannot depend on the host's lists, and it leaves them
(00_scope.md R9; log entries 1 and 2). -/
def command (i : Instr) (body : Hardware → Completion) (s : State) : Host.Outcome State Fault Refusal :=
  .next (s.withHardware (runCommand i body s.toHardware))

/-- A word that selects no row (30_encoding.md R75, steps 1 and 2): `FATALD` before `ILLEGAL`. -/
def rejectWord (w : Word) (h : Hardware) : Hardware := raise (if h.fatal then .fatald else .illegal) w h

/-- `SinTakeAll()`: what is left of the state when the whole of `sin` has been taken (00_scope.md R13). -/
def Hardware.takeSin (h : Hardware) : Hardware := { h with sin := [] }

/-- `SoutPut(L)` (00_scope.md R13). -/
def Hardware.putSout (h : Hardware) (bs : List Byte) : Hardware := { h with sout := h.sout ++ bs }

/-- The byte a write to `SIN` appends (20_memory.md R55). -/
def Hardware.pushSin (h : Hardware) (b : Byte) : Hardware := { h with sin := h.sin ++ [b] }

/-- A state of a run with the error recorded on its hardware. -/
def State.raised (e : Err) (w : Word) (s : State) : State := s.withHardware (raise e w s.toHardware)

end Sys2Proof.Machine
end

