-- ==== Sys2Proof/Machine/Gf.lean ====
section
/-!
DEFINITION. Machine/Gf.lean: the GF(2^8) multiplier and `GF.MUL` (40_gf256.md).
-/

namespace Sys2Proof.Machine

/-- One left shift of the multiplicand with its conditional reduction by 0x1B (40_gf256.md R90). -/
def gfShift (a : Byte) : Byte := if a.getLsbD 7 then (a <<< 1) ^^^ 0x1B else a <<< 1

/-- The iterations of the multiplier (40_gf256.md R90). -/
def gfLoop : Nat → Byte → Byte → Byte → Byte
  | 0, acc, _, _ => acc
  | n + 1, acc, a, b => gfLoop n (if b.getLsbD 0 then acc ^^^ a else acc) (gfShift a) (b >>> 1)

/-- `gfmul(a, b)`: exactly eight iterations from a zero accumulator (40_gf256.md R90). -/
def gfmul (a b : Byte) : Byte := gfLoop 8 0 a b

/-- `GF.MUL rd, rs1, rs2` (40_gf256.md R92). -/
def execGfMul (rd rs1 rs2 : Reg) (s : State) : Host.Outcome State Fault Refusal :=
  command (.gfMul rd rs1 rs2)
    (fun h => .done (h.setReg rd ((gfmul (h.reg8 rs1) (h.reg8 rs2)).setWidth 128))) s

end Sys2Proof.Machine
end

