-- ==== Sys2Proof/Machine/CipherA.lean ====
section
/-!
DEFINITION. Machine/CipherA.lean: Cipher-A, its tables, key schedule, network, both readings of its decrypt,
and `A.KEY`, `A.ENC`, `A.DEC`, `A.RDK` (41_cipher_a.md).
-/

namespace Sys2Proof.Machine

/-- The rows of the substitution table, by high nibble (41_cipher_a.md R100; log entry 7). -/
def sboxRows : List (List Byte) :=
  [[0x63, 0x7c, 0x77, 0x7b, 0xf2, 0x6b, 0x6f, 0xc5, 0x30, 0x01, 0x67, 0x2b, 0xfe, 0xd7, 0xab, 0x76],
   [0xca, 0x82, 0xc9, 0x7d, 0xfa, 0x59, 0x47, 0xf0, 0xad, 0xd4, 0xa2, 0xaf, 0x9c, 0xa4, 0x72, 0xc0],
   [0xb7, 0xfd, 0x93, 0x26, 0x36, 0x3f, 0xf7, 0xcc, 0x34, 0xa5, 0xe5, 0xf1, 0x71, 0xd8, 0x31, 0x15],
   [0x04, 0xc7, 0x23, 0xc3, 0x18, 0x96, 0x05, 0x9a, 0x07, 0x12, 0x80, 0xe2, 0xeb, 0x27, 0xb2, 0x75],
   [0x09, 0x83, 0x2c, 0x1a, 0x1b, 0x6e, 0x5a, 0xa0, 0x52, 0x3b, 0xd6, 0xb3, 0x29, 0xe3, 0x2f, 0x84],
   [0x53, 0xd1, 0x00, 0xed, 0x20, 0xfc, 0xb1, 0x5b, 0x6a, 0xcb, 0xbe, 0x39, 0x4a, 0x4c, 0x58, 0xcf],
   [0xd0, 0xef, 0xaa, 0xfb, 0x43, 0x4d, 0x33, 0x85, 0x45, 0xf9, 0x02, 0x7f, 0x50, 0x3c, 0x9f, 0xa8],
   [0x51, 0xa3, 0x40, 0x8f, 0x92, 0x9d, 0x38, 0xf5, 0xbc, 0xb6, 0xda, 0x21, 0x10, 0xff, 0xf3, 0xd2]]
  ++
  [[0xcd, 0x0c, 0x13, 0xec, 0x5f, 0x97, 0x44, 0x17, 0xc4, 0xa7, 0x7e, 0x3d, 0x64, 0x5d, 0x19, 0x73],
   [0x60, 0x81, 0x4f, 0xdc, 0x22, 0x2a, 0x90, 0x88, 0x46, 0xee, 0xb8, 0x14, 0xde, 0x5e, 0x0b, 0xdb],
   [0xe0, 0x32, 0x3a, 0x0a, 0x49, 0x06, 0x24, 0x5c, 0xc2, 0xd3, 0xac, 0x62, 0x91, 0x95, 0xe4, 0x79],
   [0xe7, 0xc8, 0x37, 0x6d, 0x8d, 0xd5, 0x4e, 0xa9, 0x6c, 0x56, 0xf4, 0xea, 0x65, 0x7a, 0xae, 0x08],
   [0xba, 0x78, 0x25, 0x2e, 0x1c, 0xa6, 0xb4, 0xc6, 0xe8, 0xdd, 0x74, 0x1f, 0x4b, 0xbd, 0x8b, 0x8a],
   [0x70, 0x3e, 0xb5, 0x66, 0x48, 0x03, 0xf6, 0x0e, 0x61, 0x35, 0x57, 0xb9, 0x86, 0xc1, 0x1d, 0x9e],
   [0xe1, 0xf8, 0x98, 0x11, 0x69, 0xd9, 0x8e, 0x94, 0x9b, 0x1e, 0x87, 0xe9, 0xce, 0x55, 0x28, 0xdf],
   [0x8c, 0xa1, 0x89, 0x0d, 0xbf, 0xe6, 0x42, 0x68, 0x41, 0x99, 0x2d, 0x0f, 0xb0, 0x54, 0xbb, 0x16]]

/-- `SBOX(x)`: row by the high nibble, column by the low nibble (41_cipher_a.md R100). -/
def sbox (x : Byte) : Byte := (sboxRows.getD (x.toNat / 16) []).getD (x.toNat % 16) 0

/-- The inverse permutation of `SBOX`, needed only for `ADEC = INVERSE` (41_cipher_a.md R116): the place of
`x` in the table. -/
def invSbox (x : Byte) : Byte := BitVec.ofNat 8 (sboxRows.flatten.findIdx (· == x))

/-- `RCON[0..10]` (41_cipher_a.md R102). -/
def rcon : List Byte := [0x00, 0x01, 0x02, 0x04, 0x08, 0x10, 0x20, 0x40, 0x80, 0x1B, 0x36]

/-- `word(v, j) = v[127-32j : 96-32j]` (41_cipher_a.md R103). -/
def wordOf (v : Block) (j : Nat) : Word := v.extractLsb' (96 - 32 * j) 32

/-- `SubWord(t)` (41_cipher_a.md R103). -/
def subWord (t : Word) : Word :=
  sbox (t.extractLsb' 24 8) ++ sbox (t.extractLsb' 16 8) ++ sbox (t.extractLsb' 8 8) ++ sbox (t.extractLsb' 0 8)

/-- One round of the key schedule, from round key `i-1` and `RCON[i]` (41_cipher_a.md R103). -/
def nextRoundKey (prev : Block) (rc : Byte) : Block :=
  let t := subWord ((wordOf prev 3).rotateLeft 8) ^^^ (rc ++ 0#24)
  let n0 := wordOf prev 0 ^^^ t
  let n1 := wordOf prev 1 ^^^ n0
  let n2 := wordOf prev 2 ^^^ n1
  let n3 := wordOf prev 3 ^^^ n2
  n0 ++ n1 ++ n2 ++ n3

/-- The round keys that follow `prev`, one per round constant. -/
def roundKeysFrom (prev : Block) : List Byte → List Block
  | [] => []
  | rc :: rcs => nextRoundKey prev rc :: roundKeysFrom (nextRoundKey prev rc) rcs

theorem length_roundKeysFrom (prev : Block) (rcs : List Byte) :
    (roundKeysFrom prev rcs).length = rcs.length := by
  induction rcs generalizing prev with
  | nil => rfl
  | cons rc rcs ih => simp [roundKeysFrom, ih]

/-- `AKeySched(k)`: round key 0 is the key, then ten rounds with `RCON[1..10]` (41_cipher_a.md R103). -/
def aKeySched (k : Block) : Vector Block 11 :=
  ⟨(k :: roundKeysFrom k rcon.tail).toArray, by simp [length_roundKeysFrom, rcon]⟩

/-- `SubBytes(s)` (41_cipher_a.md R106). -/
def subBytes (s : Block) : Block := fromBytes ((toBytes 16 s).map sbox)

/-- Source indices of the result bytes of `ShiftRows` (41_cipher_a.md R107): result byte `4c + r` comes from
byte `4((c + r) mod 4) + r`. -/
def shiftRowsSrc : List Nat := [0, 5, 10, 15, 4, 9, 14, 3, 8, 13, 2, 7, 12, 1, 6, 11]

/-- `ShiftRows(s)` (41_cipher_a.md R107). -/
def shiftRows (s : Block) : Block := fromBytes (shiftRowsSrc.map (byteOf 16 s))

/-- One column of `MixColumns` (41_cipher_a.md R108). -/
def mixColumn (c0 c1 c2 c3 : Byte) : List Byte :=
  [gfmul 2 c0 ^^^ gfmul 3 c1 ^^^ c2 ^^^ c3,
   c0 ^^^ gfmul 2 c1 ^^^ gfmul 3 c2 ^^^ c3,
   c0 ^^^ c1 ^^^ gfmul 2 c2 ^^^ gfmul 3 c3,
   gfmul 3 c0 ^^^ c1 ^^^ c2 ^^^ gfmul 2 c3]

/-- A function of one column applied to the four columns of the state; column `c` is bytes `4c..4c+3`
(41_cipher_a.md R105). -/
def onColumns (f : Byte → Byte → Byte → Byte → List Byte) (s : Block) : Block :=
  fromBytes ((List.range 4).flatMap fun c =>
    f (byteOf 16 s (4 * c)) (byteOf 16 s (4 * c + 1)) (byteOf 16 s (4 * c + 2)) (byteOf 16 s (4 * c + 3)))

/-- `MixColumns(s)` (41_cipher_a.md R108). -/
def mixColumns (s : Block) : Block := onColumns mixColumn s

/-- A full round with its round key (41_cipher_a.md R109). -/
def fullRound (s k : Block) : Block := mixColumns (shiftRows (subBytes s)) ^^^ k

/-- `AEnc(rk, x)` (41_cipher_a.md R109): the initial key, nine full rounds, a final round without
`MixColumns`. -/
def aEnc (rk : Vector Block 11) (x : Block) : Block :=
  shiftRows (subBytes
    ([rk[1], rk[2], rk[3], rk[4], rk[5], rk[6], rk[7], rk[8], rk[9]].foldl fullRound (x ^^^ rk[0]))) ^^^ rk[10]

/-- `InvSubBytes` (41_cipher_a.md R116). -/
def invSubBytes (s : Block) : Block := fromBytes ((toBytes 16 s).map invSbox)

/-- Source indices of the result bytes of `InvShiftRows` (41_cipher_a.md R116): result byte
`4((c + r) mod 4) + r` comes from byte `4c + r`. -/
def invShiftRowsSrc : List Nat := [0, 13, 10, 7, 4, 1, 14, 11, 8, 5, 2, 15, 12, 9, 6, 3]

/-- `InvShiftRows` (41_cipher_a.md R116). -/
def invShiftRows (s : Block) : Block := fromBytes (invShiftRowsSrc.map (byteOf 16 s))

/-- One column of `InvMixColumns` (41_cipher_a.md R116). -/
def invMixColumn (c0 c1 c2 c3 : Byte) : List Byte :=
  [gfmul 14 c0 ^^^ gfmul 11 c1 ^^^ gfmul 13 c2 ^^^ gfmul 9 c3,
   gfmul 9 c0 ^^^ gfmul 14 c1 ^^^ gfmul 11 c2 ^^^ gfmul 13 c3,
   gfmul 13 c0 ^^^ gfmul 9 c1 ^^^ gfmul 14 c2 ^^^ gfmul 11 c3,
   gfmul 11 c0 ^^^ gfmul 13 c1 ^^^ gfmul 9 c2 ^^^ gfmul 14 c3]

/-- `InvMixColumns` (41_cipher_a.md R116). -/
def invMixColumns (s : Block) : Block := onColumns invMixColumn s

/-- A full round of the inverse network (41_cipher_a.md R116). -/
def invFullRound (s k : Block) : Block := invSubBytes (invShiftRows (invMixColumns (s ^^^ k)))

/-- `ADec_INVERSE(rk, y)` (41_cipher_a.md R116). -/
def aDecInverse (rk : Vector Block 11) (y : Block) : Block :=
  [rk[9], rk[8], rk[7], rk[6], rk[5], rk[4], rk[3], rk[2], rk[1]].foldl invFullRound
    (invSubBytes (invShiftRows (y ^^^ rk[10]))) ^^^ rk[0]

/-- `ADec(rk, y)` under each reading: `SOURCE` is the encrypt network (41_cipher_a.md R115), `INVERSE` the
inverse one (R116). -/
def aDec : ADec → Vector Block 11 → Block → Block
  | .source, rk, y => aEnc rk y
  | .inverse, rk, y => aDecInverse rk y

/-- `A.KEY rs1` (41_cipher_a.md R104). -/
def execAKey (rs1 : Reg) (s : State) : Host.Outcome State Fault Refusal :=
  command (.aKey rs1)
    (fun h => failIf (h.locked .a) .locked h <| .done { h with ark := aKeySched (h.reg rs1), akv := true }) s

/-- `A.ENC rd, rs1` (41_cipher_a.md R110). -/
def execAEnc (rd rs1 : Reg) (s : State) : Host.Outcome State Fault Refusal :=
  command (.aEnc rd rs1)
    (fun h => failIf (!h.akv) .nokey h <| .done (h.setReg rd (aEnc h.ark (h.reg rs1)))) s

/-- `A.DEC rd, rs1` (41_cipher_a.md R117), with this hardware's `ADEC`. -/
def execADec (rd rs1 : Reg) (s : State) : Host.Outcome State Fault Refusal :=
  command (.aDec rd rs1)
    (fun h => failIf (!h.akv) .nokey h <| .done (h.setReg rd (aDec Config.adec h.ark (h.reg rs1)))) s

/-- `A.RDK rd, idx` (41_cipher_a.md R118). An `idx` of 11..15 is an illegal encoding (30_encoding.md R74) that
decoding already rejects; the term means the same error (log entry 6). -/
def execARdk (rd : Reg) (idx : Fin 16) (s : State) : Host.Outcome State Fault Refusal :=
  command (.aRdk rd idx)
    (fun h =>
      if hi : idx.val < 11 then failIf (!h.akv) .nokey h <| .done (h.setReg rd h.ark[idx.val])
      else .fails .illegal h) s

end Sys2Proof.Machine
end

