-- ==== Sys2Proof/Machine/CipherB.lean ====
section
/-!
DEFINITION. Machine/CipherB.lean: Cipher-B, its key schedule and network, and `B.KEY`, `B.ENC`, `B.DEC`,
`B.RDK` (42_cipher_b.md).
-/

namespace Sys2Proof.Machine

/-- The subkeys of the rounds still to come, from the two halves before them (42_cipher_b.md R140): rotate each
half, then `PC2` of `C ‖ D`. The rotations accumulate. -/
def subkeysFrom (c d : BitVec 28) : List Nat → List Subkey
  | [] => []
  | n :: ns =>
    perm (c.rotateLeft n ++ d.rotateLeft n) pc2Table 48 :: subkeysFrom (c.rotateLeft n) (d.rotateLeft n) ns

theorem length_subkeysFrom (c d : BitVec 28) (ns : List Nat) : (subkeysFrom c d ns).length = ns.length := by
  induction ns generalizing c d with
  | nil => rfl
  | cons n ns ih => simp [subkeysFrom, ih]

/-- `PC1` of the key: `C` in the high half, `D` in the low half (42_cipher_b.md R140). -/
def keyHalves (k : Block64) : BitVec 56 := perm k pc1Table 56

/-- `BKeySched(k)` (42_cipher_b.md R140). -/
def bKeySched (k : Block64) : Vector Subkey 16 :=
  ⟨(subkeysFrom ((keyHalves k).extractLsb' 28 28) ((keyHalves k).extractLsb' 0 28) shiftTable).toArray,
    by simp [length_subkeysFrom, shiftTable]⟩

/-- Output of one S-box for a six-bit chunk: row by the outer two bits, column by the middle four
(42_cipher_b.md R142). -/
def sBoxOut (box : List (List Nat)) (chunk : BitVec 6) : BitVec 4 :=
  BitVec.ofNat 4
    ((box.getD (chunk.extractLsb' 5 1 ++ chunk.extractLsb' 0 1).toNat []).getD (chunk.extractLsb' 1 4).toNat 0)

/-- The eight S-box outputs concatenated, box `S1` on the most significant chunk (42_cipher_b.md R142). -/
def sBoxLayer (x : Subkey) : Word :=
  (sBoxes.zipIdx.map fun (box, j) => sBoxOut box (x.extractLsb' (42 - 6 * j) 6)).foldl
    (fun acc o => (acc <<< 4) ||| o.setWidth 32) 0

/-- The round function `f(R, k)` (42_cipher_b.md R142). -/
def bRoundFn (r : Word) (k : Subkey) : Word := perm (sBoxLayer (perm r eTable 48 ^^^ k)) pTable 32

/-- One round: `(L, R) <- (R, L ⊕ f(R, k))` (42_cipher_b.md R146). -/
def bRound (lr : Word × Word) (k : Subkey) : Word × Word := (lr.2, lr.1 ^^^ bRoundFn lr.2 k)

/-- `BNet(k[0..15], x)`: `IP`, the rounds in order, the halves swapped, `FP` (42_cipher_b.md R146). -/
def bNet (ks : List Subkey) (x : Block64) : Block64 :=
  let y := perm x ipTable 64
  let lr := ks.foldl bRound (y.extractLsb' 32 32, y.extractLsb' 0 32)
  perm (lr.2 ++ lr.1) fpTable 64

/-- `BEnc(sk, x)` (42_cipher_b.md R146). -/
def bEnc (sk : Vector Subkey 16) (x : Block64) : Block64 := bNet sk.toList x

/-- `BDec(sk, y)`: the identical network, subkeys in reverse order (42_cipher_b.md R147). -/
def bDec (sk : Vector Subkey 16) (y : Block64) : Block64 := bNet sk.toList.reverse y

/-- `B.KEY rs1` (42_cipher_b.md R141): `LOCKED` before `WIDTH`. -/
def execBKey (rs1 : Reg) (s : State) : Host.Outcome State Fault Refusal :=
  command (.bKey rs1)
    (fun h =>
      failIf (h.locked .b) .locked h <|
      failIf (widerThan 64 (h.reg rs1)) .width h <|
      .done { h with bsk := bKeySched (h.reg64 rs1), bkv := true }) s

/-- `B.ENC rd, rs1` (42_cipher_b.md R148). -/
def execBEnc (rd rs1 : Reg) (s : State) : Host.Outcome State Fault Refusal :=
  command (.bEnc rd rs1)
    (fun h => failIf (!h.bkv) .nokey h <| .done (h.setReg rd ((bEnc h.bsk (h.reg64 rs1)).setWidth 128))) s

/-- `B.DEC rd, rs1` (42_cipher_b.md R149). -/
def execBDec (rd rs1 : Reg) (s : State) : Host.Outcome State Fault Refusal :=
  command (.bDec rd rs1)
    (fun h => failIf (!h.bkv) .nokey h <| .done (h.setReg rd ((bDec h.bsk (h.reg64 rs1)).setWidth 128))) s

/-- `B.RDK rd, idx` (42_cipher_b.md R150). -/
def execBRdk (rd : Reg) (idx : Fin 16) (s : State) : Host.Outcome State Fault Refusal :=
  command (.bRdk rd idx)
    (fun h => failIf (!h.bkv) .nokey h <| .done (h.setReg rd (h.bsk[idx].setWidth 128))) s

end Sys2Proof.Machine
end

