-- ==== Sys2Proof/Machine/ModeBlock.lean ====
section
/-!
DEFINITION. Machine/ModeBlock.lean: the mode unit at block level and `M.INIT`, `M.ENCB`, `M.DECB`, `M.END`
(43_modes_block.md). Blocks are 128-bit values here; a Cipher-B block is its 64 bits zero-extended (R163).
-/

namespace Sys2Proof.Machine

/-- `E(x)` of the cipher an instance selects, with the round keys as they are now (43_modes_block.md R163). -/
def Hardware.cipherEnc (h : Hardware) : Cipher → Block → Block
  | .a, x => aEnc h.ark x
  | .b, x => (bEnc h.bsk (x.setWidth 64)).setWidth 128

/-- `D(x)` of the cipher an instance selects (43_modes_block.md R163), with this hardware's `ADEC`. -/
def Hardware.cipherDec (h : Hardware) : Cipher → Block → Block
  | .a, x => aDec Config.adec h.ark x
  | .b, x => (bDec h.bsk (x.setWidth 64)).setWidth 128

/-- The chaining value as the mode steps use it: `M.chain`, or `M.chain[63:0]` (43_modes_block.md R163). -/
def ModeUnit.chainBlock (m : ModeUnit) : Block := lowBlock m.ciph m.chain

/-- `M.nonce[cw-1:0] ‖ M.ctr[cw-1:0]` (43_modes_block.md R168). -/
def ModeUnit.ctrBlock (m : ModeUnit) : Block :=
  (m.nonce.setWidth (Config.cw m.ciph) ++ m.ctr.setWidth (Config.cw m.ciph)).setWidth 128

/-- A mode step: the resulting block and the mode unit after it, or the error it raises. -/
abbrev StepResult := Except Err (Block × ModeUnit)

/-- The counter step, the same in both directions (43_modes_block.md R176): `CTROVF` at the last counter
value, else the keystream block and the counter plus one. -/
def ctrStep (E : Block → Block) (m : ModeUnit) (x : Block) : StepResult :=
  if m.ctrFull then .error .ctrovf else .ok (x ^^^ E m.ctrBlock, { m with ctr := m.ctr + 1 })

/-- `EncStep(x)` by mode, for the cipher's `E` (43_modes_block.md R172 to R176; 90_conflicts.md C1 for `cfi`). -/
def encStep (E : Block → Block) (m : ModeUnit) (x : Block) : StepResult :=
  match m.mode with
  | .ecb => .ok (E x, m)
  | .cfi => .ok (E (x ^^^ m.chainBlock), { m with chain := E (x ^^^ m.chainBlock) })
  | .cfb => .ok (E m.chainBlock ^^^ x, { m with chain := E m.chainBlock ^^^ x })
  | .pfb => .ok (E m.chainBlock ^^^ x, { m with chain := x })
  | .ctr => ctrStep E m x

/-- `DecStep(x)` by mode, for the cipher's `E` and `D` (43_modes_block.md R172 to R176): only `ecb` calls `D`,
and `cfi` has no decrypt (R173). -/
def decStep (E D : Block → Block) (m : ModeUnit) (x : Block) : StepResult :=
  match m.mode with
  | .ecb => .ok (D x, m)
  | .cfi => .error .unimpl
  | .cfb => .ok (E m.chainBlock ^^^ x, { m with chain := x })
  | .pfb => .ok (E m.chainBlock ^^^ x, { m with chain := E m.chainBlock ^^^ x })
  | .ctr => ctrStep E m x

/-- `EncStep` of the live instance. -/
def Hardware.encStep (h : Hardware) (m : ModeUnit) (x : Block) : StepResult :=
  Machine.encStep (h.cipherEnc m.ciph) m x

/-- `DecStep` of the live instance. -/
def Hardware.decStep (h : Hardware) (m : ModeUnit) (x : Block) : StepResult :=
  Machine.decStep (h.cipherEnc m.ciph) (h.cipherDec m.ciph) m x

/-- Whether `M.INIT` raises `WIDTH` (43_modes_block.md R165): an IV wider than a block, or a nonce wider than
`cw`; `ecb` does not examine its operand. -/
def ivTooWide (mode : Mode) (c : Cipher) (v : Block) : Bool :=
  match mode with
  | .ecb => false
  | .cfi => widerThan (Config.bw c) v
  | .cfb => widerThan (Config.bw c) v
  | .pfb => widerThan (Config.bw c) v
  | .ctr => widerThan (Config.cw c) v

/-- `c0` of `M.INIT` (43_modes_block.md R165). -/
def initChain (mode : Mode) (c : Cipher) (v : Block) : Block :=
  match mode with
  | .ecb => 0
  | .cfi => lowBlock c v
  | .cfb => lowBlock c v
  | .pfb => lowBlock c v
  | .ctr => 0

/-- `n0` of `M.INIT` (43_modes_block.md R165). -/
def initNonce (mode : Mode) (c : Cipher) (v : Block) : BitVec 64 :=
  match mode with
  | .ecb => 0
  | .cfi => 0
  | .cfb => 0
  | .pfb => 0
  | .ctr => (v.setWidth (Config.cw c)).setWidth 64

/-- The mode unit `M.INIT` constructs (43_modes_block.md R165). -/
def initUnit (mode : Mode) (c : Cipher) (v : Block) : ModeUnit where
  mode := mode
  ciph := c
  chain := initChain mode c v
  nonce := initNonce mode c v
  ctr := Config.ctr0

/-- `M.INIT mode, ciph, rs1` (43_modes_block.md R165, R166): `NOKEY` before `WIDTH`. -/
def execMInit (mode : Mode) (ciph : Cipher) (rs1 : Reg) (s : State) : Host.Outcome State Fault Refusal :=
  command (.mInit mode ciph rs1)
    (fun h =>
      failIf (!h.keyValid ciph) .nokey h <|
      failIf (ivTooWide mode ciph (h.reg rs1)) .width h <|
      .done { h with m := initUnit mode ciph (h.reg rs1), mv := true }) s

/-- The effect of a block step on the state: `d[rd]` and the mode unit, or its error with nothing changed
(43_modes_block.md R170, R171). -/
def finishBlock (rd : Reg) (r : StepResult) (h : Hardware) : Completion :=
  match r with
  | .error e => .fails e h
  | .ok (y, m') => .done { h.setReg rd y with m := m' }

/-- `M.ENCB rd, rs1` (43_modes_block.md R170). -/
def execMEncb (rd rs1 : Reg) (s : State) : Host.Outcome State Fault Refusal :=
  command (.mEncb rd rs1)
    (fun h =>
      failIf (!h.mv) .nomode h <|
      finishBlock rd (h.encStep h.m (lowBlock h.m.ciph (h.reg rs1))) h) s

/-- `M.DECB rd, rs1` (43_modes_block.md R171). -/
def execMDecb (rd rs1 : Reg) (s : State) : Host.Outcome State Fault Refusal :=
  command (.mDecb rd rs1)
    (fun h =>
      failIf (!h.mv) .nomode h <|
      finishBlock rd (h.decStep h.m (lowBlock h.m.ciph (h.reg rs1))) h) s

/-- `M.END` (43_modes_block.md R178). -/
def execMEnd (s : State) : Host.Outcome State Fault Refusal :=
  command .mEnd (fun h => .done { h with mv := false }) s

end Sys2Proof.Machine
end

