-- ==== Sys2Proof/Machine/ModeStream.lean ====
section
/-!
DEFINITION. Machine/ModeStream.lean: the mode unit at message level and `M.ENCS`, `M.DECS`
(44_modes_stream.md).
-/

namespace Sys2Proof.Machine

/-- `ceil(n / bwB)` (44_modes_stream.md R192). -/
def blockCount (n bwB : Nat) : Nat := (n + bwB - 1) / bwB

/-- A final chunk filled to a whole block with the padding byte (44_modes_stream.md R192). -/
def padChunk (pad : Byte) (bwB : Nat) (c : List Byte) : List Byte := c ++ List.replicate (bwB - c.length) pad

/-- `chunks(msg, bwB)` (44_modes_stream.md R192). -/
def chunks (pad : Byte) (bwB : Nat) (msg : List Byte) : List (List Byte) :=
  (List.range (blockCount msg.length bwB)).map fun i => padChunk pad bwB ((msg.drop (i * bwB)).take bwB)

/-- The ASCII code of a nibble in the alphabet `0123456789abcdef` (44_modes_stream.md R194). -/
def hexDigit (n : BitVec 4) : Byte :=
  if n.toNat < 10 then BitVec.ofNat 8 (0x30 + n.toNat) else BitVec.ofNat 8 (0x61 + (n.toNat - 10))

/-- `hexenc(v, n)` (44_modes_stream.md R194): for each byte the high nibble, then the low one. -/
def hexenc (v : Block) (n : Nat) : List Byte :=
  (toBytes n v).flatMap fun b => [hexDigit (b.extractLsb' 4 4), hexDigit (b.extractLsb' 0 4)]

/-- The value of a hex digit, or none for any other character (44_modes_stream.md R196). Uppercase letters
count only under the other value of `HEXIN`. -/
def hexValue (ch : Byte) : Option (BitVec 4) :=
  if 0x30 ≤ ch.toNat ∧ ch.toNat ≤ 0x39 then some (BitVec.ofNat 4 (ch.toNat - 0x30))
  else if 0x61 ≤ ch.toNat ∧ ch.toNat ≤ 0x66 then some (BitVec.ofNat 4 (ch.toNat - 0x61 + 10))
  else if Config.hexinUpper ∧ 0x41 ≤ ch.toNat ∧ ch.toNat ≤ 0x46 then some (BitVec.ofNat 4 (ch.toNat - 0x41 + 10))
  else none

/-- The nibbles of a string of hex digits, or none when some character is not one (44_modes_stream.md R196). -/
def parseHex : List Byte → Option (List (BitVec 4))
  | [] => some []
  | ch :: rest =>
    match hexValue ch, parseHex rest with
    | some n, some ns => some (n :: ns)
    | _, _ => none

/-- `hexdec` of the nibbles of one block, most significant first (44_modes_stream.md R196). -/
def blockOfNibbles (ns : List (BitVec 4)) : Block := ns.foldl (fun acc n => (acc <<< 4) ||| n.setWidth 128) 0

/-- The blocks of a well-formed hex string: `hexdec(msg[i*hw .. (i+1)*hw))` for each `i`
(44_modes_stream.md R197). -/
def hexBlocks (hw : Nat) (ns : List (BitVec 4)) : List Block :=
  (List.range (ns.length / hw)).map fun i => blockOfNibbles ((ns.drop (i * hw)).take hw)

/-- `strip0(L)`: the entire trailing run of 0x00 removed (44_modes_stream.md R198). -/
def strip0 (bs : List Byte) : List Byte := (bs.reverse.dropWhile (· == 0)).reverse

/-- The loop over the blocks of a message, ascending, threading the mode unit (44_modes_stream.md R191, R197).
The checks that come first make its error case unreachable (log entry 11). -/
def runBlocks (f : ModeUnit → Block → StepResult) (m : ModeUnit) : List Block → Except Err (List Block × ModeUnit)
  | [] => .ok ([], m)
  | x :: xs =>
    match f m x with
    | .error e => .error e
    | .ok (y, m') =>
      match runBlocks f m' xs with
      | .error e => .error e
      | .ok (ys, m'') => .ok (y :: ys, m'')

/-- The effect of a finished message on a state whose `sin` has been taken: the result on `sout`, the mode unit
after the last block, the instance ended (44_modes_stream.md R190). -/
def finishMessage (out : List Block → List Byte) (r : Except Err (List Block × ModeUnit)) (h : Hardware) :
    Completion :=
  match r with
  | .error e => .fails e h
  | .ok (ys, m') => .done { h.putSout (out ys) with m := m', mv := false }

/-- The plaintext blocks of a message (44_modes_stream.md R191, R192, R193). -/
def messageBlocks (m : ModeUnit) (msg : List Byte) : List Block :=
  (chunks (Config.pad m.mode) (Config.bwB m.ciph) msg).map fromBytes

/-- The hex string of the result blocks of `M.ENCS` (44_modes_stream.md R191). -/
def hexOut (c : Cipher) (ys : List Block) : List Byte := ys.flatMap fun y => hexenc y (Config.bwB c)

/-- The plaintext bytes `M.DECS` delivers (44_modes_stream.md R197, R198). -/
def textOut (c : Cipher) (ys : List Block) : List Byte := strip0 (ys.flatMap (toBytes (Config.bwB c)))

/-- `M.ENCS` (44_modes_stream.md R191). -/
def execMEncs (s : State) : Host.Outcome State Fault Refusal :=
  command .mEncs
    (fun h =>
      failIf (!h.mv) .nomode h <|
      failIf (h.m.ctrWouldOverflow (blockCount h.sin.length (Config.bwB h.m.ciph))) .ctrovf h.takeSin <|
      finishMessage (hexOut h.m.ciph) (runBlocks h.encStep h.m (messageBlocks h.m h.sin)) h.takeSin) s

/-- The checks and effect of `M.DECS` once the string has been parsed: a character that is no digit is
`FORMAT` (44_modes_stream.md R197). -/
def decodeMessage (h : Hardware) : Option (List (BitVec 4)) → Completion
  | none => .fails .format h.takeSin
  | some ns =>
    failIf (h.m.ctrWouldOverflow (ns.length / Config.hw h.m.ciph)) .ctrovf h.takeSin <|
    finishMessage (textOut h.m.ciph) (runBlocks h.decStep h.m (hexBlocks (Config.hw h.m.ciph) ns)) h.takeSin

/-- `M.DECS` (44_modes_stream.md R197): `NOMODE`, then with the message taken `UNIMPL`, `FORMAT` (length),
`FORMAT` (digits), `CTROVF`. -/
def execMDecs (s : State) : Host.Outcome State Fault Refusal :=
  command .mDecs
    (fun h =>
      failIf (!h.mv) .nomode h <|
      failIf (h.m.mode == .cfi) .unimpl h.takeSin <|
      failIf (h.sin.length % Config.hw h.m.ciph != 0) .format h.takeSin <|
      decodeMessage h (parseHex h.sin)) s

end Sys2Proof.Machine
end

