-- ==== Sys2Proof/Machine/Dispatch.lean ====
section
/-!
DEFINITION. Machine/Dispatch.lean: one arm per instruction.
-/

namespace Sys2Proof.Machine

def exec (i : Instr) (s : State) : Host.Outcome State Fault Refusal :=
  match i with
  | .gfMul rd rs1 rs2 => Sys2Proof.Machine.execGfMul rd rs1 rs2 s
  | .aKey rs1 => Sys2Proof.Machine.execAKey rs1 s
  | .aEnc rd rs1 => Sys2Proof.Machine.execAEnc rd rs1 s
  | .aDec rd rs1 => Sys2Proof.Machine.execADec rd rs1 s
  | .aRdk rd idx => Sys2Proof.Machine.execARdk rd idx s
  | .bKey rs1 => Sys2Proof.Machine.execBKey rs1 s
  | .bEnc rd rs1 => Sys2Proof.Machine.execBEnc rd rs1 s
  | .bDec rd rs1 => Sys2Proof.Machine.execBDec rd rs1 s
  | .bRdk rd idx => Sys2Proof.Machine.execBRdk rd idx s
  | .mInit mode ciph rs1 => Sys2Proof.Machine.execMInit mode ciph rs1 s
  | .mEncb rd rs1 => Sys2Proof.Machine.execMEncb rd rs1 s
  | .mDecb rd rs1 => Sys2Proof.Machine.execMDecb rd rs1 s
  | .mEncs => Sys2Proof.Machine.execMEncs s
  | .mDecs => Sys2Proof.Machine.execMDecs s
  | .mEnd => Sys2Proof.Machine.execMEnd s

end Sys2Proof.Machine
end

