-- ==== Sys2Proof/Machine/HostPort.lean ====
section
/-!
DEFINITION. Machine/HostPort.lean: the execution of a command word (30_encoding.md R75), the host register space
(20_memory.md R51 to R57), and one move of the host as a function of the hardware with the move as its parameter
(00_scope.md R9).
-/

namespace Sys2Proof.Machine

/-- What an outcome of `exec` says of the hardware. -/
def hardwareOf : Host.Outcome State Fault Refusal → Host.Outcome Hardware Fault Refusal
  | .next s => .next s.toHardware
  | .fault r => .fault r
  | .refused r => .refused r

/-- A command word executed to completion (20_memory.md R54, 30_encoding.md R75). -/
def runWord (w : Word) (h : Hardware) : Host.Outcome Hardware Fault Refusal :=
  match decode w with
  | .ok i => hardwareOf (exec i h.alone)
  | .error _ => .next (rejectWord w h)

/-- `HostRead(0x1A)` (20_memory.md R56): the head of `sout`, which it removes, or 0 when `sout` is empty. -/
def popSout (h : Hardware) : Block × Hardware :=
  match h.sout with
  | [] => (0, h)
  | b :: rest => (b.setWidth 128, { h with sout := rest })

/-- `HostRead(n)`: the value and the hardware after it (20_memory.md R51 to R53, R56, R57). Write-only and
unmapped numbers read 0. -/
def hostRead (n : BitVec 8) (h : Hardware) : Block × Hardware :=
  if hn : n.toNat < 16 then (h.reg ⟨n.toNat, hn⟩, h)
  else if n = 0x10 then (h.status.setWidth 128, h)
  else if n = 0x11 then (h.mcfg.setWidth 128, h)
  else if n = 0x12 then (h.m.chain, h)
  else if n = 0x13 then (h.mctr, h)
  else if n = 0x14 then (h.ecmd.setWidth 128, h)
  else if n = 0x15 then ((countReg h.sin).setWidth 128, h)
  else if n = 0x16 then ((countReg h.sout).setWidth 128, h)
  else if n = 0x1A then popSout h
  else (0, h)

/-- `HostWrite(n, v)` (20_memory.md R51 to R55, R57). Writes to read-only and unmapped numbers are ignored. -/
def hostWrite (n : BitVec 8) (v : Block) (h : Hardware) : Host.Outcome Hardware Fault Refusal :=
  if hn : n.toNat < 16 then .next (h.setReg ⟨n.toNat, hn⟩ v)
  else if n = 0x18 then runWord (v.setWidth 32) h
  else if n = 0x19 then .next (h.pushSin (v.setWidth 8))
  else .next h

/-- A write returns no value to the host. -/
def noValue : Host.Outcome Hardware Fault Refusal → Host.Outcome (Hardware × Option Block) Fault Refusal
  | .next h => .next (h, none)
  | .fault r => .fault r
  | .refused r => .refused r

/-- The step of the hardware, the host's move its parameter (00_scope.md R9): one move of a run
(70_reset_and_hazards.md R255), or reset, which gives the initial state whatever the state was (R240; log entry
4). It answers the hardware after the move and the value a read returns. -/
def performMove (mv : HostMove) (h : Hardware) : Host.Outcome (Hardware × Option Block) Fault Refusal :=
  match mv with
  | .read n => .next ((hostRead n h).2, some (hostRead n h).1)
  | .write n v => noValue (hostWrite n v h)
  | .reset => .next (Hardware.reset, none)

/-- The move that issues a command word: a write to `CMD` (20_memory.md R54). -/
def cmdMove (w : Word) : HostMove := .write 0x18 (w.setWidth 128)

end Sys2Proof.Machine
end

