-- ==== Sys2Proof/Machine/Step.lean ====
section
/-!
DEFINITION. Machine/Step.lean: a run performs one move of the host after the other (70_reset_and_hazards.md R255).
-/

namespace Sys2Proof.Machine

/-- A run after a move: the hardware as the move left it, the moves still to come, and what a read returned added
to what has been observed (70_reset_and_hazards.md R255). -/
def afterMove (rest : List HostMove) (seen : List Block) :
    Host.Outcome (Hardware × Option Block) Fault Refusal → Host.Outcome State Fault Refusal
  | .next (h, v) => .next ⟨h, rest, seen ++ v.toList⟩
  | .fault r => .fault r
  | .refused r => .refused r

/-- The host's next move is the parameter of the hardware's step `performMove` (00_scope.md R9). With no move
left the core waits for a command and nothing changes (10_state.md R22, R35; log entry 1). -/
def step (s : State) : Host.Outcome State Fault Refusal :=
  match s.pending with
  | [] => .next s
  | mv :: rest => afterMove rest s.observed (performMove mv s.toHardware)

/-- `s` with the command word `w mod 2^nbits` as the host's very next move, a write to `CMD`: this is where the
step takes its next instruction from (20_memory.md R54; log entry 1). -/
def State.withFetchWord (s : State) (nbits w : Nat) : State :=
  { s with pending := cmdMove (BitVec.ofNat 32 (w % 2 ^ nbits)) :: s.pending }

end Sys2Proof.Machine
end

