-- ==== Sys2Proof/Safety.lean ====
section
/-!
DEFINITION. Safety.lean: the terms the statements use: what a good state is, the opcode map and the field
product as the spec prints them a second way, and short runs of block commands.
-/

namespace Sys2Proof.Machine

/-- "No command of this run failed" (10_state.md R26): `ELOG = 0`. -/
def Hardware.clean (h : Hardware) : Prop := h.elog = 0

/-- The error registers agree with each other (10_state.md R25 to R27, 60_exceptions.md R213, R215): `ERR` is a
code that exists, its bit is logged, reserved bits of `ELOG` are 0, `FATAL` is set exactly when `WIDTH` has been
logged, and `ECMD` is 0 while nothing has failed. -/
structure Hardware.ErrInv (h : Hardware) : Prop where
  code_le : h.err.toNat ≤ 9
  logged : h.err ≠ 0 → h.elog.getLsbD h.err.toNat = true
  reserved : h.elog &&& 0xFC01#16 = 0
  fatal_iff : h.fatal = h.elog.getLsbD 6
  ecmd_zero : h.elog = 0 → h.ecmd = 0

/-- The round-key files hold schedules (10_state.md R30, R31, R35): a valid file is the schedule of some key, one
that has never been written is 0. -/
structure Hardware.KeyInv (h : Hardware) : Prop where
  a_valid : h.akv = true → h.ark = aKeySched h.ark[0]
  a_unset : h.akv = false → h.ark = Hardware.reset.ark
  b_valid : h.bkv = true → ∃ k, h.bsk = bKeySched k
  b_unset : h.bkv = false → h.bsk = Hardware.reset.bsk

/-- The registers a mode does not use are 0 (43_modes_block.md R162). -/
def ModeUnit.unusedZero (m : ModeUnit) : Prop :=
  match m.mode with
  | .ecb => m.chain = 0 ∧ m.nonce = 0 ∧ m.ctr = 0
  | .cfi => m.nonce = 0 ∧ m.ctr = 0
  | .cfb => m.nonce = 0 ∧ m.ctr = 0
  | .pfb => m.nonce = 0 ∧ m.ctr = 0
  | .ctr => m.chain = 0

/-- The mode unit holds what its mode and cipher allow (43_modes_block.md R162, 10_state.md R20, R37): unused
registers 0, and with Cipher-B only the low half of each register in use. -/
structure ModeUnit.Inv (m : ModeUnit) : Prop where
  unused : m.unusedZero
  narrow : m.ciph = .b → m.chain.toNat < 2 ^ 64 ∧ m.nonce.toNat < 2 ^ 32 ∧ m.ctr.toNat < 2 ^ 32

/-- The invariant of the machine. The third clause is 43_modes_block.md R164: a live instance's cipher has a
key. -/
structure Hardware.Inv (h : Hardware) : Prop where
  errors : h.ErrInv
  keys : h.KeyInv
  live_key : h.mv = true → h.keyValid h.m.ciph = true
  unit : h.m.Inv

/-- A row of the opcode map as 30_encoding.md R73 prints it; a row without an extra condition has both bounds
at 15, the largest value of the field. -/
structure OpcodeRow where
  mat : Word
  mask : Word
  maxIdx : Nat
  maxMode : Nat
  deriving DecidableEq, Repr

/-- `w & mask = match` and the row's extra condition (30_encoding.md R73). -/
abbrev OpcodeRow.selects (r : OpcodeRow) (w : Word) : Prop :=
  w &&& r.mask = r.mat ∧ (w.extractLsb' 8 4).toNat ≤ r.maxIdx ∧ (w.extractLsb' 4 4).toNat ≤ r.maxMode

/-- The fifteen rows of 30_encoding.md R73, in its order. -/
def opcodeRows : List OpcodeRow :=
  [⟨0x10000000, 0xFF000FFF, 15, 15⟩,
   ⟨0x20000000, 0xFFF0FFFF, 15, 15⟩,
   ⟨0x21000000, 0xFF00FFFF, 15, 15⟩,
   ⟨0x22000000, 0xFF00FFFF, 15, 15⟩,
   ⟨0x23000000, 0xFF0FF0FF, 10, 15⟩,
   ⟨0x30000000, 0xFFF0FFFF, 15, 15⟩,
   ⟨0x31000000, 0xFF00FFFF, 15, 15⟩,
   ⟨0x32000000, 0xFF00FFFF, 15, 15⟩,
   ⟨0x33000000, 0xFF0FF0FF, 15, 15⟩,
   ⟨0x40000000, 0xFFF0FF07, 15, 4⟩,
   ⟨0x41000000, 0xFF00FFFF, 15, 15⟩,
   ⟨0x42000000, 0xFF00FFFF, 15, 15⟩,
   ⟨0x43000000, 0xFFFFFFFF, 15, 15⟩,
   ⟨0x44000000, 0xFFFFFFFF, 15, 15⟩,
   ⟨0x45000000, 0xFFFFFFFF, 15, 15⟩]

/-- The register named by the four bits of `w` from bit `k` up (30_encoding.md R71). -/
def regAt (w : Word) (k : Nat) : Reg := (w.extractLsb' k 4).toFin

/-- Words of the six formats with the fields at the positions of 30_encoding.md R71, R72. -/
def wordF3 (op : BitVec 8) (rd rs1 rs2 : Reg) : Word :=
  op ++ BitVec.ofNat 4 rd.val ++ BitVec.ofNat 4 rs1.val ++ BitVec.ofNat 4 rs2.val ++ 0#12

def wordF2 (op : BitVec 8) (rd rs1 : Reg) : Word :=
  op ++ BitVec.ofNat 4 rd.val ++ BitVec.ofNat 4 rs1.val ++ 0#16

def wordF1 (op : BitVec 8) (rs1 : Reg) : Word := op ++ 0#4 ++ BitVec.ofNat 4 rs1.val ++ 0#16

def wordFK (op : BitVec 8) (rd : Reg) (idx : Fin 16) : Word :=
  op ++ BitVec.ofNat 4 rd.val ++ 0#8 ++ BitVec.ofNat 4 idx.val ++ 0#8

def wordFM (op : BitVec 8) (mode : Nat) (ciph : Nat) (rs1 : Reg) : Word :=
  op ++ 0#4 ++ BitVec.ofNat 4 rs1.val ++ 0#8 ++ BitVec.ofNat 4 mode ++ BitVec.ofNat 1 ciph ++ 0#3

def wordF0 (op : BitVec 8) : Word := op ++ 0#24

/-- The product of two bytes read as polynomials over GF(2), not reduced (40_gf256.md R91). -/
def polyMul (a b : Byte) : BitVec 16 :=
  (List.range 8).foldl (fun acc i => if b.getLsbD i then acc ^^^ (a.setWidth 16 <<< i) else acc) 0

/-- The remainder of a polynomial of degree at most 14 modulo x^8+x^4+x^3+x+1, 0x11B: its bits 14 down to 8
cancelled one after the other (40_gf256.md R91). -/
def polyReduce (p : BitVec 16) : Byte :=
  ((List.range 7).foldl
    (fun q j => if q.getLsbD (14 - j) then q ^^^ (0x11B#16 <<< (6 - j)) else q) p).setWidth 8

/-- One block command on each block of a list, in order, the host loading it into `d[rs1]` first; the blocks
left in `d[rd]`, or none when a command fails (43_modes_block.md R179, 44_modes_stream.md R200). -/
def blockRun (i : Instr) (rd rs1 : Reg) (s : State) : List Block → Option (List Block × State)
  | [] => some ([], s)
  | x :: xs =>
    match exec i (s.setReg rs1 x) with
    | .next t =>
      if t.err = 0 then
        match blockRun i rd rs1 t xs with
        | some (ys, u) => some (t.reg rd :: ys, u)
        | none => none
      else none
    | .fault _ => none
    | .refused _ => none

/-- `M.ENCB` on each block of a list. -/
def encbRun (rd rs1 : Reg) (s : State) (xs : List Block) : Option (List Block × State) :=
  blockRun (.mEncb rd rs1) rd rs1 s xs

/-- `M.DECB` on each block of a list. -/
def decbRun (rd rs1 : Reg) (s : State) (xs : List Block) : Option (List Block × State) :=
  blockRun (.mDecb rd rs1) rd rs1 s xs

/-- The data register an instruction writes, if any (10_state.md R36). -/
def destReg : Instr → Option Reg
  | .gfMul rd _ _ => some rd
  | .aKey _ => none
  | .aEnc rd _ => some rd
  | .aDec rd _ => some rd
  | .aRdk rd _ => some rd
  | .bKey _ => none
  | .bEnc rd _ => some rd
  | .bDec rd _ => some rd
  | .bRdk rd _ => some rd
  | .mInit _ _ _ => none
  | .mEncb rd _ => some rd
  | .mDecb rd _ => some rd
  | .mEncs => none
  | .mDecs => none
  | .mEnd => none

/-- `M.INIT`, which writes the whole mode unit (10_state.md R36). -/
def isInit (i : Instr) : Prop := ∃ mode ciph rs1, i = .mInit mode ciph rs1

/-- `M.ENCB` or `M.DECB` (10_state.md R36). -/
def isBlockStep (i : Instr) : Prop := ∃ rd rs1, i = .mEncb rd rs1 ∨ i = .mDecb rd rs1

/-- `M.ENCS` or `M.DECS`, the instructions that take the whole of `sin` (44_modes_stream.md R199). -/
def isMessage (i : Instr) : Prop := i = .mEncs ∨ i = .mDecs

/-- The modes and ciphers for which decryption undoes encryption on this hardware, `ADEC = SOURCE`
(43_modes_block.md R179, 44_modes_stream.md R201). -/
def roundTrips (mode : Mode) (c : Cipher) : Prop :=
  mode = .cfb ∨ mode = .pfb ∨ mode = .ctr ∨ (mode = .ecb ∧ c = .b)

end Sys2Proof.Machine
end

