-- ==== Sys2Proof/Certificates/Slice0/Obligations.lean ====
section
/-!
DEFINITION. Obligations.lean: the statements for the provers. Each formalises rules of spec/ named in its
docstring; the model's own conventions it rests on, if any, are named there with their log entry.
-/

open Sys2Proof Sys2Proof.Machine

/-! ## Encoding -/

/-- 30_encoding.md R71 to R74: decoding the word of a well-formed instruction gives the instruction back. -/
def Obligations.EncodeDecodeRoundTrip : Prop :=
  ∀ i : Instr, i.wellFormed = true → decode (encode i) = .ok i

/-- 30_encoding.md R73, R74, R82: an instruction has one word only, so the failing command word that `ECMD`
takes is the instruction's own word (log entry 5). -/
def Obligations.DecodedWordIsItsEncoding : Prop :=
  ∀ (w : Word) (i : Instr), decode w = .ok i → i.wellFormed = true ∧ encode i = w

/-- 30_encoding.md R73: the fifteen rows, match and mask and extra condition as printed, each with its operands
read from the fields of R71; and a word that decodes is selected by some row. -/
def Obligations.DecodeFollowsOpcodeMap : Prop :=
  ∀ w : Word,
    (w &&& 0xFF000FFF#32 = 0x10000000#32 →
      decode w = .ok (.gfMul (regAt w 20) (regAt w 16) (regAt w 12))) ∧
    (w &&& 0xFFF0FFFF#32 = 0x20000000#32 → decode w = .ok (.aKey (regAt w 16))) ∧
    (w &&& 0xFF00FFFF#32 = 0x21000000#32 → decode w = .ok (.aEnc (regAt w 20) (regAt w 16))) ∧
    (w &&& 0xFF00FFFF#32 = 0x22000000#32 → decode w = .ok (.aDec (regAt w 20) (regAt w 16))) ∧
    (w &&& 0xFF0FF0FF#32 = 0x23000000#32 → (w.extractLsb' 8 4).toNat ≤ 10 →
      decode w = .ok (.aRdk (regAt w 20) (regAt w 8))) ∧
    (w &&& 0xFFF0FFFF#32 = 0x30000000#32 → decode w = .ok (.bKey (regAt w 16))) ∧
    (w &&& 0xFF00FFFF#32 = 0x31000000#32 → decode w = .ok (.bEnc (regAt w 20) (regAt w 16))) ∧
    (w &&& 0xFF00FFFF#32 = 0x32000000#32 → decode w = .ok (.bDec (regAt w 20) (regAt w 16))) ∧
    (w &&& 0xFF0FF0FF#32 = 0x33000000#32 → decode w = .ok (.bRdk (regAt w 20) (regAt w 8))) ∧
    (w &&& 0xFFF0FF07#32 = 0x40000000#32 → ∀ (m : Mode) (c : Cipher),
      (w.extractLsb' 4 4).toNat = (modeNum m).toNat → (w.extractLsb' 3 1).toNat = (ciphNum c).toNat →
      decode w = .ok (.mInit m c (regAt w 16))) ∧
    (w &&& 0xFF00FFFF#32 = 0x41000000#32 → decode w = .ok (.mEncb (regAt w 20) (regAt w 16))) ∧
    (w &&& 0xFF00FFFF#32 = 0x42000000#32 → decode w = .ok (.mDecb (regAt w 20) (regAt w 16))) ∧
    (w = 0x43000000#32 → decode w = .ok .mEncs) ∧
    (w = 0x44000000#32 → decode w = .ok .mDecs) ∧
    (w = 0x45000000#32 → decode w = .ok .mEnd) ∧
    (∀ i, decode w = .ok i → ∃ r ∈ opcodeRows, r.selects w)

/-- 30_encoding.md R82: decoding is total, and no two rows overlap. -/
def Obligations.EveryWordSelectsOneRowOrIsIllegal : Prop :=
  ∀ w : Word,
    (∀ r ∈ opcodeRows, ∀ q ∈ opcodeRows, r.selects w → q.selects w → r = q) ∧
    ((∃ i, decode w = .ok i) ↔ ∃ r ∈ opcodeRows, r.selects w)

/-- 30_encoding.md R71 to R74 on a few words written out in 95_test_vectors.md V40 and V41. -/
def Obligations.SampleWordsDecode : Prop :=
  decode 0x10312000 = .ok (.gfMul 3 1 2) ∧
  decode 0x20090000 = .ok (.aKey 9) ∧
  decode 0x23400a00 = .ok (.aRdk 4 10) ∧
  decode 0x33400f00 = .ok (.bRdk 4 15) ∧
  decode 0x400f0048 = .ok (.mInit .ctr .b 15) ∧
  decode 0x42210000 = .ok (.mDecb 2 1) ∧
  decode 0x44000000 = .ok .mDecs ∧
  decode 0x00000000 = .error .unknownOpcode ∧
  decode 0x10312001 = .error .unusedFieldSet ∧
  decode 0x23400b00 = .error .noSuchRoundKey ∧
  decode 0x40050050 = .error .noSuchMode

/-! ## Runs, reset, host accesses -/

/-- 20_memory.md R54, 30_encoding.md R75: a write to `CMD` executes the command word in its low 32 bits, whatever
the word and the hardware; where the word decodes, that is `exec` of the instruction it decodes to. A step whose move
is that write does so, and `withFetchWord` makes a word the host's very next command (log entry 1: the host's moves
stand in State). -/
def Obligations.StepRunsDecodedCommand : Prop :=
  (∀ (v : Block) (h : Hardware), hostWrite 0x18 v h = runWord (v.setWidth 32) h) ∧
  (∀ (s : State) (v : Block) (rest : List HostMove), s.pending = .write 0x18 v :: rest →
    (∃ u, runWord (v.setWidth 32) s.toHardware = .next u ∧ step s = .next ⟨u, rest, s.observed⟩) ∧
    (∀ i, decode (v.setWidth 32) = .ok i → step s = exec i { s with pending := rest })) ∧
  (∀ (s : State) (w : Word),
    (∃ u, runWord w s.toHardware = .next u ∧ step (s.withFetchWord 32 w.toNat) = .next (s.withHardware u)) ∧
    (∀ i, decode w = .ok i → step (s.withFetchWord 32 w.toNat) = exec i s))

/-- 10_state.md R35: the reset value of every component, and what the host then reads. -/
def Obligations.ResetStateIsAllZero : Prop :=
  (∀ r : Reg, State.reset.reg r = 0) ∧
  (∀ i : Fin 11, State.reset.ark[i] = 0) ∧ State.reset.akv = false ∧
  (∀ i : Fin 16, State.reset.bsk[i] = 0) ∧ State.reset.bkv = false ∧
  modeNum State.reset.m.mode = 0 ∧ ciphNum State.reset.m.ciph = 0 ∧ State.reset.m.chain = 0 ∧
  State.reset.m.nonce = 0 ∧ State.reset.m.ctr = 0 ∧
  State.reset.mv = false ∧ State.reset.fatal = false ∧
  State.reset.err = 0 ∧ State.reset.elog = 0 ∧ State.reset.ecmd = 0 ∧
  State.reset.sin = [] ∧ State.reset.sout = [] ∧
  (∀ n : BitVec 8, hostRead n State.reset.toHardware = (0, State.reset.toHardware))

/-- 30_encoding.md R74, 60_exceptions.md R216: a word that selects no row ends with `ILLEGAL` and no other
effect, unless the core is fatal, which is checked first (R215). -/
def Obligations.WordSelectingNoRowIsIllegal : Prop :=
  ∀ (w : Word) (h : Hardware), (∀ r ∈ opcodeRows, ¬ r.selects w) →
    (h.fatal = false → runWord w h = .next { h with err := 1, elog := h.elog ||| 0x0002, ecmd := w }) ∧
    (h.fatal = true → runWord w h = .next { h with err := 9, elog := h.elog ||| 0x0200, ecmd := w })

/-- 60_exceptions.md R215, 30_encoding.md R75: while `FATAL` = 1 every word, legal or not, ends with `FATALD` and
nothing else changes. -/
def Obligations.FatalCoreRefusesEveryWord : Prop :=
  ∀ (w : Word) (h : Hardware), h.fatal = true →
    runWord w h = .next { h with err := 9, elog := h.elog ||| 0x0200, ecmd := w }

/-- 60_exceptions.md R213, 44_modes_stream.md R199: a command word that fails records its error and itself, and
changes nothing else; only `sin` is emptied, by a message instruction that fails after taking it. The codes are
R214's. -/
def Obligations.FailingCommandChangesOnlyTheErrorRecord : Prop :=
  (Err.illegal.code = 1 ∧ Err.nokey.code = 2 ∧ Err.nomode.code = 3 ∧ Err.format.code = 4 ∧
    Err.unimpl.code = 5 ∧ Err.width.code = 6 ∧ Err.locked.code = 7 ∧ Err.ctrovf.code = 8 ∧
    Err.fatald.code = 9) ∧
  ∀ (w : Word) (h u : Hardware), runWord w h = .next u → u.err ≠ 0 →
    ∃ e : Err,
      u = { h with
        err := e.code
        elog := h.elog ||| (1#16 <<< e.code.toNat)
        ecmd := w
        fatal := h.fatal || e == .width
        sin := u.sin } ∧
      ((w = 0x43000000 ∨ w = 0x44000000) ∧ (e = .unimpl ∨ e = .format ∨ e = .ctrovf) → u.sin = []) ∧
      (¬ ((w = 0x43000000 ∨ w = 0x44000000) ∧ (e = .unimpl ∨ e = .format ∨ e = .ctrovf)) → u.sin = h.sin)

/-- 60_exceptions.md R212: a command that ends with `ERR` = 0 leaves `ELOG`, `ECMD` and `FATAL` as they were; it
ran on a core that was not fatal, since a fatal core refuses every command (60_exceptions.md R215) before anything
else (30_encoding.md R75). -/
def Obligations.SuccessfulCommandKeepsTheErrorLog : Prop :=
  ∀ (i : Instr) (s t : State), exec i s = .next t → t.err = 0 →
    s.fatal = false ∧ t.fatal = false ∧ t.elog = s.elog ∧ t.ecmd = s.ecmd

/-- 70_reset_and_hazards.md R255, R240: no halt, no stuck state, no hang. Every move of the host completes, and a
step performs exactly one: a read is observed, a write happens, reset gives the reset state; with no move left
nothing changes. 00_scope.md R9, 10_state.md R20: the move is a parameter of `performMove`, which answers from the
hardware alone, and an instruction neither depends on the host's lists nor changes them. That the moves and the
observed values stand in State beside the hardware, and outlast a reset, is the model's choice (log entries 1, 2,
4). -/
def Obligations.EveryMoveCompletes : Prop :=
  (∀ s : State, ∃ t, step s = .next t ∧ t.pending = s.pending.tail ∧
    (s.pending = [] → t = s) ∧
    (∀ mv rest, s.pending = mv :: rest →
      ∃ v, performMove mv s.toHardware = .next (t.toHardware, v) ∧ t.observed = s.observed ++ v.toList) ∧
    (∀ n rest, s.pending = .read n :: rest →
      t.toHardware = (hostRead n s.toHardware).2 ∧
      t.observed = s.observed ++ [(hostRead n s.toHardware).1]) ∧
    (∀ n v rest, s.pending = .write n v :: rest →
      hostWrite n v s.toHardware = .next t.toHardware ∧ t.observed = s.observed) ∧
    (∀ rest, s.pending = .reset :: rest → t.toHardware = Hardware.reset ∧ t.observed = s.observed)) ∧
  (∀ i : Instr, ∃ f : Hardware → Hardware, ∀ s : State, exec i s = .next (s.withHardware (f s.toHardware)))

/-- 10_state.md R23, R26, 70_reset_and_hazards.md R240: nothing but reset clears `AKV`, `BKV`, `FATAL` or a bit of
`ELOG`. -/
def Obligations.FlagsAndLogAreStickyUntilReset : Prop :=
  ∀ s t : State, step s = .next t → s.pending.head? ≠ some .reset →
    (s.akv = true → t.akv = true) ∧ (s.bkv = true → t.bkv = true) ∧ (s.fatal = true → t.fatal = true) ∧
    s.elog &&& t.elog = s.elog

/-- The machine's invariant (10_state.md R25 to R27, R30, R31, 43_modes_block.md R162, R164) holds after
reset. -/
def Obligations.ResetStateMeetsInvariant : Prop := State.reset.Inv

/-- Every step keeps the invariant, from any state that meets it. The error registers agree (10_state.md R25 to
R27, 60_exceptions.md R213, R215); the key files hold schedules, unset ones 0 (10_state.md R30, R31, R35); a live
instance's cipher has a key (43_modes_block.md R164); the mode unit holds only what its mode and cipher allow:
unused registers 0 (R162), a nonce and a counter within the counter width (R165, R168, R176) and, with Cipher-B, a
stored chaining value below 2^64. That last clause is log entry 12 (DEDUCED), not the words of a rule. -/
def Obligations.StepKeepsInvariant : Prop :=
  ∀ s t : State, s.Inv → step s = .next t → t.Inv

/-- 20_memory.md R53, R55, R57 with the contents of R51 and 10_state.md R33: what each register number reads, and
what each write does. `CMD` is StepRunsDecodedCommand, `SOUT` is SoutReadPopsTheHead. -/
def Obligations.HostAccessesFollowTheRegisterMap : Prop :=
  ∀ h : Hardware,
    (∀ r : Reg, hostRead (BitVec.ofNat 8 r.val) h = (h.reg r, h)) ∧
    hostRead 0x10 h = (h.status.setWidth 128, h) ∧
    hostRead 0x11 h = (h.mcfg.setWidth 128, h) ∧
    hostRead 0x12 h = (h.m.chain, h) ∧
    hostRead 0x13 h = (h.mctr, h) ∧
    hostRead 0x14 h = (h.ecmd.setWidth 128, h) ∧
    hostRead 0x15 h = (BitVec.ofNat 128 (min h.sin.length (2 ^ 32 - 1)), h) ∧
    hostRead 0x16 h = (BitVec.ofNat 128 (min h.sout.length (2 ^ 32 - 1)), h) ∧
    hostRead 0x18 h = (0, h) ∧ hostRead 0x19 h = (0, h) ∧
    (∀ n : BitVec 8, n = 0x17 ∨ 0x1B ≤ n.toNat → hostRead n h = (0, h)) ∧
    (∀ (r : Reg) (v : Block),
      hostWrite (BitVec.ofNat 8 r.val) v h = .next { h with d := h.d.set r v }) ∧
    (∀ v : Block, hostWrite 0x19 v h = .next { h with sin := h.sin ++ [v.setWidth 8] }) ∧
    (∀ (n : BitVec 8) (v : Block),
      (0x10 ≤ n.toNat ∧ n.toNat ≤ 0x17) ∨ n = 0x1A ∨ 0x1B ≤ n.toNat → hostWrite n v h = .next h)

/-- 20_memory.md R56: reading `SOUT` removes the head of `sout` and returns it; when `sout` is empty it returns 0
and changes nothing; it is the only read that changes the hardware's state. -/
def Obligations.SoutReadPopsTheHead : Prop :=
  (∀ (h : Hardware) (b : Byte) (rest : List Byte), h.sout = b :: rest →
    hostRead 0x1A h = (b.setWidth 128, { h with sout := rest })) ∧
  (∀ h : Hardware, h.sout = [] → hostRead 0x1A h = (0, h)) ∧
  (∀ (n : BitVec 8) (h : Hardware), n ≠ 0x1A → (hostRead n h).2 = h)

/-- 10_state.md R24, R28, R29: the fields of `STATUS`, `MCFG` and `MCTR` at their bits, where the host reads them
and `MCHAIN`, and that writes to `STATUS` are ignored. -/
def Obligations.StatusAndModeRegisterLayout : Prop :=
  ∀ h : Hardware,
    h.status.getLsbD 0 = h.akv ∧ h.status.getLsbD 1 = h.bkv ∧ h.status.getLsbD 2 = h.mv ∧
    h.status.getLsbD 3 = h.fatal ∧ h.status.extractLsb' 4 4 = h.err ∧ h.status.extractLsb' 8 16 = h.elog ∧
    h.status.extractLsb' 24 8 = 0 ∧ (∀ v, hostWrite 0x10 v h = .next h) ∧
    h.mcfg.extractLsb' 0 3 = modeNum h.m.mode ∧ h.mcfg.getLsbD 3 = false ∧
    h.mcfg.extractLsb' 4 1 = ciphNum h.m.ciph ∧ h.mcfg.extractLsb' 5 27 = 0 ∧
    hostRead 0x10 h = (h.status.setWidth 128, h) ∧ hostRead 0x11 h = (h.mcfg.setWidth 128, h) ∧
    hostRead 0x12 h = (h.m.chain, h) ∧ hostRead 0x13 h = (h.mctr, h) ∧
    h.mctr.extractLsb' 64 64 = h.m.nonce ∧ h.mctr.extractLsb' 0 64 = h.m.ctr

/-! ## GF(2^8) -/

/-- 40_gf256.md R92: `GF.MUL` completes in every state that is not fatal, whatever the operands. -/
def Obligations.GfMulInstruction : Prop :=
  ∀ (rd rs1 rs2 : Reg) (s : State),
    decode (wordF3 0x10 rd rs1 rs2) = .ok (.gfMul rd rs1 rs2) ∧
    (s.fatal = true →
      exec (.gfMul rd rs1 rs2) s = .next (State.raised .fatald (wordF3 0x10 rd rs1 rs2) s)) ∧
    (s.fatal = false →
      exec (.gfMul rd rs1 rs2) s = .next { s with
        d := s.d.set rd ((gfmul ((s.reg rs1).extractLsb' 0 8) ((s.reg rs2).extractLsb' 0 8)).setWidth 128)
        err := 0 })

/-- 40_gf256.md R91: the eight iterations of R90 compute the product of the two bytes as polynomials over GF(2),
reduced modulo x^8+x^4+x^3+x+1. -/
def Obligations.GfmulIsPolynomialProduct : Prop :=
  ∀ a b : Byte, gfmul a b = polyReduce (polyMul a b)

/-- 40_gf256.md R91: the laws of the field. -/
def Obligations.GfmulFieldLaws : Prop :=
  (∀ a b : Byte, gfmul a b = gfmul b a) ∧
  (∀ a : Byte, gfmul a 0 = 0) ∧
  (∀ a : Byte, gfmul a 1 = a) ∧
  (∀ a b c : Byte, gfmul a (b ^^^ c) = gfmul a b ^^^ gfmul a c) ∧
  (∀ a b c : Byte, gfmul a (gfmul b c) = gfmul (gfmul a b) c) ∧
  (∀ a : Byte, a ≠ 0 → ∃! b : Byte, gfmul a b = 1)

/-! ## Cipher-A -/

/-- 41_cipher_a.md R101: the table is the field inverse followed by the bit-affine map, at all 256 inputs; it is a
permutation (R100), and its inverse table undoes it (R116). -/
def Obligations.SboxIsInverseThenAffine : Prop :=
  (∀ x b : Byte, (x = 0 ∧ b = 0) ∨ gfmul x b = 1 →
    sbox x = b ^^^ b.rotateLeft 1 ^^^ b.rotateLeft 2 ^^^ b.rotateLeft 3 ^^^ b.rotateLeft 4 ^^^ 0x63) ∧
  Function.Bijective sbox ∧
  (∀ x : Byte, invSbox (sbox x) = x)

/-- 41_cipher_a.md R102, R103: the round constants double, round key 0 is the key, and each next round key's four
words come from the previous one's. -/
def Obligations.AKeyScheduleRecurrence : Prop :=
  rcon = [0x00, 0x01, 0x02, 0x04, 0x08, 0x10, 0x20, 0x40, 0x80, 0x1B, 0x36] ∧
  (∀ i, 1 ≤ i → i ≤ 9 → rcon.getD (i + 1) 0 = gfmul 2 (rcon.getD i 0)) ∧
  ∀ k : Block, (aKeySched k)[0] = k ∧
    ∀ (i : Nat) (h : i < 10),
      wordOf (aKeySched k)[i + 1] 0 = wordOf (aKeySched k)[i] 0 ^^^
        (subWord ((wordOf (aKeySched k)[i] 3).rotateLeft 8) ^^^ (rcon.getD (i + 1) 0 ++ 0#24)) ∧
      wordOf (aKeySched k)[i + 1] 1 = wordOf (aKeySched k)[i] 1 ^^^ wordOf (aKeySched k)[i + 1] 0 ∧
      wordOf (aKeySched k)[i + 1] 2 = wordOf (aKeySched k)[i] 2 ^^^ wordOf (aKeySched k)[i + 1] 1 ∧
      wordOf (aKeySched k)[i + 1] 3 = wordOf (aKeySched k)[i] 3 ^^^ wordOf (aKeySched k)[i + 1] 2

/-- 41_cipher_a.md R106 to R108 byte by byte: `SubBytes`, `ShiftRows`, `MixColumns`. -/
def Obligations.RoundStepsActOnBytes : Prop :=
  ∀ s : Block,
    (∀ k, k < 16 → byteOf 16 (subBytes s) k = sbox (byteOf 16 s k)) ∧
    (∀ r c, r < 4 → c < 4 → byteOf 16 (shiftRows s) (4 * c + r) = byteOf 16 s (4 * ((c + r) % 4) + r)) ∧
    (∀ c, c < 4 →
      byteOf 16 (mixColumns s) (4 * c) =
        gfmul 2 (byteOf 16 s (4 * c)) ^^^ gfmul 3 (byteOf 16 s (4 * c + 1)) ^^^ byteOf 16 s (4 * c + 2) ^^^
          byteOf 16 s (4 * c + 3) ∧
      byteOf 16 (mixColumns s) (4 * c + 1) =
        byteOf 16 s (4 * c) ^^^ gfmul 2 (byteOf 16 s (4 * c + 1)) ^^^ gfmul 3 (byteOf 16 s (4 * c + 2)) ^^^
          byteOf 16 s (4 * c + 3) ∧
      byteOf 16 (mixColumns s) (4 * c + 2) =
        byteOf 16 s (4 * c) ^^^ byteOf 16 s (4 * c + 1) ^^^ gfmul 2 (byteOf 16 s (4 * c + 2)) ^^^
          gfmul 3 (byteOf 16 s (4 * c + 3)) ∧
      byteOf 16 (mixColumns s) (4 * c + 3) =
        gfmul 3 (byteOf 16 s (4 * c)) ^^^ byteOf 16 s (4 * c + 1) ^^^ byteOf 16 s (4 * c + 2) ^^^
          gfmul 2 (byteOf 16 s (4 * c + 3)))

/-- 41_cipher_a.md R109: the states of the ten-round network in order, and that for fixed round keys the network
is a permutation of the blocks. -/
def Obligations.AEncIsTheTenRoundNetwork : Prop :=
  ∀ rk : Vector Block 11,
    (∀ (x : Block) (st : Nat → Block), st 0 = x ^^^ rk[0] →
      (∀ (i : Nat) (h : i < 9), st (i + 1) = mixColumns (shiftRows (subBytes (st i))) ^^^ rk[i + 1]) →
      aEnc rk x = shiftRows (subBytes (st 9)) ^^^ rk[10]) ∧
    Function.Bijective (aEnc rk)

/-- 41_cipher_a.md R116: under `ADEC = INVERSE` Cipher-A's decrypt is the inverse permutation of its encrypt, for
every round-key file. The inverse network is the spec's general knowledge in R116, not in its source: log entry 7
(PRESUMED). This hardware's `ADEC` is `SOURCE`. -/
def Obligations.InverseNetworkUndoesEncrypt : Prop :=
  ∀ (rk : Vector Block 11) (x : Block),
    aDec .inverse rk (aEnc rk x) = x ∧ aEnc rk (aDec .inverse rk x) = x

/-- 41_cipher_a.md R104: `A.KEY` installs the whole schedule and sets `AKV`, unless a live instance uses
Cipher-A. -/
def Obligations.AKeyInstruction : Prop :=
  ∀ (rs1 : Reg) (s : State),
    decode (wordF1 0x20 rs1) = .ok (.aKey rs1) ∧
    (s.fatal = true → exec (.aKey rs1) s = .next (State.raised .fatald (wordF1 0x20 rs1) s)) ∧
    (s.fatal = false → s.mv = true ∧ s.m.ciph = .a →
      exec (.aKey rs1) s = .next (State.raised .locked (wordF1 0x20 rs1) s)) ∧
    (s.fatal = false → ¬ (s.mv = true ∧ s.m.ciph = .a) →
      exec (.aKey rs1) s = .next { s with ark := aKeySched (s.reg rs1), akv := true, err := 0 })

/-- 41_cipher_a.md R110: `A.ENC`. -/
def Obligations.AEncInstruction : Prop :=
  ∀ (rd rs1 : Reg) (s : State),
    decode (wordF2 0x21 rd rs1) = .ok (.aEnc rd rs1) ∧
    (s.fatal = true → exec (.aEnc rd rs1) s = .next (State.raised .fatald (wordF2 0x21 rd rs1) s)) ∧
    (s.fatal = false → s.akv = false →
      exec (.aEnc rd rs1) s = .next (State.raised .nokey (wordF2 0x21 rd rs1) s)) ∧
    (s.fatal = false → s.akv = true →
      exec (.aEnc rd rs1) s = .next { s with d := s.d.set rd (aEnc s.ark (s.reg rs1)), err := 0 })

/-- 41_cipher_a.md R115, R117: `A.DEC`, which on this hardware computes the encrypt network. -/
def Obligations.ADecInstruction : Prop :=
  ∀ (rd rs1 : Reg) (s : State),
    decode (wordF2 0x22 rd rs1) = .ok (.aDec rd rs1) ∧
    (s.fatal = true → exec (.aDec rd rs1) s = .next (State.raised .fatald (wordF2 0x22 rd rs1) s)) ∧
    (s.fatal = false → s.akv = false →
      exec (.aDec rd rs1) s = .next (State.raised .nokey (wordF2 0x22 rd rs1) s)) ∧
    (s.fatal = false → s.akv = true →
      exec (.aDec rd rs1) s = .next { s with d := s.d.set rd (aEnc s.ark (s.reg rs1)), err := 0 })

/-- 41_cipher_a.md R118: `A.RDK`, for the eleven indices that are encodings. -/
def Obligations.ARdkInstruction : Prop :=
  ∀ (rd : Reg) (idx : Fin 16) (s : State),
    (10 < idx.val → decode (wordFK 0x23 rd idx) = .error .noSuchRoundKey) ∧
    (∀ h : idx.val < 11,
      decode (wordFK 0x23 rd idx) = .ok (.aRdk rd idx) ∧
      (s.fatal = true → exec (.aRdk rd idx) s = .next (State.raised .fatald (wordFK 0x23 rd idx) s)) ∧
      (s.fatal = false → s.akv = false →
        exec (.aRdk rd idx) s = .next (State.raised .nokey (wordFK 0x23 rd idx) s)) ∧
      (s.fatal = false → s.akv = true →
        exec (.aRdk rd idx) s = .next { s with d := s.d.set rd s.ark[idx.val], err := 0 }))

/-! ## Cipher-B -/

/-- 00_scope.md R12: position `j` of the result is the input bit at position `T[j]`, position 1 being the most
significant bit. -/
def Obligations.PermPicksTablePositions : Prop :=
  ∀ (w m : Nat) (v : BitVec w) (table : List Nat), table.length = m →
    (∀ p ∈ table, 1 ≤ p ∧ p ≤ w) →
    ∀ (j : Nat) (h : j < table.length), (perm v table m).getLsbD (m - (j + 1)) = v.getLsbD (w - table[j])

/-- 42_cipher_b.md R134: `FP` undoes `IP` on every 64-bit value. -/
def Obligations.FpUndoesIp : Prop :=
  ∀ v : Block64, perm (perm v ipTable 64) fpTable 64 = v

/-- 42_cipher_b.md R140: subkey `i` is `PC2` of the halves of `PC1(k)` rotated left by all the shifts of rounds 0
to `i` together. -/
def Obligations.BKeyScheduleRounds : Prop :=
  ∀ (k : Block64) (i : Nat) (h : i < 16),
    (bKeySched k)[i] =
      perm
        (((perm k pc1Table 56).extractLsb' 28 28).rotateLeft (shiftTable.take (i + 1)).sum ++
          ((perm k pc1Table 56).extractLsb' 0 28).rotateLeft (shiftTable.take (i + 1)).sum)
        pc2Table 48

/-- 42_cipher_b.md R140, R151 (a): the least significant bit of each key byte has no influence on the
schedule. -/
def Obligations.KeyParityHasNoInfluence : Prop :=
  ∀ k k' : Block64, (∀ i, i < 64 → i % 8 ≠ 0 → k.getLsbD i = k'.getLsbD i) → bKeySched k = bKeySched k'

/-- 42_cipher_b.md R142: the round function, the eight chunks through the eight boxes written out. -/
def Obligations.BRoundFunctionBoxes : Prop :=
  ∀ (r : Word) (k : Subkey) (x : Subkey) (o : Nat → BitVec 4), x = perm r eTable 48 ^^^ k →
    (∀ j, j < 8 →
      o j = BitVec.ofNat 4
        (((sBoxes.getD j []).getD
            ((x.getLsbD (47 - 6 * j)).toNat * 2 + (x.getLsbD (42 - 6 * j)).toNat) []).getD
          (x.extractLsb' (43 - 6 * j) 4).toNat 0)) →
    bRoundFn r k = perm (o 0 ++ o 1 ++ o 2 ++ o 3 ++ o 4 ++ o 5 ++ o 6 ++ o 7) pTable 32

/-- 42_cipher_b.md R146, R147: the halves round by round, with the subkeys forward for encrypt and in reverse for
decrypt, swapped at the end. -/
def Obligations.BNetworkRounds : Prop :=
  ∀ (sk : Vector Subkey 16) (x : Block64) (L R : Nat → Word),
    L 0 = (perm x ipTable 64).extractLsb' 32 32 → R 0 = (perm x ipTable 64).extractLsb' 0 32 →
    ((∀ (i : Nat) (h : i < 16), L (i + 1) = R i ∧ R (i + 1) = L i ^^^ bRoundFn (R i) sk[i]) →
      bEnc sk x = perm (R 16 ++ L 16) fpTable 64) ∧
    ((∀ (i : Nat) (h : i < 16), L (i + 1) = R i ∧ R (i + 1) = L i ^^^ bRoundFn (R i) sk[15 - i]) →
      bDec sk x = perm (R 16 ++ L 16) fpTable 64)

/-- 42_cipher_b.md R147, R151 (b): decrypt is the true inverse of encrypt, for any sixteen subkeys and any
block, in both orders. -/
def Obligations.BDecInvertsBEnc : Prop :=
  ∀ (sk : Vector Subkey 16) (x : Block64), bDec sk (bEnc sk x) = x ∧ bEnc sk (bDec sk x) = x

/-- 42_cipher_b.md R141: `B.KEY`, `LOCKED` before `WIDTH`; the width error sets `FATAL`. -/
def Obligations.BKeyInstruction : Prop :=
  ∀ (rs1 : Reg) (s : State),
    decode (wordF1 0x30 rs1) = .ok (.bKey rs1) ∧
    (s.fatal = true → exec (.bKey rs1) s = .next (State.raised .fatald (wordF1 0x30 rs1) s)) ∧
    (s.fatal = false → s.mv = true ∧ s.m.ciph = .b →
      exec (.bKey rs1) s = .next (State.raised .locked (wordF1 0x30 rs1) s)) ∧
    (s.fatal = false → ¬ (s.mv = true ∧ s.m.ciph = .b) → (s.reg rs1).extractLsb' 64 64 ≠ 0 →
      exec (.bKey rs1) s = .next (State.raised .width (wordF1 0x30 rs1) s) ∧
        (State.raised .width (wordF1 0x30 rs1) s).fatal = true) ∧
    (s.fatal = false → ¬ (s.mv = true ∧ s.m.ciph = .b) → (s.reg rs1).extractLsb' 64 64 = 0 →
      exec (.bKey rs1) s = .next
        { s with bsk := bKeySched ((s.reg rs1).extractLsb' 0 64), bkv := true, err := 0 })

/-- 42_cipher_b.md R148: `B.ENC`, which ignores the upper half of its operand and clears that of its result. -/
def Obligations.BEncInstruction : Prop :=
  ∀ (rd rs1 : Reg) (s : State),
    decode (wordF2 0x31 rd rs1) = .ok (.bEnc rd rs1) ∧
    (s.fatal = true → exec (.bEnc rd rs1) s = .next (State.raised .fatald (wordF2 0x31 rd rs1) s)) ∧
    (s.fatal = false → s.bkv = false →
      exec (.bEnc rd rs1) s = .next (State.raised .nokey (wordF2 0x31 rd rs1) s)) ∧
    (s.fatal = false → s.bkv = true →
      exec (.bEnc rd rs1) s = .next { s with
        d := s.d.set rd ((bEnc s.bsk ((s.reg rs1).extractLsb' 0 64)).setWidth 128)
        err := 0 })

/-- 42_cipher_b.md R149: `B.DEC`. -/
def Obligations.BDecInstruction : Prop :=
  ∀ (rd rs1 : Reg) (s : State),
    decode (wordF2 0x32 rd rs1) = .ok (.bDec rd rs1) ∧
    (s.fatal = true → exec (.bDec rd rs1) s = .next (State.raised .fatald (wordF2 0x32 rd rs1) s)) ∧
    (s.fatal = false → s.bkv = false →
      exec (.bDec rd rs1) s = .next (State.raised .nokey (wordF2 0x32 rd rs1) s)) ∧
    (s.fatal = false → s.bkv = true →
      exec (.bDec rd rs1) s = .next { s with
        d := s.d.set rd ((bDec s.bsk ((s.reg rs1).extractLsb' 0 64)).setWidth 128)
        err := 0 })

/-- 42_cipher_b.md R150: `B.RDK`, all sixteen indices valid. -/
def Obligations.BRdkInstruction : Prop :=
  ∀ (rd : Reg) (idx : Fin 16) (s : State),
    decode (wordFK 0x33 rd idx) = .ok (.bRdk rd idx) ∧
    (s.fatal = true → exec (.bRdk rd idx) s = .next (State.raised .fatald (wordFK 0x33 rd idx) s)) ∧
    (s.fatal = false → s.bkv = false →
      exec (.bRdk rd idx) s = .next (State.raised .nokey (wordFK 0x33 rd idx) s)) ∧
    (s.fatal = false → s.bkv = true →
      exec (.bRdk rd idx) s = .next { s with d := s.d.set rd (s.bsk[idx].setWidth 128), err := 0 })

/-! ## The mode unit, block level -/

/-- 43_modes_block.md R165: `M.INIT` in every mode with either cipher, `NOKEY` before `WIDTH`. -/
def Obligations.MInitInstruction : Prop :=
  ∀ (mode : Mode) (c : Cipher) (rs1 : Reg) (s : State) (w : Word),
    w = wordFM 0x40 (modeNum mode).toNat (ciphNum c).toNat rs1 →
    decode w = .ok (.mInit mode c rs1) ∧
    (s.fatal = true → exec (.mInit mode c rs1) s = .next (State.raised .fatald w s)) ∧
    (s.fatal = false → (c = .a ∧ s.akv = false) ∨ (c = .b ∧ s.bkv = false) →
      exec (.mInit mode c rs1) s = .next (State.raised .nokey w s)) ∧
    (s.fatal = false → (c = .a → s.akv = true) → (c = .b → s.bkv = true) →
      (mode = .ecb →
        exec (.mInit mode c rs1) s = .next { s with m := ⟨.ecb, c, 0, 0, 0⟩, mv := true, err := 0 }) ∧
      (mode = .cfi ∨ mode = .cfb ∨ mode = .pfb → c = .a →
        exec (.mInit mode c rs1) s = .next { s with m := ⟨mode, .a, s.reg rs1, 0, 0⟩, mv := true, err := 0 }) ∧
      (mode = .cfi ∨ mode = .cfb ∨ mode = .pfb → c = .b → (s.reg rs1).extractLsb' 64 64 ≠ 0 →
        exec (.mInit mode c rs1) s = .next (State.raised .width w s)) ∧
      (mode = .cfi ∨ mode = .cfb ∨ mode = .pfb → c = .b → (s.reg rs1).extractLsb' 64 64 = 0 →
        exec (.mInit mode c rs1) s = .next
          { s with m := ⟨mode, .b, ((s.reg rs1).extractLsb' 0 64).setWidth 128, 0, 0⟩, mv := true, err := 0 }) ∧
      (mode = .ctr → c = .a → (s.reg rs1).extractLsb' 64 64 ≠ 0 →
        exec (.mInit mode c rs1) s = .next (State.raised .width w s)) ∧
      (mode = .ctr → c = .a → (s.reg rs1).extractLsb' 64 64 = 0 →
        exec (.mInit mode c rs1) s = .next
          { s with m := ⟨.ctr, .a, 0, (s.reg rs1).extractLsb' 0 64, 0⟩, mv := true, err := 0 }) ∧
      (mode = .ctr → c = .b → (s.reg rs1).extractLsb' 32 96 ≠ 0 →
        exec (.mInit mode c rs1) s = .next (State.raised .width w s)) ∧
      (mode = .ctr → c = .b → (s.reg rs1).extractLsb' 32 96 = 0 →
        exec (.mInit mode c rs1) s = .next
          { s with m := ⟨.ctr, .b, 0, ((s.reg rs1).extractLsb' 0 32).setWidth 64, 0⟩, mv := true, err := 0 }))

/-- 43_modes_block.md R172 to R176: the step of every mode in each direction, with Cipher-A on 128-bit values and
with Cipher-B on 64-bit values (R163), `ADEC = SOURCE`. That with Cipher-B the modes `cfi`, `cfb` and `pfb` store
`M.chain` zero-extended to 128 bits is log entry 12 (DEDUCED), not the words of R173 to R175. -/
def Obligations.ModeStepRules : Prop :=
  ∀ (s : State) (m : ModeUnit),
    (m.ciph = .a → ∀ x : Block,
      (m.mode = .ecb → s.encStep m x = .ok (aEnc s.ark x, m) ∧ s.decStep m x = .ok (aEnc s.ark x, m)) ∧
      (m.mode = .cfi →
        s.encStep m x = .ok (aEnc s.ark (x ^^^ m.chain), { m with chain := aEnc s.ark (x ^^^ m.chain) }) ∧
        s.decStep m x = .error .unimpl) ∧
      (m.mode = .cfb →
        s.encStep m x = .ok (aEnc s.ark m.chain ^^^ x, { m with chain := aEnc s.ark m.chain ^^^ x }) ∧
        s.decStep m x = .ok (aEnc s.ark m.chain ^^^ x, { m with chain := x })) ∧
      (m.mode = .pfb →
        s.encStep m x = .ok (aEnc s.ark m.chain ^^^ x, { m with chain := x }) ∧
        s.decStep m x = .ok (aEnc s.ark m.chain ^^^ x, { m with chain := aEnc s.ark m.chain ^^^ x })) ∧
      (m.mode = .ctr →
        s.decStep m x = s.encStep m x ∧
        (m.ctr.toNat = 2 ^ 64 - 1 → s.encStep m x = .error .ctrovf) ∧
        (m.ctr.toNat ≠ 2 ^ 64 - 1 →
          s.encStep m x = .ok (x ^^^ aEnc s.ark (m.nonce ++ m.ctr), { m with ctr := m.ctr + 1 })))) ∧
    (m.ciph = .b → ∀ x : Block64,
      (m.mode = .ecb →
        s.encStep m (x.setWidth 128) = .ok ((bEnc s.bsk x).setWidth 128, m) ∧
        s.decStep m (x.setWidth 128) = .ok ((bDec s.bsk x).setWidth 128, m)) ∧
      (m.mode = .cfi →
        s.encStep m (x.setWidth 128) =
          .ok ((bEnc s.bsk (x ^^^ m.chain.extractLsb' 0 64)).setWidth 128,
            { m with chain := (bEnc s.bsk (x ^^^ m.chain.extractLsb' 0 64)).setWidth 128 }) ∧
        s.decStep m (x.setWidth 128) = .error .unimpl) ∧
      (m.mode = .cfb →
        s.encStep m (x.setWidth 128) =
          .ok ((bEnc s.bsk (m.chain.extractLsb' 0 64) ^^^ x).setWidth 128,
            { m with chain := (bEnc s.bsk (m.chain.extractLsb' 0 64) ^^^ x).setWidth 128 }) ∧
        s.decStep m (x.setWidth 128) =
          .ok ((bEnc s.bsk (m.chain.extractLsb' 0 64) ^^^ x).setWidth 128,
            { m with chain := x.setWidth 128 })) ∧
      (m.mode = .pfb →
        s.encStep m (x.setWidth 128) =
          .ok ((bEnc s.bsk (m.chain.extractLsb' 0 64) ^^^ x).setWidth 128,
            { m with chain := x.setWidth 128 }) ∧
        s.decStep m (x.setWidth 128) =
          .ok ((bEnc s.bsk (m.chain.extractLsb' 0 64) ^^^ x).setWidth 128,
            { m with chain := (bEnc s.bsk (m.chain.extractLsb' 0 64) ^^^ x).setWidth 128 })) ∧
      (m.mode = .ctr →
        s.decStep m (x.setWidth 128) = s.encStep m (x.setWidth 128) ∧
        ((m.ctr.extractLsb' 0 32).toNat = 2 ^ 32 - 1 → s.encStep m (x.setWidth 128) = .error .ctrovf) ∧
        ((m.ctr.extractLsb' 0 32).toNat ≠ 2 ^ 32 - 1 →
          s.encStep m (x.setWidth 128) =
            .ok ((x ^^^ bEnc s.bsk (m.nonce.extractLsb' 0 32 ++ m.ctr.extractLsb' 0 32)).setWidth 128,
              { m with ctr := m.ctr + 1 }))))

/-- 43_modes_block.md R170: `M.ENCB` fails only with `NOMODE`, or with `CTROVF` in mode `ctr` at the last counter
value; otherwise it completes with the step of ModeStepRules. -/
def Obligations.MEncbInstruction : Prop :=
  ∀ (rd rs1 : Reg) (s : State) (w : Word), w = wordF2 0x41 rd rs1 →
    decode w = .ok (.mEncb rd rs1) ∧
    (s.fatal = true → exec (.mEncb rd rs1) s = .next (State.raised .fatald w s)) ∧
    (s.fatal = false → s.mv = false → exec (.mEncb rd rs1) s = .next (State.raised .nomode w s)) ∧
    (s.fatal = false → s.mv = true →
      s.m.mode = .ctr ∧ s.m.ctr.toNat % 2 ^ Config.cw s.m.ciph = 2 ^ Config.cw s.m.ciph - 1 →
      exec (.mEncb rd rs1) s = .next (State.raised .ctrovf w s)) ∧
    (s.fatal = false → s.mv = true →
      ¬ (s.m.mode = .ctr ∧ s.m.ctr.toNat % 2 ^ Config.cw s.m.ciph = 2 ^ Config.cw s.m.ciph - 1) →
      ∃ y m', s.encStep s.m (((s.reg rs1).setWidth (Config.bw s.m.ciph)).setWidth 128) = .ok (y, m') ∧
        exec (.mEncb rd rs1) s = .next { s with d := s.d.set rd y, m := m', err := 0 })

/-- 43_modes_block.md R171: `M.DECB` fails with `NOMODE`, `UNIMPL` in mode `cfi`, `CTROVF` in mode `ctr` at the
last counter value; otherwise it completes. -/
def Obligations.MDecbInstruction : Prop :=
  ∀ (rd rs1 : Reg) (s : State) (w : Word), w = wordF2 0x42 rd rs1 →
    decode w = .ok (.mDecb rd rs1) ∧
    (s.fatal = true → exec (.mDecb rd rs1) s = .next (State.raised .fatald w s)) ∧
    (s.fatal = false → s.mv = false → exec (.mDecb rd rs1) s = .next (State.raised .nomode w s)) ∧
    (s.fatal = false → s.mv = true → s.m.mode = .cfi →
      exec (.mDecb rd rs1) s = .next (State.raised .unimpl w s)) ∧
    (s.fatal = false → s.mv = true →
      s.m.mode = .ctr ∧ s.m.ctr.toNat % 2 ^ Config.cw s.m.ciph = 2 ^ Config.cw s.m.ciph - 1 →
      exec (.mDecb rd rs1) s = .next (State.raised .ctrovf w s)) ∧
    (s.fatal = false → s.mv = true → s.m.mode ≠ .cfi →
      ¬ (s.m.mode = .ctr ∧ s.m.ctr.toNat % 2 ^ Config.cw s.m.ciph = 2 ^ Config.cw s.m.ciph - 1) →
      ∃ y m', s.decStep s.m (((s.reg rs1).setWidth (Config.bw s.m.ciph)).setWidth 128) = .ok (y, m') ∧
        exec (.mDecb rd rs1) s = .next { s with d := s.d.set rd y, m := m', err := 0 })

/-- 43_modes_block.md R178: `M.END` clears `MV` alone, whether or not an instance is live; afterwards no
instruction can use the instance: block and message commands end with `NOMODE`. -/
def Obligations.MEndInstruction : Prop :=
  ∀ s : State,
    decode 0x45000000 = .ok .mEnd ∧
    (s.fatal = true → exec .mEnd s = .next (State.raised .fatald 0x45000000 s)) ∧
    (s.fatal = false → exec .mEnd s = .next { s with mv := false, err := 0 }) ∧
    (s.fatal = false → ∀ rd rs1 : Reg,
      exec (.mEncb rd rs1) { s with mv := false, err := 0 } =
        .next (State.raised .nomode (wordF2 0x41 rd rs1) { s with mv := false, err := 0 }) ∧
      exec (.mDecb rd rs1) { s with mv := false, err := 0 } =
        .next (State.raised .nomode (wordF2 0x42 rd rs1) { s with mv := false, err := 0 }) ∧
      exec .mEncs { s with mv := false, err := 0 } =
        .next (State.raised .nomode 0x43000000 { s with mv := false, err := 0 }) ∧
      exec .mDecs { s with mv := false, err := 0 } =
        .next (State.raised .nomode 0x44000000 { s with mv := false, err := 0 }))

/-! ## The mode unit, message level -/

/-- 44_modes_stream.md R191: `M.ENCS`: `NOMODE` with `sin` kept, `CTROVF` with `sin` emptied, otherwise the whole
message is processed, its hex string appended to `sout`, and the instance ended. -/
def Obligations.MEncsInstruction : Prop :=
  ∀ (s : State) (nb : Nat), nb = (s.sin.length + Config.bwB s.m.ciph - 1) / Config.bwB s.m.ciph →
    decode 0x43000000 = .ok .mEncs ∧
    (s.fatal = true → exec .mEncs s = .next (State.raised .fatald 0x43000000 s)) ∧
    (s.fatal = false → s.mv = false → exec .mEncs s = .next (State.raised .nomode 0x43000000 s)) ∧
    (s.fatal = false → s.mv = true → s.m.mode = .ctr ∧ s.m.ctr.toNat + nb > 2 ^ Config.cw s.m.ciph - 1 →
      exec .mEncs s = .next (State.raised .ctrovf 0x43000000 { s with sin := [] })) ∧
    (s.fatal = false → s.mv = true → ¬ (s.m.mode = .ctr ∧ s.m.ctr.toNat + nb > 2 ^ Config.cw s.m.ciph - 1) →
      ∃ ys m',
        runBlocks s.encStep s.m
          ((chunks (Config.pad s.m.mode) (Config.bwB s.m.ciph) s.sin).map fromBytes) = .ok (ys, m') ∧
        ys.length = nb ∧
        exec .mEncs s = .next { s with
          sin := []
          sout := s.sout ++ ys.flatMap fun y => hexenc y (Config.bwB s.m.ciph)
          m := m'
          mv := false
          err := 0 })

/-- 44_modes_stream.md R197: `M.DECS`: `NOMODE` with `sin` kept; then, with `sin` emptied, `UNIMPL`, `FORMAT` for
the length, `FORMAT` for a character, `CTROVF`, in that order; otherwise the whole message is processed, its
bytes without the trailing zero run appended to `sout`, and the instance ended. -/
def Obligations.MDecsInstruction : Prop :=
  ∀ (s : State) (nb : Nat), nb = s.sin.length / Config.hw s.m.ciph →
    decode 0x44000000 = .ok .mDecs ∧
    (s.fatal = true → exec .mDecs s = .next (State.raised .fatald 0x44000000 s)) ∧
    (s.fatal = false → s.mv = false → exec .mDecs s = .next (State.raised .nomode 0x44000000 s)) ∧
    (s.fatal = false → s.mv = true → s.m.mode = .cfi →
      exec .mDecs s = .next (State.raised .unimpl 0x44000000 { s with sin := [] })) ∧
    (s.fatal = false → s.mv = true → s.m.mode ≠ .cfi →
      s.sin.length % Config.hw s.m.ciph ≠ 0 ∨ (∃ ch ∈ s.sin, hexValue ch = none) →
      exec .mDecs s = .next (State.raised .format 0x44000000 { s with sin := [] })) ∧
    (s.fatal = false → s.mv = true → s.m.mode ≠ .cfi → s.sin.length % Config.hw s.m.ciph = 0 →
      (∀ ch ∈ s.sin, hexValue ch ≠ none) →
      s.m.mode = .ctr ∧ s.m.ctr.toNat + nb > 2 ^ Config.cw s.m.ciph - 1 →
      exec .mDecs s = .next (State.raised .ctrovf 0x44000000 { s with sin := [] })) ∧
    (s.fatal = false → s.mv = true → s.m.mode ≠ .cfi → s.sin.length % Config.hw s.m.ciph = 0 →
      (∀ ch ∈ s.sin, hexValue ch ≠ none) →
      ¬ (s.m.mode = .ctr ∧ s.m.ctr.toNat + nb > 2 ^ Config.cw s.m.ciph - 1) →
      ∃ ns ys m', parseHex s.sin = some ns ∧
        runBlocks s.decStep s.m (hexBlocks (Config.hw s.m.ciph) ns) = .ok (ys, m') ∧
        ys.length = nb ∧
        exec .mDecs s = .next { s with
          sin := []
          sout := s.sout ++ strip0 (ys.flatMap fun y => toBytes (Config.bwB s.m.ciph) y)
          m := m'
          mv := false
          err := 0 })

/-- 44_modes_stream.md R192: the chunks are whole blocks, as many as `ceil(len / bwB)`, and together they are the
message followed by fewer than a block of padding bytes; the padding byte of every mode is 0x00. R193: a block is 16
bytes or 32 hex digits with Cipher-A, 8 or 16 with Cipher-B; its bytes are big-endian (20_memory.md R59): byte `k` of
an `n`-byte value is its bits 8(n-k)-1 : 8(n-1-k), and `frombytes` is the inverse of `bytes_n` (00_scope.md R11). -/
def Obligations.ChunksAreThePaddedMessage : Prop :=
  (∀ mode, Config.pad mode = 0x00) ∧
  (∀ (pad : Byte) (bwB : Nat) (msg : List Byte), 0 < bwB →
    (chunks pad bwB msg).length = (msg.length + bwB - 1) / bwB ∧
    (∀ c ∈ chunks pad bwB msg, c.length = bwB) ∧
    ∃ p, p < bwB ∧ (chunks pad bwB msg).flatten = msg ++ List.replicate p pad) ∧
  (Config.bwB .a = 16 ∧ Config.hw .a = 32 ∧ Config.bwB .b = 8 ∧ Config.hw .b = 16) ∧
  (∀ (n : Nat) (L : List Byte), n = 8 ∨ n = 16 → L.length = n →
    (∀ (k : Nat) (hk : k < L.length), (fromBytes L).extractLsb' (8 * (n - 1 - k)) 8 = L[k]) ∧
    (fromBytes L).toNat < 2 ^ (8 * n) ∧
    toBytes n (fromBytes L) = L) ∧
  (∀ (n : Nat) (v : Block), n = 8 ∨ n = 16 →
    (toBytes n v).length = n ∧
    ∀ k, k < n → (toBytes n v)[k]? = some (v.extractLsb' (8 * (n - 1 - k)) 8))

/-- 44_modes_stream.md R194: `hexenc` writes each byte from byte 0 on as two characters of the alphabet
`0123456789abcdef`, the high nibble first, so a block is exactly `hw` characters; R196: a byte is a hex digit
exactly when it is one of that alphabet, and `hexdec` undoes `hexenc`. -/
def Obligations.HexdecUndoesHexenc : Prop :=
  (List.range 16).map (fun k => hexDigit (BitVec.ofNat 4 k)) =
    [0x30, 0x31, 0x32, 0x33, 0x34, 0x35, 0x36, 0x37, 0x38, 0x39, 0x61, 0x62, 0x63, 0x64, 0x65, 0x66] ∧
  (∀ (v : Block) (n k : Nat), k < n →
    (hexenc v n)[2 * k]? = some (hexDigit ((byteOf n v k).extractLsb' 4 4)) ∧
    (hexenc v n)[2 * k + 1]? = some (hexDigit ((byteOf n v k).extractLsb' 0 4))) ∧
  (∀ (v : Block) (n : Nat), (hexenc v n).length = 2 * n) ∧
  (∀ ch : Byte, hexValue ch ≠ none ↔
    (0x30 ≤ ch.toNat ∧ ch.toNat ≤ 0x39) ∨ (0x61 ≤ ch.toNat ∧ ch.toNat ≤ 0x66)) ∧
  ∀ (c : Cipher) (ys : List Block),
    (ys.flatMap fun y => hexenc y (Config.bwB c)).length = Config.hw c * ys.length ∧
    ∃ ns, parseHex (ys.flatMap fun y => hexenc y (Config.bwB c)) = some ns ∧
      hexBlocks (Config.hw c) ns = ys.map fun y => (y.setWidth (Config.bw c)).setWidth 128

/-- 44_modes_stream.md R198: `strip0` removes the entire trailing run of zero bytes and nothing else. -/
def Obligations.Strip0DropsTheTrailingZeroRun : Prop :=
  ∀ bs : List Byte,
    (∃ n, bs = strip0 bs ++ List.replicate n 0) ∧ (strip0 bs).getLast? ≠ some 0

/-- 44_modes_stream.md R202: how much a successful message instruction appends to `sout`. -/
def Obligations.MessageOutputLengths : Prop :=
  ∀ s t : State,
    (exec .mEncs s = .next t → t.err = 0 →
      ∃ out, t.sout = s.sout ++ out ∧
        out.length = Config.hw s.m.ciph * ((s.sin.length + Config.bwB s.m.ciph - 1) / Config.bwB s.m.ciph)) ∧
    (exec .mDecs s = .next t → t.err = 0 →
      ∃ out, t.sout = s.sout ++ out ∧
        out.length ≤ Config.bwB s.m.ciph * (s.sin.length / Config.hw s.m.ciph))

/-- 44_modes_stream.md R200: a successful message instruction leaves in the mode unit what the block instruction
leaves on the same blocks in order, and its output is made of that sequence's results. -/
def Obligations.MessageIsTheSequenceOfItsBlocks : Prop :=
  ∀ (rd rs1 : Reg) (s t : State),
    (exec .mEncs s = .next t → t.err = 0 →
      ∃ ys u,
        encbRun rd rs1 s ((chunks (Config.pad s.m.mode) (Config.bwB s.m.ciph) s.sin).map fromBytes) =
          some (ys, u) ∧
        u.m = t.m ∧ t.sout = s.sout ++ ys.flatMap fun y => hexenc y (Config.bwB s.m.ciph)) ∧
    (exec .mDecs s = .next t → t.err = 0 →
      ∃ ns ys u, parseHex s.sin = some ns ∧
        decbRun rd rs1 s (hexBlocks (Config.hw s.m.ciph) ns) = some (ys, u) ∧
        u.m = t.m ∧ t.sout = s.sout ++ strip0 (ys.flatMap fun y => toBytes (Config.bwB s.m.ciph) y))

/-- 43_modes_block.md R179: the block-level round trip. Two runs with the same round keys and the same `M.INIT` on
the same IV: deciphering what the first run enciphered gives the blocks back (their low `bw` bits) in the modes
that round-trip; twice enciphered blocks in `ecb` over Cipher-A; and in `cfi` `UNIMPL` at the first block, whatever
it is. -/
def Obligations.BlockLevelRoundTrip : Prop :=
  ∀ (mode : Mode) (c : Cipher) (rs rd rs1 : Reg) (s s' s₁ s₁' u : State) (xs ys : List Block),
    s'.ark = s.ark → s'.bsk = s.bsk → s'.reg rs = s.reg rs →
    exec (.mInit mode c rs) s = .next s₁ → s₁.err = 0 →
    exec (.mInit mode c rs) s' = .next s₁' → s₁'.err = 0 →
    encbRun rd rs1 s₁ xs = some (ys, u) →
    (roundTrips mode c →
      ∃ u', decbRun rd rs1 s₁' ys = some (xs.map fun x => (x.setWidth (Config.bw c)).setWidth 128, u')) ∧
    (mode = .ecb → c = .a →
      ∃ u', decbRun rd rs1 s₁' ys = some (xs.map fun x => aEnc s.ark (aEnc s.ark x), u')) ∧
    (mode = .cfi → xs ≠ [] →
      decbRun rd rs1 s₁' ys = none ∧
      ∀ y, exec (.mDecb rd rs1) (s₁'.setReg rs1 y) =
        .next (State.raised .unimpl (wordF2 0x42 rd rs1) (s₁'.setReg rs1 y)))

/-- 44_modes_stream.md R201: the message round trip. From a state with the cipher keyed, an IV that fits and `sout`
empty: `M.INIT`, the message into `sin`, `M.ENCS`, `sout` moved to `sin`, the same `M.INIT`, `M.DECS`. Every
command succeeds, and `sout` ends as the message without its trailing zero run; so as the message itself when it
is empty or does not end in a zero byte. -/
def Obligations.MessageRoundTrip : Prop :=
  ∀ (mode : Mode) (c : Cipher) (rs : Reg) (s : State) (P : List Byte),
    roundTrips mode c → s.fatal = false → s.sout = [] → s.keyValid c = true →
    ivTooWide mode c (s.reg rs) = false →
    (mode = .ctr → (P.length + Config.bwB c - 1) / Config.bwB c ≤ 2 ^ Config.cw c - 1) →
    ∃ s₁ s₂ s₃ s₄ : State,
      exec (.mInit mode c rs) s = .next s₁ ∧ s₁.err = 0 ∧
      exec .mEncs { s₁ with sin := P } = .next s₂ ∧ s₂.err = 0 ∧
      exec (.mInit mode c rs) { s₂ with sin := s₂.sout, sout := [] } = .next s₃ ∧ s₃.err = 0 ∧
      exec .mDecs s₃ = .next s₄ ∧ s₄.err = 0 ∧
      s₄.sout = strip0 P ∧
      (P = [] ∨ P.getLast? ≠ some 0 → s₄.sout = P)

/-- 44_modes_stream.md R203: closed forms of `M.ENCS` in the two modes without chaining. In `ecb` output block `i`
is `E` of input block `i`; in `ctr`, with the counter at `k`, it is the input block XORed with `E` of the
counter block of `k + i`. -/
def Obligations.ParallelClosedForms : Prop :=
  ∀ s t : State, exec .mEncs s = .next t → t.err = 0 →
    (s.m.mode = .ecb →
      t.sout = s.sout ++
        ((chunks 0 (Config.bwB s.m.ciph) s.sin).map fun ch => s.cipherEnc s.m.ciph (fromBytes ch)).flatMap
          fun y => hexenc y (Config.bwB s.m.ciph)) ∧
    (s.m.mode = .ctr →
      t.sout = s.sout ++
        ((chunks 0 (Config.bwB s.m.ciph) s.sin).zipIdx.map fun (ch, i) =>
          fromBytes ch ^^^
            s.cipherEnc s.m.ciph
              ((s.m.nonce.setWidth (Config.cw s.m.ciph) ++
                (s.m.ctr + BitVec.ofNat 64 i).setWidth (Config.cw s.m.ciph)).setWidth 128)).flatMap
          fun y => hexenc y (Config.bwB s.m.ciph))

/-! ## Rules about the whole machine -/

/-- 10_state.md R30, R31, 41_cipher_a.md R119, 42_cipher_b.md R151 (c), 43_modes_block.md R164: no move but a
successful `A.KEY` (`B.KEY`) or reset changes Cipher-A's (Cipher-B's) round keys, and while an instance is live
the keys of its cipher do not change: a stream sees one key. -/
def Obligations.RoundKeysChangeOnlyByKeyCommands : Prop :=
  ∀ s t : State, step s = .next t → s.pending.head? ≠ some .reset →
    (t.ark ≠ s.ark → ∃ v rs1, s.pending.head? = some (.write 0x18 v) ∧
      decode (v.setWidth 32) = .ok (.aKey rs1) ∧ t.err = 0 ∧ t.ark = aKeySched (s.reg rs1)) ∧
    (t.bsk ≠ s.bsk → ∃ v rs1, s.pending.head? = some (.write 0x18 v) ∧
      decode (v.setWidth 32) = .ok (.bKey rs1) ∧ t.err = 0 ∧ t.bsk = bKeySched ((s.reg rs1).setWidth 64)) ∧
    (s.mv = true → s.m.ciph = .a → t.ark = s.ark) ∧
    (s.mv = true → s.m.ciph = .b → t.bsk = s.bsk)

/-- 10_state.md R36, the frame of every instruction: it writes no data register but its `rd`; only `A.KEY` writes
Cipher-A's keys and `AKV`, only `B.KEY` Cipher-B's and `BKV`; only the mode instructions write the mode unit, and
a block or message instruction writes of it only `M.chain` or, in mode `ctr`, `M.ctr`; only `M.INIT`, `M.ENCS`,
`M.DECS`, `M.END` write `MV`; only the message instructions touch the queues: they empty `sin` and append to
`sout`. A successful instruction leaves `ELOG`, `ECMD` and `FATAL`; a failing one leaves everything but the error
record, and `sin` where it has been taken. -/
def Obligations.InstructionFrames : Prop :=
  ∀ (i : Instr) (s t : State), exec i s = .next t →
    (∀ r : Reg, destReg i ≠ some r → t.reg r = s.reg r) ∧
    ((∀ rs1, i ≠ .aKey rs1) → t.ark = s.ark ∧ t.akv = s.akv) ∧
    ((∀ rs1, i ≠ .bKey rs1) → t.bsk = s.bsk ∧ t.bkv = s.bkv) ∧
    (¬ isInit i → ¬ isBlockStep i → ¬ isMessage i → t.m = s.m) ∧
    (isBlockStep i ∨ isMessage i →
      t.m.mode = s.m.mode ∧ t.m.ciph = s.m.ciph ∧ t.m.nonce = s.m.nonce ∧
      (s.m.mode = .ecb ∨ s.m.mode = .ctr → t.m.chain = s.m.chain) ∧
      (s.m.mode ≠ .ctr → t.m.ctr = s.m.ctr)) ∧
    (¬ isInit i → ¬ isMessage i → i ≠ .mEnd → t.mv = s.mv) ∧
    (¬ isMessage i → t.sin = s.sin ∧ t.sout = s.sout) ∧
    (isMessage i → t.err = 0 → t.sin = [] ∧ ∃ out, t.sout = s.sout ++ out) ∧
    (t.err = 0 → t.elog = s.elog ∧ t.ecmd = s.ecmd ∧ t.fatal = s.fatal) ∧
    (t.err ≠ 0 →
      t.d = s.d ∧ t.ark = s.ark ∧ t.akv = s.akv ∧ t.bsk = s.bsk ∧ t.bkv = s.bkv ∧ t.m = s.m ∧ t.mv = s.mv ∧
      t.sout = s.sout ∧
      (t.err = Err.unimpl.code ∨ t.err = Err.format.code ∨ t.err = Err.ctrovf.code → isMessage i → t.sin = []) ∧
      (¬ (isMessage i ∧ (t.err = Err.unimpl.code ∨ t.err = Err.format.code ∨ t.err = Err.ctrovf.code)) →
        t.sin = s.sin))

/-- 20_memory.md R66: block commands of the two ciphers hold no state in common. With destinations that are not
each other's operand or destination, `A.ENC` and `B.ENC` give the same state in either order. -/
def Obligations.BlockCommandsCommute : Prop :=
  ∀ (rd rs rd' rs' : Reg) (s : State), rd ≠ rd' → rd ≠ rs' → rd' ≠ rs →
    s.fatal = false → s.akv = true → s.bkv = true →
    ∃ t u v, exec (.aEnc rd rs) s = .next t ∧ exec (.bEnc rd' rs') t = .next v ∧
      exec (.bEnc rd' rs') s = .next u ∧ exec (.aEnc rd rs) u = .next v ∧
      v.reg rd = aEnc s.ark (s.reg rs) ∧ v.reg rd' = (bEnc s.bsk ((s.reg rs').setWidth 64)).setWidth 128

/-! ## Cipher-B's fixed tables -/

/-- 42_cipher_b.md R130 to R137: the tables as printed, in reading order, with the laws the rules print beside them:
the positions that never appear in `PC1` and `PC2`, the sum of the shifts, and that every row of every S-box is a
permutation of 0..15 (the law of R134 is FpUndoesIp). The spec marks the tables as general knowledge, not in its
source: log entry 7 (PRESUMED). -/
def Obligations.CipherBTablesAsPrinted : Prop :=
  pc1Table =
    [57, 49, 41, 33, 25, 17, 9,
     1, 58, 50, 42, 34, 26, 18,
     10, 2, 59, 51, 43, 35, 27,
     19, 11, 3, 60, 52, 44, 36]
    ++
    [63, 55, 47, 39, 31, 23, 15,
     7, 62, 54, 46, 38, 30, 22,
     14, 6, 61, 53, 45, 37, 29,
     21, 13, 5, 28, 20, 12, 4] ∧
  pc2Table =
    [14, 17, 11, 24, 1, 5,
     3, 28, 15, 6, 21, 10,
     23, 19, 12, 4, 26, 8,
     16, 7, 27, 20, 13, 2]
    ++
    [41, 52, 31, 37, 47, 55,
     30, 40, 51, 45, 33, 48,
     44, 49, 39, 56, 34, 53,
     46, 42, 50, 36, 29, 32] ∧
  shiftTable = [1, 1, 2, 2, 2, 2, 2, 2, 1, 2, 2, 2, 2, 2, 2, 1] ∧
  ipTable =
    [58, 50, 42, 34, 26, 18, 10, 2,
     60, 52, 44, 36, 28, 20, 12, 4,
     62, 54, 46, 38, 30, 22, 14, 6,
     64, 56, 48, 40, 32, 24, 16, 8]
    ++
    [57, 49, 41, 33, 25, 17, 9, 1,
     59, 51, 43, 35, 27, 19, 11, 3,
     61, 53, 45, 37, 29, 21, 13, 5,
     63, 55, 47, 39, 31, 23, 15, 7] ∧
  fpTable =
    [40, 8, 48, 16, 56, 24, 64, 32,
     39, 7, 47, 15, 55, 23, 63, 31,
     38, 6, 46, 14, 54, 22, 62, 30,
     37, 5, 45, 13, 53, 21, 61, 29]
    ++
    [36, 4, 44, 12, 52, 20, 60, 28,
     35, 3, 43, 11, 51, 19, 59, 27,
     34, 2, 42, 10, 50, 18, 58, 26,
     33, 1, 41, 9, 49, 17, 57, 25] ∧
  eTable =
    [32, 1, 2, 3, 4, 5,
     4, 5, 6, 7, 8, 9,
     8, 9, 10, 11, 12, 13,
     12, 13, 14, 15, 16, 17]
    ++
    [16, 17, 18, 19, 20, 21,
     20, 21, 22, 23, 24, 25,
     24, 25, 26, 27, 28, 29,
     28, 29, 30, 31, 32, 1] ∧
  pTable =
    [16, 7, 20, 21, 29, 12, 28, 17,
     1, 15, 23, 26, 5, 18, 31, 10]
    ++
    [2, 8, 24, 14, 32, 27, 3, 9,
     19, 13, 30, 6, 22, 11, 4, 25] ∧
  sBoxes.getD 0 [] =
    [[14, 4, 13, 1, 2, 15, 11, 8, 3, 10, 6, 12, 5, 9, 0, 7],
     [0, 15, 7, 4, 14, 2, 13, 1, 10, 6, 12, 11, 9, 5, 3, 8],
     [4, 1, 14, 8, 13, 6, 2, 11, 15, 12, 9, 7, 3, 10, 5, 0],
     [15, 12, 8, 2, 4, 9, 1, 7, 5, 11, 3, 14, 10, 0, 6, 13]] ∧
  sBoxes.getD 1 [] =
    [[15, 1, 8, 14, 6, 11, 3, 4, 9, 7, 2, 13, 12, 0, 5, 10],
     [3, 13, 4, 7, 15, 2, 8, 14, 12, 0, 1, 10, 6, 9, 11, 5],
     [0, 14, 7, 11, 10, 4, 13, 1, 5, 8, 12, 6, 9, 3, 2, 15],
     [13, 8, 10, 1, 3, 15, 4, 2, 11, 6, 7, 12, 0, 5, 14, 9]] ∧
  sBoxes.getD 2 [] =
    [[10, 0, 9, 14, 6, 3, 15, 5, 1, 13, 12, 7, 11, 4, 2, 8],
     [13, 7, 0, 9, 3, 4, 6, 10, 2, 8, 5, 14, 12, 11, 15, 1],
     [13, 6, 4, 9, 8, 15, 3, 0, 11, 1, 2, 12, 5, 10, 14, 7],
     [1, 10, 13, 0, 6, 9, 8, 7, 4, 15, 14, 3, 11, 5, 2, 12]] ∧
  sBoxes.getD 3 [] =
    [[7, 13, 14, 3, 0, 6, 9, 10, 1, 2, 8, 5, 11, 12, 4, 15],
     [13, 8, 11, 5, 6, 15, 0, 3, 4, 7, 2, 12, 1, 10, 14, 9],
     [10, 6, 9, 0, 12, 11, 7, 13, 15, 1, 3, 14, 5, 2, 8, 4],
     [3, 15, 0, 6, 10, 1, 13, 8, 9, 4, 5, 11, 12, 7, 2, 14]] ∧
  sBoxes.getD 4 [] =
    [[2, 12, 4, 1, 7, 10, 11, 6, 8, 5, 3, 15, 13, 0, 14, 9],
     [14, 11, 2, 12, 4, 7, 13, 1, 5, 0, 15, 10, 3, 9, 8, 6],
     [4, 2, 1, 11, 10, 13, 7, 8, 15, 9, 12, 5, 6, 3, 0, 14],
     [11, 8, 12, 7, 1, 14, 2, 13, 6, 15, 0, 9, 10, 4, 5, 3]] ∧
  sBoxes.getD 5 [] =
    [[12, 1, 10, 15, 9, 2, 6, 8, 0, 13, 3, 4, 14, 7, 5, 11],
     [10, 15, 4, 2, 7, 12, 9, 5, 6, 1, 13, 14, 0, 11, 3, 8],
     [9, 14, 15, 5, 2, 8, 12, 3, 7, 0, 4, 10, 1, 13, 11, 6],
     [4, 3, 2, 12, 9, 5, 15, 10, 11, 14, 1, 7, 6, 0, 8, 13]] ∧
  sBoxes.getD 6 [] =
    [[4, 11, 2, 14, 15, 0, 8, 13, 3, 12, 9, 7, 5, 10, 6, 1],
     [13, 0, 11, 7, 4, 9, 1, 10, 14, 3, 5, 12, 2, 15, 8, 6],
     [1, 4, 11, 13, 12, 3, 7, 14, 10, 15, 6, 8, 0, 5, 9, 2],
     [6, 11, 13, 8, 1, 4, 10, 7, 9, 5, 0, 15, 14, 2, 3, 12]] ∧
  sBoxes.getD 7 [] =
    [[13, 2, 8, 4, 6, 15, 11, 1, 10, 9, 3, 14, 5, 0, 12, 7],
     [1, 15, 13, 8, 10, 3, 7, 4, 12, 5, 6, 11, 0, 14, 9, 2],
     [7, 11, 4, 1, 9, 12, 14, 2, 0, 6, 10, 13, 15, 3, 5, 8],
     [2, 1, 14, 7, 4, 10, 8, 13, 15, 12, 9, 0, 3, 5, 6, 11]] ∧
  sBoxes.length = 8 ∧
  (∀ p, 1 ≤ p → p ≤ 64 → (p ∉ pc1Table ↔ p ∈ [8, 16, 24, 32, 40, 48, 56, 64])) ∧
  (∀ p, 1 ≤ p → p ≤ 56 → (p ∉ pc2Table ↔ p ∈ [9, 18, 22, 25, 35, 38, 43, 54])) ∧
  shiftTable.sum = 28 ∧
  (∀ box ∈ sBoxes, box.length = 4 ∧
    ∀ row ∈ box, row.length = 16 ∧ ∀ v, v < 16 → row.count v = 1)
end

