-- ==== Sys2Proof/Laws/Bytes.lean ====
section
/-!
SUPPORT. Laws/Bytes.lean: bytes of a block and back (00_scope.md R11).
-/

namespace Sys2Proof.Machine

@[simp] theorem length_toBytes (n : Nat) (v : Block) : (toBytes n v).length = n := by simp [toBytes]

theorem getElem_toBytes (n : Nat) (v : Block) (k : Nat) (h : k < (toBytes n v).length) :
    (toBytes n v)[k] = byteOf n v k := by simp [toBytes]

theorem fromBytes_concat (bs : List Byte) (b : Byte) :
    fromBytes (bs ++ [b]) = (fromBytes bs <<< 8) ||| b.setWidth 128 := by
  simp [fromBytes]

/-- Bit `i` of the value of a list of bytes: bytes count from the last one. -/
theorem getLsbD_fromBytes (bs : List Byte) (i : Nat) :
    (fromBytes bs).getLsbD i = (decide (i < 128) && (bs.reverse.getD (i / 8) 0).getLsbD (i % 8)) := by
  induction bs using List.reverseRecOn generalizing i with
  | nil => simp [fromBytes]
  | append_singleton bs b ih =>
    rw [fromBytes_concat]
    simp only [BitVec.getLsbD_or, BitVec.getLsbD_shiftLeft, BitVec.getLsbD_setWidth, ih, List.reverse_append,
      List.reverse_cons, List.reverse_nil, List.nil_append, List.singleton_append]
    by_cases h8 : i < 8
    · have h0 : i / 8 = 0 := by omega
      have h1 : i % 8 = i := by omega
      have h2 : i < 128 := by omega
      simp [h8, h0, h1, h2]
    · have hq : i / 8 = (i - 8) / 8 + 1 := by omega
      have hr : (i - 8) % 8 = i % 8 := by omega
      have hb : b.getLsbD i = false := BitVec.getLsbD_of_ge _ _ (by omega)
      by_cases h128 : i < 128
      · have : i - 8 < 128 := by omega
        simp [h8, h128, this, hq, hr, hb]
      · simp [h8, h128]

/-- Byte `k` of the value of `n` bytes is the `k`-th of them. -/
theorem byteOf_fromBytes (bs : List Byte) (n k : Nat) (hn : bs.length = n) (hn16 : n ≤ 16) (hk : k < n) :
    byteOf n (fromBytes bs) k = bs.getD k 0 := by
  apply BitVec.eq_of_getLsbD_eq
  intro i hi
  have hlt : 8 * (n - 1 - k) + i < 128 := by omega
  have hd : (8 * (n - 1 - k) + i) / 8 = n - 1 - k := by omega
  have hm : (8 * (n - 1 - k) + i) % 8 = i := by omega
  have hidx : n - 1 - (n - 1 - k) = k := by omega
  simp only [byteOf, BitVec.getLsbD_extractLsb', getLsbD_fromBytes, hlt, hd, hm, hi, decide_true, Bool.true_and]
  congr 1
  rw [List.getD_eq_getElem _ _ (by simp; omega), List.getD_eq_getElem _ _ (by omega), List.getElem_reverse]
  congr 1
  omega

/-- Cutting into bytes undoes putting together. -/
theorem toBytes_fromBytes (bs : List Byte) (n : Nat) (hn : bs.length = n) (hn16 : n ≤ 16) :
    toBytes n (fromBytes bs) = bs := by
  apply List.ext_getElem (by simp [hn])
  intro k h1 h2
  rw [getElem_toBytes, byteOf_fromBytes bs n k hn hn16 (by omega), List.getD_eq_getElem]

/-- Putting together undoes cutting, up to the bytes that were not cut. -/
theorem fromBytes_toBytes (n : Nat) (v : Block) :
    fromBytes (toBytes n v) = (v.setWidth (8 * n)).setWidth 128 := by
  apply BitVec.eq_of_getLsbD_eq
  intro i hi
  simp only [getLsbD_fromBytes, hi, decide_true, Bool.true_and, BitVec.getLsbD_setWidth]
  by_cases h : i < 8 * n
  · have hq : i / 8 < n := by omega
    rw [List.getD_eq_getElem _ _ (by simpa using hq), List.getElem_reverse, getElem_toBytes]
    simp only [byteOf, BitVec.getLsbD_extractLsb', length_toBytes, h, decide_true, Bool.true_and]
    rw [decide_eq_true (by omega), Bool.true_and]
    congr 1
    omega
  · have : (toBytes n v).reverse.getD (i / 8) 0 = 0 := by
      rw [List.getD_eq_default]
      simp; omega
    rw [this]
    simp [h]

theorem fromBytes_toBytes_16 (v : Block) : fromBytes (toBytes 16 v) = v := by
  rw [fromBytes_toBytes]; simp

theorem lowBlock_idem (c : Cipher) (v : Block) : lowBlock c (lowBlock c v) = lowBlock c v := by
  cases c <;> simp [lowBlock, Config.bw]

theorem lowBlock_a (v : Block) : lowBlock .a v = v := by simp [lowBlock, Config.bw]

/-- A whole chunk of the cipher's width is a block of that width. -/
theorem lowBlock_fromBytes (c : Cipher) (bs : List Byte) (h : bs.length = Config.bwB c) :
    lowBlock c (fromBytes bs) = fromBytes bs := by
  have h8 : 8 * Config.bwB c = Config.bw c := by cases c <;> rfl
  have h16 : Config.bwB c ≤ 16 := by cases c <;> decide
  have := fromBytes_toBytes (Config.bwB c) (fromBytes bs)
  rw [toBytes_fromBytes bs _ h h16, h8] at this
  rw [lowBlock, ← this]

end Sys2Proof.Machine
end

