-- ==== Sys2Proof/Laws/Decode.lean ====
section
/-!
SUPPORT. Laws/Decode.lean: cutting a word into fields and putting it together are inverse to each other
(30_encoding.md R71), and so are the readings of the `mode` and `ciph` fields (R77).
-/

namespace Sys2Proof

theorem getLsbD_toWord (f : Fields) (i : Nat) : f.toWord.getLsbD i =
    if i < 3 then f.z.getLsbD i
    else if i < 4 then f.ciph.getLsbD (i - 3)
    else if i < 8 then f.mode.getLsbD (i - 4)
    else if i < 12 then f.idx.getLsbD (i - 8)
    else if i < 16 then f.rs2.getLsbD (i - 12)
    else if i < 20 then f.rs1.getLsbD (i - 16)
    else if i < 24 then f.rd.getLsbD (i - 20)
    else f.op.getLsbD (i - 24) := by
  have h1 : i - 3 < 1 ↔ i < 4 := by omega
  have h2 : i - 4 < 4 ↔ i < 8 := by omega
  have h3 : i - 8 < 4 ↔ i < 12 := by omega
  have h4 : i - 12 < 4 ↔ i < 16 := by omega
  have h5 : i - 16 < 4 ↔ i < 20 := by omega
  have h6 : i - 20 < 4 ↔ i < 24 := by omega
  simp only [Fields.toWord, BitVec.getLsbD_append]
  simp only [Nat.sub_sub, Nat.reduceAdd, h1, h2, h3, h4, h5, h6]

/-- No field of a word is lost or changed by its place in the word. -/
theorem Fields.ofWord_toWord (f : Fields) : Fields.ofWord f.toWord = f := by
  have bit (k n i : Nat) (hi : i < n) : (f.toWord.extractLsb' k n).getLsbD i = f.toWord.getLsbD (k + i) := by
    simp [hi]
  have ext (k n : Nat) (x : BitVec n) (h : ∀ i < n, f.toWord.getLsbD (k + i) = x.getLsbD i) :
      f.toWord.extractLsb' k n = x :=
    BitVec.eq_of_getLsbD_eq fun i hi => by rw [bit k n i hi, h i hi]
  have hop : f.toWord.extractLsb' 24 8 = f.op := ext 24 8 _ fun i hi => by
    simp (disch := omega) only [getLsbD_toWord, if_neg, Nat.add_sub_cancel_left]
  have hrd : f.toWord.extractLsb' 20 4 = f.rd := ext 20 4 _ fun i hi => by
    simp (disch := omega) only [getLsbD_toWord, if_neg, if_pos, Nat.add_sub_cancel_left]
  have hrs1 : f.toWord.extractLsb' 16 4 = f.rs1 := ext 16 4 _ fun i hi => by
    simp (disch := omega) only [getLsbD_toWord, if_neg, if_pos, Nat.add_sub_cancel_left]
  have hrs2 : f.toWord.extractLsb' 12 4 = f.rs2 := ext 12 4 _ fun i hi => by
    simp (disch := omega) only [getLsbD_toWord, if_neg, if_pos, Nat.add_sub_cancel_left]
  have hidx : f.toWord.extractLsb' 8 4 = f.idx := ext 8 4 _ fun i hi => by
    simp (disch := omega) only [getLsbD_toWord, if_neg, if_pos, Nat.add_sub_cancel_left]
  have hmode : f.toWord.extractLsb' 4 4 = f.mode := ext 4 4 _ fun i hi => by
    simp (disch := omega) only [getLsbD_toWord, if_neg, if_pos, Nat.add_sub_cancel_left]
  have hciph : f.toWord.extractLsb' 3 1 = f.ciph := ext 3 1 _ fun i hi => by
    simp (disch := omega) only [getLsbD_toWord, if_neg, if_pos, Nat.add_sub_cancel_left]
  have hz : f.toWord.extractLsb' 0 3 = f.z := ext 0 3 _ fun i hi => by
    simp (disch := omega) only [getLsbD_toWord, if_pos, Nat.zero_add]
  simp only [Fields.ofWord, hop, hrd, hrs1, hrs2, hidx, hmode, hciph, hz]

/-- A word is its fields. -/
theorem Fields.toWord_ofWord (w : Word) : (Fields.ofWord w).toWord = w := by
  apply BitVec.eq_of_getLsbD_eq
  intro i hi
  rw [getLsbD_toWord]
  simp only [Fields.ofWord, BitVec.getLsbD_extractLsb']
  split_ifs <;>
    (rw [decide_eq_true (by omega), Bool.true_and]
     congr 1
     omega)

theorem Mode.ofField_toField (m : Mode) : Mode.ofField m.toField = some m := by cases m <;> decide

theorem Mode.toField_of_ofField {f : BitVec 4} {m : Mode} (h : Mode.ofField f = some m) : m.toField = f := by
  simp only [Mode.ofField] at h
  split_ifs at h <;> simp_all <;> subst h <;> rfl

theorem Cipher.ofField_toField (c : Cipher) : Cipher.ofField c.toField = c := by cases c <;> decide

theorem Cipher.toField_ofField (f : BitVec 1) : (Cipher.ofField f).toField = f := by
  revert f; decide

theorem Fields.toWord_injective {f g : Fields} (h : f.toWord = g.toWord) : f = g := by
  rw [← Fields.ofWord_toWord f, h, Fields.ofWord_toWord]

namespace Machine

/-! The word of each instruction in its format (30_encoding.md R72, R73). -/

theorem encode_gfMul (rd rs1 rs2 : Reg) : encode (.gfMul rd rs1 rs2) = wordF3 0x10 rd rs1 rs2 := by
  apply BitVec.eq_of_toNat_eq
  simp only [encode, encodeFields, Fields.toWord, wordF3, BitVec.toNat_append]
  simp [← Nat.shiftLeft_add]

theorem encode_aKey (rs1 : Reg) : encode (.aKey rs1) = wordF1 0x20 rs1 := by
  apply BitVec.eq_of_toNat_eq
  simp only [encode, encodeFields, Fields.toWord, wordF1, BitVec.toNat_append]
  simp [← Nat.shiftLeft_add]

theorem encode_bKey (rs1 : Reg) : encode (.bKey rs1) = wordF1 0x30 rs1 := by
  apply BitVec.eq_of_toNat_eq
  simp only [encode, encodeFields, Fields.toWord, wordF1, BitVec.toNat_append]
  simp [← Nat.shiftLeft_add]

theorem encode_aEnc (rd rs1 : Reg) : encode (.aEnc rd rs1) = wordF2 0x21 rd rs1 := by
  apply BitVec.eq_of_toNat_eq
  simp only [encode, encodeFields, Fields.toWord, wordF2, BitVec.toNat_append]
  simp [← Nat.shiftLeft_add]

theorem encode_aDec (rd rs1 : Reg) : encode (.aDec rd rs1) = wordF2 0x22 rd rs1 := by
  apply BitVec.eq_of_toNat_eq
  simp only [encode, encodeFields, Fields.toWord, wordF2, BitVec.toNat_append]
  simp [← Nat.shiftLeft_add]

theorem encode_bEnc (rd rs1 : Reg) : encode (.bEnc rd rs1) = wordF2 0x31 rd rs1 := by
  apply BitVec.eq_of_toNat_eq
  simp only [encode, encodeFields, Fields.toWord, wordF2, BitVec.toNat_append]
  simp [← Nat.shiftLeft_add]

theorem encode_bDec (rd rs1 : Reg) : encode (.bDec rd rs1) = wordF2 0x32 rd rs1 := by
  apply BitVec.eq_of_toNat_eq
  simp only [encode, encodeFields, Fields.toWord, wordF2, BitVec.toNat_append]
  simp [← Nat.shiftLeft_add]

theorem encode_mEncb (rd rs1 : Reg) : encode (.mEncb rd rs1) = wordF2 0x41 rd rs1 := by
  apply BitVec.eq_of_toNat_eq
  simp only [encode, encodeFields, Fields.toWord, wordF2, BitVec.toNat_append]
  simp [← Nat.shiftLeft_add]

theorem encode_mDecb (rd rs1 : Reg) : encode (.mDecb rd rs1) = wordF2 0x42 rd rs1 := by
  apply BitVec.eq_of_toNat_eq
  simp only [encode, encodeFields, Fields.toWord, wordF2, BitVec.toNat_append]
  simp [← Nat.shiftLeft_add]

theorem encode_aRdk (rd : Reg) (idx : Fin 16) : encode (.aRdk rd idx) = wordFK 0x23 rd idx := by
  apply BitVec.eq_of_toNat_eq
  simp only [encode, encodeFields, Fields.toWord, wordFK, BitVec.toNat_append]
  simp [← Nat.shiftLeft_add]

theorem encode_bRdk (rd : Reg) (idx : Fin 16) : encode (.bRdk rd idx) = wordFK 0x33 rd idx := by
  apply BitVec.eq_of_toNat_eq
  simp only [encode, encodeFields, Fields.toWord, wordFK, BitVec.toNat_append]
  simp [← Nat.shiftLeft_add]

theorem encode_mInit (mode : Mode) (c : Cipher) (rs1 : Reg) :
    encode (.mInit mode c rs1) = wordFM 0x40 (modeNum mode).toNat (ciphNum c).toNat rs1 := by
  apply BitVec.eq_of_toNat_eq
  simp only [encode, encodeFields, Fields.toWord, wordFM, BitVec.toNat_append]
  cases mode <;> cases c <;> simp [← Nat.shiftLeft_add, modeNum, ciphNum, Mode.toField, Cipher.toField]

theorem encode_mEncs : encode .mEncs = 0x43000000 := by decide

theorem encode_mDecs : encode .mDecs = 0x44000000 := by decide

theorem encode_mEnd : encode .mEnd = 0x45000000 := by decide

end Machine

end Sys2Proof
end

