-- ==== Sys2Proof/Laws/State.lean ====
section
/-!
SUPPORT. Laws/State.lean: one lemma per field and update of the hardware, what an update of a run's hardware
leaves of the run, and reading a register after a write.
-/

namespace Sys2Proof.Machine

@[simp] theorem setReg_d (h : Hardware) (r : Reg) (v : Block) : (h.setReg r v).d = h.d.set r v := rfl
@[simp] theorem setReg_ark (h : Hardware) (r : Reg) (v : Block) : (h.setReg r v).ark = h.ark := rfl
@[simp] theorem setReg_akv (h : Hardware) (r : Reg) (v : Block) : (h.setReg r v).akv = h.akv := rfl
@[simp] theorem setReg_bsk (h : Hardware) (r : Reg) (v : Block) : (h.setReg r v).bsk = h.bsk := rfl
@[simp] theorem setReg_bkv (h : Hardware) (r : Reg) (v : Block) : (h.setReg r v).bkv = h.bkv := rfl
@[simp] theorem setReg_m (h : Hardware) (r : Reg) (v : Block) : (h.setReg r v).m = h.m := rfl
@[simp] theorem setReg_mv (h : Hardware) (r : Reg) (v : Block) : (h.setReg r v).mv = h.mv := rfl
@[simp] theorem setReg_fatal (h : Hardware) (r : Reg) (v : Block) : (h.setReg r v).fatal = h.fatal := rfl
@[simp] theorem setReg_err (h : Hardware) (r : Reg) (v : Block) : (h.setReg r v).err = h.err := rfl
@[simp] theorem setReg_elog (h : Hardware) (r : Reg) (v : Block) : (h.setReg r v).elog = h.elog := rfl
@[simp] theorem setReg_ecmd (h : Hardware) (r : Reg) (v : Block) : (h.setReg r v).ecmd = h.ecmd := rfl
@[simp] theorem setReg_sin (h : Hardware) (r : Reg) (v : Block) : (h.setReg r v).sin = h.sin := rfl
@[simp] theorem setReg_sout (h : Hardware) (r : Reg) (v : Block) : (h.setReg r v).sout = h.sout := rfl

@[simp] theorem raise_d (e : Err) (w : Word) (h : Hardware) : (raise e w h).d = h.d := rfl
@[simp] theorem raise_ark (e : Err) (w : Word) (h : Hardware) : (raise e w h).ark = h.ark := rfl
@[simp] theorem raise_akv (e : Err) (w : Word) (h : Hardware) : (raise e w h).akv = h.akv := rfl
@[simp] theorem raise_bsk (e : Err) (w : Word) (h : Hardware) : (raise e w h).bsk = h.bsk := rfl
@[simp] theorem raise_bkv (e : Err) (w : Word) (h : Hardware) : (raise e w h).bkv = h.bkv := rfl
@[simp] theorem raise_m (e : Err) (w : Word) (h : Hardware) : (raise e w h).m = h.m := rfl
@[simp] theorem raise_mv (e : Err) (w : Word) (h : Hardware) : (raise e w h).mv = h.mv := rfl
@[simp] theorem raise_fatal (e : Err) (w : Word) (h : Hardware) : (raise e w h).fatal = (h.fatal || e == .width) := rfl
@[simp] theorem raise_err (e : Err) (w : Word) (h : Hardware) : (raise e w h).err = e.code := rfl
@[simp] theorem raise_elog (e : Err) (w : Word) (h : Hardware) : (raise e w h).elog = logErr h.elog e := rfl
@[simp] theorem raise_ecmd (e : Err) (w : Word) (h : Hardware) : (raise e w h).ecmd = w := rfl
@[simp] theorem raise_sin (e : Err) (w : Word) (h : Hardware) : (raise e w h).sin = h.sin := rfl
@[simp] theorem raise_sout (e : Err) (w : Word) (h : Hardware) : (raise e w h).sout = h.sout := rfl

@[simp] theorem succeed_d (h : Hardware) : (succeed h).d = h.d := rfl
@[simp] theorem succeed_ark (h : Hardware) : (succeed h).ark = h.ark := rfl
@[simp] theorem succeed_akv (h : Hardware) : (succeed h).akv = h.akv := rfl
@[simp] theorem succeed_bsk (h : Hardware) : (succeed h).bsk = h.bsk := rfl
@[simp] theorem succeed_bkv (h : Hardware) : (succeed h).bkv = h.bkv := rfl
@[simp] theorem succeed_m (h : Hardware) : (succeed h).m = h.m := rfl
@[simp] theorem succeed_mv (h : Hardware) : (succeed h).mv = h.mv := rfl
@[simp] theorem succeed_fatal (h : Hardware) : (succeed h).fatal = h.fatal := rfl
@[simp] theorem succeed_err (h : Hardware) : (succeed h).err = 0 := rfl
@[simp] theorem succeed_elog (h : Hardware) : (succeed h).elog = h.elog := rfl
@[simp] theorem succeed_ecmd (h : Hardware) : (succeed h).ecmd = h.ecmd := rfl
@[simp] theorem succeed_sin (h : Hardware) : (succeed h).sin = h.sin := rfl
@[simp] theorem succeed_sout (h : Hardware) : (succeed h).sout = h.sout := rfl

@[simp] theorem takeSin_d (h : Hardware) : h.takeSin.d = h.d := rfl
@[simp] theorem takeSin_ark (h : Hardware) : h.takeSin.ark = h.ark := rfl
@[simp] theorem takeSin_akv (h : Hardware) : h.takeSin.akv = h.akv := rfl
@[simp] theorem takeSin_bsk (h : Hardware) : h.takeSin.bsk = h.bsk := rfl
@[simp] theorem takeSin_bkv (h : Hardware) : h.takeSin.bkv = h.bkv := rfl
@[simp] theorem takeSin_m (h : Hardware) : h.takeSin.m = h.m := rfl
@[simp] theorem takeSin_mv (h : Hardware) : h.takeSin.mv = h.mv := rfl
@[simp] theorem takeSin_fatal (h : Hardware) : h.takeSin.fatal = h.fatal := rfl
@[simp] theorem takeSin_err (h : Hardware) : h.takeSin.err = h.err := rfl
@[simp] theorem takeSin_elog (h : Hardware) : h.takeSin.elog = h.elog := rfl
@[simp] theorem takeSin_ecmd (h : Hardware) : h.takeSin.ecmd = h.ecmd := rfl
@[simp] theorem takeSin_sin (h : Hardware) : h.takeSin.sin = [] := rfl
@[simp] theorem takeSin_sout (h : Hardware) : h.takeSin.sout = h.sout := rfl

@[simp] theorem putSout_d (h : Hardware) (bs : List Byte) : (h.putSout bs).d = h.d := rfl
@[simp] theorem putSout_ark (h : Hardware) (bs : List Byte) : (h.putSout bs).ark = h.ark := rfl
@[simp] theorem putSout_akv (h : Hardware) (bs : List Byte) : (h.putSout bs).akv = h.akv := rfl
@[simp] theorem putSout_bsk (h : Hardware) (bs : List Byte) : (h.putSout bs).bsk = h.bsk := rfl
@[simp] theorem putSout_bkv (h : Hardware) (bs : List Byte) : (h.putSout bs).bkv = h.bkv := rfl
@[simp] theorem putSout_m (h : Hardware) (bs : List Byte) : (h.putSout bs).m = h.m := rfl
@[simp] theorem putSout_mv (h : Hardware) (bs : List Byte) : (h.putSout bs).mv = h.mv := rfl
@[simp] theorem putSout_fatal (h : Hardware) (bs : List Byte) : (h.putSout bs).fatal = h.fatal := rfl
@[simp] theorem putSout_err (h : Hardware) (bs : List Byte) : (h.putSout bs).err = h.err := rfl
@[simp] theorem putSout_elog (h : Hardware) (bs : List Byte) : (h.putSout bs).elog = h.elog := rfl
@[simp] theorem putSout_ecmd (h : Hardware) (bs : List Byte) : (h.putSout bs).ecmd = h.ecmd := rfl
@[simp] theorem putSout_sin (h : Hardware) (bs : List Byte) : (h.putSout bs).sin = h.sin := rfl
@[simp] theorem putSout_sout (h : Hardware) (bs : List Byte) : (h.putSout bs).sout = h.sout ++ bs := rfl

@[simp] theorem pushSin_d (h : Hardware) (b : Byte) : (h.pushSin b).d = h.d := rfl
@[simp] theorem pushSin_ark (h : Hardware) (b : Byte) : (h.pushSin b).ark = h.ark := rfl
@[simp] theorem pushSin_akv (h : Hardware) (b : Byte) : (h.pushSin b).akv = h.akv := rfl
@[simp] theorem pushSin_bsk (h : Hardware) (b : Byte) : (h.pushSin b).bsk = h.bsk := rfl
@[simp] theorem pushSin_bkv (h : Hardware) (b : Byte) : (h.pushSin b).bkv = h.bkv := rfl
@[simp] theorem pushSin_m (h : Hardware) (b : Byte) : (h.pushSin b).m = h.m := rfl
@[simp] theorem pushSin_mv (h : Hardware) (b : Byte) : (h.pushSin b).mv = h.mv := rfl
@[simp] theorem pushSin_fatal (h : Hardware) (b : Byte) : (h.pushSin b).fatal = h.fatal := rfl
@[simp] theorem pushSin_err (h : Hardware) (b : Byte) : (h.pushSin b).err = h.err := rfl
@[simp] theorem pushSin_elog (h : Hardware) (b : Byte) : (h.pushSin b).elog = h.elog := rfl
@[simp] theorem pushSin_ecmd (h : Hardware) (b : Byte) : (h.pushSin b).ecmd = h.ecmd := rfl
@[simp] theorem pushSin_sin (h : Hardware) (b : Byte) : (h.pushSin b).sin = h.sin ++ [b] := rfl
@[simp] theorem pushSin_sout (h : Hardware) (b : Byte) : (h.pushSin b).sout = h.sout := rfl

/-! The run's side: what stands beside the hardware. -/

@[simp] theorem withHardware_toHardware (s : State) (h : Hardware) : (s.withHardware h).toHardware = h := rfl
@[simp] theorem withHardware_pending (s : State) (h : Hardware) : (s.withHardware h).pending = s.pending := rfl
@[simp] theorem withHardware_observed (s : State) (h : Hardware) :
    (s.withHardware h).observed = s.observed := rfl
@[simp] theorem withHardware_withHardware (s : State) (h u : Hardware) :
    (s.withHardware h).withHardware u = s.withHardware u := rfl
@[simp] theorem withHardware_self (s : State) : s.withHardware s.toHardware = s := rfl

@[simp] theorem alone_toHardware (h : Hardware) : h.alone.toHardware = h := rfl
@[simp] theorem alone_pending (h : Hardware) : h.alone.pending = [] := rfl
@[simp] theorem alone_observed (h : Hardware) : h.alone.observed = [] := rfl

@[simp] theorem raised_toHardware (e : Err) (w : Word) (s : State) :
    (s.raised e w).toHardware = raise e w s.toHardware := rfl
@[simp] theorem raised_pending (e : Err) (w : Word) (s : State) : (s.raised e w).pending = s.pending := rfl
@[simp] theorem raised_observed (e : Err) (w : Word) (s : State) : (s.raised e w).observed = s.observed := rfl

@[simp] theorem state_setReg_toHardware (s : State) (r : Reg) (v : Block) :
    (s.setReg r v).toHardware = s.toHardware.setReg r v := rfl
@[simp] theorem state_setReg_pending (s : State) (r : Reg) (v : Block) : (s.setReg r v).pending = s.pending := rfl
@[simp] theorem state_setReg_observed (s : State) (r : Reg) (v : Block) :
    (s.setReg r v).observed = s.observed := rfl

@[simp] theorem withFetchWord_toHardware (s : State) (nbits w : Nat) :
    (s.withFetchWord nbits w).toHardware = s.toHardware := rfl
@[simp] theorem withFetchWord_observed (s : State) (nbits w : Nat) :
    (s.withFetchWord nbits w).observed = s.observed := rfl

@[simp] theorem reg_setReg_self (h : Hardware) (r : Reg) (v : Block) : (h.setReg r v).reg r = v := by
  simp [Hardware.reg]

theorem reg_setReg_of_ne (h : Hardware) {r q : Reg} (v : Block) (hq : q ≠ r) :
    (h.setReg r v).reg q = h.reg q := by
  have : r.val ≠ q.val := fun e => hq (Fin.ext e.symm)
  simp [Hardware.reg, Vector.getElem_set_ne, this]

@[simp] theorem reg_raise (e : Err) (w : Word) (h : Hardware) (r : Reg) : (raise e w h).reg r = h.reg r := rfl

@[simp] theorem reg_succeed (h : Hardware) (r : Reg) : (succeed h).reg r = h.reg r := rfl

@[simp] theorem reg_takeSin (h : Hardware) (r : Reg) : h.takeSin.reg r = h.reg r := rfl

/-- Two writes to different registers commute. -/
theorem setReg_comm (h : Hardware) {r q : Reg} (v u : Block) (hq : r ≠ q) :
    (h.setReg r v).setReg q u = (h.setReg q u).setReg r v := by
  have h' : r.val ≠ q.val := fun e => hq (Fin.ext e)
  simp only [Hardware.setReg]
  rw [Vector.set_comm _ _ h']

end Sys2Proof.Machine
end

