-- ==== Sys2Proof/Laws/Ops.lean ====
section
/-!
SUPPORT. Laws/Ops.lean: what each shared operation can do, and the one inversion lemma of `exec` from which
frames and invariants follow.
-/

namespace Sys2Proof.Machine

theorem Err.code_ne_zero (e : Err) : e.code ≠ 0 := by cases e <;> decide

theorem Err.code_le (e : Err) : e.code.toNat ≤ 9 := by cases e <;> decide

theorem Err.code_injective {e f : Err} (h : e.code = f.code) : e = f := by
  cases e <;> cases f <;> first | rfl | exact absurd h (by decide)

theorem raise_err_ne_zero (e : Err) (w : Word) (h : Hardware) : (raise e w h).err ≠ 0 := e.code_ne_zero

theorem failIf_of_true {bad : Bool} (hb : bad = true) (e : Err) (h : Hardware) (r : Completion) :
    failIf bad e h r = .fails e h := by simp [failIf, hb]

theorem failIf_of_false {bad : Bool} (hb : bad = false) (e : Err) (h : Hardware) (r : Completion) :
    failIf bad e h r = r := by simp [failIf, hb]

/-- A check either lets its instruction go on or ends it with its own error. -/
theorem failIf_eq_done {bad : Bool} {e : Err} {h u : Hardware} {r : Completion} :
    failIf bad e h r = .done u ↔ bad = false ∧ r = .done u := by
  cases bad <;> simp [failIf]

theorem failIf_eq_fails {bad : Bool} {e f : Err} {h u : Hardware} {r : Completion} :
    failIf bad e h r = .fails f u ↔ (bad = true ∧ e = f ∧ h = u) ∨ (bad = false ∧ r = .fails f u) := by
  cases bad <;> simp [failIf]

theorem runCommand_of_fatal (i : Instr) (b : Hardware → Completion) {h : Hardware} (hf : h.fatal = true) :
    runCommand i b h = raise .fatald (encode i) h := by simp [runCommand, hf]

theorem runCommand_of_done (i : Instr) (b : Hardware → Completion) {h u : Hardware} (hf : h.fatal = false)
    (hb : b h = .done u) : runCommand i b h = succeed u := by simp [runCommand, hf, hb]

theorem runCommand_of_fails (i : Instr) (b : Hardware → Completion) {h u : Hardware} {e : Err}
    (hf : h.fatal = false) (hb : b h = .fails e u) : runCommand i b h = raise e (encode i) u := by
  simp [runCommand, hf, hb]

theorem command_of_fatal (i : Instr) (b : Hardware → Completion) {s : State} (hf : s.fatal = true) :
    command i b s = .next (s.raised .fatald (encode i)) := by
  rw [command, runCommand_of_fatal i b hf, State.raised]

theorem command_of_done (i : Instr) (b : Hardware → Completion) {s : State} {u : Hardware}
    (hf : s.fatal = false) (hb : b s.toHardware = .done u) :
    command i b s = .next (s.withHardware (succeed u)) := by rw [command, runCommand_of_done i b hf hb]

theorem command_of_fails (i : Instr) (b : Hardware → Completion) {s : State} {u : Hardware} {e : Err}
    (hf : s.fatal = false) (hb : b s.toHardware = .fails e u) :
    command i b s = .next (s.withHardware (raise e (encode i) u)) := by
  rw [command, runCommand_of_fails i b hf hb]

/-- Everything a command can do to the hardware. -/
theorem runCommand_cases (i : Instr) (b : Hardware → Completion) (h : Hardware) :
    (h.fatal = true ∧ runCommand i b h = raise .fatald (encode i) h) ∨
    (h.fatal = false ∧ ∃ u, b h = .done u ∧ runCommand i b h = succeed u) ∨
    (h.fatal = false ∧ ∃ e u, b h = .fails e u ∧ runCommand i b h = raise e (encode i) u) := by
  cases hf : h.fatal with
  | true => exact .inl ⟨rfl, runCommand_of_fatal i b hf⟩
  | false =>
    cases hb : b h with
    | done u => exact .inr (.inl ⟨rfl, u, rfl, runCommand_of_done i b hf hb⟩)
    | fails e u => exact .inr (.inr ⟨rfl, e, u, rfl, runCommand_of_fails i b hf hb⟩)

/-- The same of a run: the hardware as `runCommand_cases` says, the host's lists as they were. -/
theorem command_cases {i : Instr} {b : Hardware → Completion} {s t : State} (h : command i b s = .next t) :
    (s.fatal = true ∧ t = s.raised .fatald (encode i)) ∨
    (s.fatal = false ∧ ∃ u, b s.toHardware = .done u ∧ t = s.withHardware (succeed u)) ∨
    (s.fatal = false ∧ ∃ e u, b s.toHardware = .fails e u ∧
      t = s.withHardware (raise e (encode i) u)) := by
  injection h with h
  rcases runCommand_cases i b s.toHardware with ⟨hf, hu⟩ | ⟨hf, u, hb, hu⟩ | ⟨hf, e, u, hb, hu⟩ <;>
    rw [hu] at h
  · exact .inl ⟨hf, h.symm⟩
  · exact .inr (.inl ⟨hf, u, hb, h.symm⟩)
  · exact .inr (.inr ⟨hf, e, u, hb, h.symm⟩)

/-- Every instruction is a command: a function of the hardware alone. -/
theorem exec_is_command (i : Instr) : ∃ b, ∀ s, exec i s = command i b s := by
  cases i <;> exact ⟨_, fun _ => rfl⟩

/-- What an instruction does is a function of the hardware alone, and it leaves the host's lists
(00_scope.md R9, 10_state.md R20). -/
theorem exec_eq (i : Instr) :
    ∃ f : Hardware → Hardware, ∀ s, exec i s = .next (s.withHardware (f s.toHardware)) := by
  obtain ⟨b, hb⟩ := exec_is_command i
  exact ⟨runCommand i b, hb⟩

/-- Every instruction answers a next state (70_reset_and_hazards.md R255: every command "completes and
returns"). -/
theorem exec_answers (i : Instr) (s : State) : ∃ t, exec i s = .next t := by
  obtain ⟨f, hf⟩ := exec_eq i
  exact ⟨_, hf s⟩

/-- A command word is executed on the hardware as `exec` executes its instruction in any run. -/
theorem exec_eq_runWord {w : Word} {i : Instr} (hd : decode w = .ok i) (s : State) :
    ∃ h, runWord w s.toHardware = .next h ∧ exec i s = .next (s.withHardware h) := by
  obtain ⟨f, hf⟩ := exec_eq i
  exact ⟨f s.toHardware, by simp [runWord, hd, hf, hardwareOf], hf s⟩

theorem runWord_of_error {w : Word} {r : Reject} (hd : decode w = .error r) (h : Hardware) :
    runWord w h = .next (rejectWord w h) := by simp only [runWord, hd]

/-- Every command word completes (70_reset_and_hazards.md R255). -/
theorem runWord_answers (w : Word) (h : Hardware) : ∃ u, runWord w h = .next u := by
  cases hd : decode w with
  | error r => exact ⟨_, runWord_of_error hd h⟩
  | ok i =>
    obtain ⟨u, hu, -⟩ := exec_eq_runWord hd h.alone
    exact ⟨u, hu⟩

/-- Everything a command word can do to the hardware: what its instruction does, or the rejection. -/
theorem runWord_cases {w : Word} {h u : Hardware} (hw : runWord w h = .next u) :
    (∃ i, decode w = .ok i ∧ exec i h.alone = .next u.alone) ∨
    (∃ r, decode w = .error r ∧ u = rejectWord w h) := by
  cases hd : decode w with
  | error r =>
    rw [runWord_of_error hd] at hw
    injection hw with hw
    exact .inr ⟨r, rfl, hw.symm⟩
  | ok i =>
    obtain ⟨v, hv, he⟩ := exec_eq_runWord hd h.alone
    rw [alone_toHardware, hw] at hv
    injection hv with hv
    exact .inl ⟨i, rfl, hv ▸ he⟩

/-- Everything a host write can do to the hardware: load a data register, run a command word, append a byte to
`sin`, or nothing. -/
theorem hostWrite_cases {n : BitVec 8} {v : Block} {h u : Hardware} (hw : hostWrite n v h = .next u) :
    (∃ r : Reg, u = h.setReg r v) ∨ (n = 0x18 ∧ runWord (v.setWidth 32) h = .next u) ∨
    u = h.pushSin (v.setWidth 8) ∨ u = h := by
  unfold hostWrite at hw
  split at hw
  · injection hw with hw; exact .inl ⟨_, hw.symm⟩
  · split at hw
    · exact .inr (.inl ⟨‹_›, hw⟩)
    · split at hw
      · injection hw with hw; exact .inr (.inr (.inl hw.symm))
      · injection hw with hw; exact .inr (.inr (.inr hw.symm))

/-- A host read changes nothing but `sout`, whose head a read of `SOUT` removes. -/
theorem hostRead_snd (n : BitVec 8) (h : Hardware) :
    (hostRead n h).2 = h ∨ ∃ b rest, h.sout = b :: rest ∧ (hostRead n h).2 = { h with sout := rest } := by
  unfold hostRead
  repeat' split
  all_goals first
    | exact .inl rfl
    | (unfold popSout; split <;> first | exact .inl rfl | exact .inr ⟨_, _, ‹_›, rfl⟩)

/-- Everything a step can do: nothing when no move is left, else the next move on the hardware, the other moves
kept and what a read returned added to what has been observed. -/
theorem step_cases {s t : State} (h : step s = .next t) :
    (s.pending = [] ∧ t = s) ∨
    ∃ mv rest u v, s.pending = mv :: rest ∧ performMove mv s.toHardware = .next (u, v) ∧
      t = ⟨u, rest, s.observed ++ v.toList⟩ := by
  unfold step at h
  split at h
  · rename_i hp
    injection h with h
    exact .inl ⟨hp, h.symm⟩
  · rename_i mv rest hp
    cases hm : performMove mv s.toHardware with
    | next p =>
      rw [hm] at h
      injection h with h
      exact .inr ⟨mv, rest, p.1, p.2, hp, hm, h.symm⟩
    | fault r => exact nomatch r
    | refused r => rw [hm] at h; exact absurd h (by simp [afterMove])

theorem finishBlock_eq_done {rd : Reg} {r : StepResult} {h u : Hardware} :
    finishBlock rd r h = .done u ↔ ∃ y m', r = .ok (y, m') ∧ u = { h.setReg rd y with m := m' } := by
  cases r with
  | error e => simp [finishBlock]
  | ok p => obtain ⟨y, m'⟩ := p; simp [finishBlock, eq_comm]

theorem finishBlock_eq_fails {rd : Reg} {r : StepResult} {h u : Hardware} {e : Err} :
    finishBlock rd r h = .fails e u ↔ r = .error e ∧ u = h := by
  cases r with
  | error e' => simp [finishBlock, eq_comm]
  | ok p => obtain ⟨y, m'⟩ := p; simp [finishBlock]

theorem finishMessage_eq_done {out : List Block → List Byte} {r : Except Err (List Block × ModeUnit)}
    {h u : Hardware} :
    finishMessage out r h = .done u ↔
      ∃ ys m', r = .ok (ys, m') ∧ u = { h.putSout (out ys) with m := m', mv := false } := by
  cases r with
  | error e => simp [finishMessage]
  | ok p => obtain ⟨ys, m'⟩ := p; simp [finishMessage, eq_comm]

theorem finishMessage_eq_fails {out : List Block → List Byte} {r : Except Err (List Block × ModeUnit)}
    {h u : Hardware} {e : Err} :
    finishMessage out r h = .fails e u ↔ r = .error e ∧ u = h := by
  cases r with
  | error e' => simp [finishMessage, eq_comm]
  | ok p => obtain ⟨ys, m'⟩ := p; simp [finishMessage]

theorem ctrStep_error {E : Block → Block} {m : ModeUnit} {x : Block} {e : Err} (h : ctrStep E m x = .error e) :
    e = .ctrovf := by
  unfold ctrStep at h
  split at h
  · injection h with h; exact h.symm
  · exact absurd h (by simp)

theorem encStep_error {E : Block → Block} {m : ModeUnit} {x : Block} {e : Err} (h : encStep E m x = .error e) :
    e = .ctrovf := by
  cases hm : m.mode <;> simp only [encStep, hm, reduceCtorEq] at h
  exact ctrStep_error h

theorem decStep_error {E D : Block → Block} {m : ModeUnit} {x : Block} {e : Err}
    (h : decStep E D m x = .error e) : e = .unimpl ∨ e = .ctrovf := by
  cases hm : m.mode <;> simp only [decStep, hm, reduceCtorEq, Except.error.injEq] at h
  · exact .inl h.symm
  · exact .inr (ctrStep_error h)

theorem runBlocks_error {f : ModeUnit → Block → StepResult} (P : Err → Prop)
    (hf : ∀ m x e, f m x = .error e → P e) {m : ModeUnit} {xs : List Block} {e : Err}
    (h : runBlocks f m xs = .error e) : P e := by
  induction xs generalizing m with
  | nil => exact absurd h (by simp [runBlocks])
  | cons x xs ih =>
    simp only [runBlocks] at h
    split at h
    · rename_i e' h1
      injection h with h; subst h
      exact hf m x _ h1
    · split at h
      · rename_i e' h2
        injection h with h; subst h
        exact ih h2
      · exact absurd h (by simp)

/-- The errors a message instruction raises with its message already taken (44_modes_stream.md R199). -/
def TakesMessage (i : Instr) (e : Err) : Prop := isMessage i ∧ (e = .unimpl ∨ e = .format ∨ e = .ctrovf)

/-- What an instruction does when every check passes, before `ERR <- 0`: the hardware `u` it leaves from `h`. -/
def Effect (i : Instr) (h u : Hardware) : Prop :=
  match i with
  | .gfMul rd rs1 rs2 => u = h.setReg rd ((gfmul (h.reg8 rs1) (h.reg8 rs2)).setWidth 128)
  | .aKey rs1 => h.locked .a = false ∧ u = { h with ark := aKeySched (h.reg rs1), akv := true }
  | .aEnc rd rs1 => h.akv = true ∧ u = h.setReg rd (aEnc h.ark (h.reg rs1))
  | .aDec rd rs1 => h.akv = true ∧ u = h.setReg rd (aDec Config.adec h.ark (h.reg rs1))
  | .aRdk rd idx => h.akv = true ∧ ∃ hi : idx.val < 11, u = h.setReg rd h.ark[idx.val]
  | .bKey rs1 =>
    h.locked .b = false ∧ widerThan 64 (h.reg rs1) = false ∧
      u = { h with bsk := bKeySched (h.reg64 rs1), bkv := true }
  | .bEnc rd rs1 => h.bkv = true ∧ u = h.setReg rd ((bEnc h.bsk (h.reg64 rs1)).setWidth 128)
  | .bDec rd rs1 => h.bkv = true ∧ u = h.setReg rd ((bDec h.bsk (h.reg64 rs1)).setWidth 128)
  | .bRdk rd idx => h.bkv = true ∧ u = h.setReg rd (h.bsk[idx].setWidth 128)
  | .mInit mode ciph rs1 =>
    h.keyValid ciph = true ∧ ivTooWide mode ciph (h.reg rs1) = false ∧
      u = { h with m := initUnit mode ciph (h.reg rs1), mv := true }
  | .mEncb rd rs1 =>
    h.mv = true ∧ ∃ y m', h.encStep h.m (lowBlock h.m.ciph (h.reg rs1)) = .ok (y, m') ∧
      u = { h.setReg rd y with m := m' }
  | .mDecb rd rs1 =>
    h.mv = true ∧ ∃ y m', h.decStep h.m (lowBlock h.m.ciph (h.reg rs1)) = .ok (y, m') ∧
      u = { h.setReg rd y with m := m' }
  | .mEncs =>
    h.mv = true ∧ h.m.ctrWouldOverflow (blockCount h.sin.length (Config.bwB h.m.ciph)) = false ∧
      ∃ ys m', runBlocks h.encStep h.m (messageBlocks h.m h.sin) = .ok (ys, m') ∧
        u = { h.takeSin.putSout (hexOut h.m.ciph ys) with m := m', mv := false }
  | .mDecs =>
    h.mv = true ∧ h.m.mode ≠ .cfi ∧ h.sin.length % Config.hw h.m.ciph = 0 ∧
      ∃ ns, parseHex h.sin = some ns ∧ h.m.ctrWouldOverflow (ns.length / Config.hw h.m.ciph) = false ∧
        ∃ ys m', runBlocks h.decStep h.m (hexBlocks (Config.hw h.m.ciph) ns) = .ok (ys, m') ∧
          u = { h.takeSin.putSout (textOut h.m.ciph ys) with m := m', mv := false }
  | .mEnd => u = { h with mv := false }

/-- Everything an instruction can do (30_encoding.md R75): refuse because the core is fatal, have its effect,
or record an error over the state before it (over the state with `sin` taken, for a message instruction that has
taken its message). -/
theorem exec_cases {i : Instr} {s t : State} (h : exec i s = .next t) :
    (s.fatal = true ∧ t = s.raised .fatald (encode i)) ∨
    (s.fatal = false ∧ ∃ u, Effect i s.toHardware u ∧ t = s.withHardware (succeed u)) ∨
    (s.fatal = false ∧ ∃ e u,
      ((¬ TakesMessage i e ∧ u = s.toHardware) ∨ (TakesMessage i e ∧ u = s.takeSin)) ∧
      t = s.withHardware (raise e (encode i) u)) := by
  cases i <;> simp only [exec] at h <;> rcases command_cases h with hc | ⟨hf, u, hb, rfl⟩ | ⟨hf, e, u, hb, rfl⟩
  all_goals first
    | exact .inl hc
    | skip
  all_goals try simp only [failIf_eq_done, failIf_eq_fails, finishBlock_eq_done, finishBlock_eq_fails,
      Completion.done.injEq, reduceCtorEq, Bool.not_eq_false', and_false, or_false] at hb
  case gfMul.inr.inl => exact .inr (.inl ⟨hf, _, hb.symm, rfl⟩)
  case aKey.inr.inl => exact .inr (.inl ⟨hf, _, ⟨hb.1, hb.2.symm⟩, rfl⟩)
  case aKey.inr.inr => exact .inr (.inr ⟨hf, _, _, .inl ⟨by simp [TakesMessage, isMessage], hb.2.2.symm⟩, rfl⟩)
  case aEnc.inr.inl => exact .inr (.inl ⟨hf, _, ⟨hb.1, hb.2.symm⟩, rfl⟩)
  case aEnc.inr.inr => exact .inr (.inr ⟨hf, _, _, .inl ⟨by simp [TakesMessage, isMessage], hb.2.2.symm⟩, rfl⟩)
  case aDec.inr.inl => exact .inr (.inl ⟨hf, _, ⟨hb.1, hb.2.symm⟩, rfl⟩)
  case aDec.inr.inr => exact .inr (.inr ⟨hf, _, _, .inl ⟨by simp [TakesMessage, isMessage], hb.2.2.symm⟩, rfl⟩)
  case aRdk.inr.inl =>
    split at hb
    · rename_i hi
      simp only [failIf_eq_done, Bool.not_eq_false', Completion.done.injEq] at hb
      exact .inr (.inl ⟨hf, _, ⟨hb.1, hi, hb.2.symm⟩, rfl⟩)
    · exact absurd hb (by simp)
  case aRdk.inr.inr =>
    split at hb
    · simp only [failIf_eq_fails, reduceCtorEq, and_false, or_false] at hb
      exact .inr (.inr ⟨hf, _, _, .inl ⟨by simp [TakesMessage, isMessage], hb.2.2.symm⟩, rfl⟩)
    · simp only [Completion.fails.injEq] at hb
      exact .inr (.inr ⟨hf, _, _, .inl ⟨by simp [TakesMessage, isMessage], hb.2.symm⟩, rfl⟩)
  case bKey.inr.inl => exact .inr (.inl ⟨hf, _, ⟨hb.1, hb.2.1, hb.2.2.symm⟩, rfl⟩)
  case bKey.inr.inr =>
    rcases hb with hb | ⟨-, hb⟩
    · exact .inr (.inr ⟨hf, _, _, .inl ⟨by simp [TakesMessage, isMessage], hb.2.2.symm⟩, rfl⟩)
    · exact .inr (.inr ⟨hf, _, _, .inl ⟨by simp [TakesMessage, isMessage], hb.2.2.symm⟩, rfl⟩)
  case bEnc.inr.inl => exact .inr (.inl ⟨hf, _, ⟨hb.1, hb.2.symm⟩, rfl⟩)
  case bEnc.inr.inr => exact .inr (.inr ⟨hf, _, _, .inl ⟨by simp [TakesMessage, isMessage], hb.2.2.symm⟩, rfl⟩)
  case bDec.inr.inl => exact .inr (.inl ⟨hf, _, ⟨hb.1, hb.2.symm⟩, rfl⟩)
  case bDec.inr.inr => exact .inr (.inr ⟨hf, _, _, .inl ⟨by simp [TakesMessage, isMessage], hb.2.2.symm⟩, rfl⟩)
  case bRdk.inr.inl => exact .inr (.inl ⟨hf, _, ⟨hb.1, hb.2.symm⟩, rfl⟩)
  case bRdk.inr.inr => exact .inr (.inr ⟨hf, _, _, .inl ⟨by simp [TakesMessage, isMessage], hb.2.2.symm⟩, rfl⟩)
  case mInit.inr.inl => exact .inr (.inl ⟨hf, _, ⟨hb.1, hb.2.1, hb.2.2.symm⟩, rfl⟩)
  case mInit.inr.inr =>
    rcases hb with hb | ⟨-, hb⟩
    · exact .inr (.inr ⟨hf, _, _, .inl ⟨by simp [TakesMessage, isMessage], hb.2.2.symm⟩, rfl⟩)
    · exact .inr (.inr ⟨hf, _, _, .inl ⟨by simp [TakesMessage, isMessage], hb.2.2.symm⟩, rfl⟩)
  case mEncb.inr.inl => exact .inr (.inl ⟨hf, _, hb, rfl⟩)
  case mEncb.inr.inr =>
    rcases hb with hb | ⟨-, -, hb⟩
    · exact .inr (.inr ⟨hf, _, _, .inl ⟨by simp [TakesMessage, isMessage], hb.2.2.symm⟩, rfl⟩)
    · exact .inr (.inr ⟨hf, _, _, .inl ⟨by simp [TakesMessage, isMessage], hb⟩, rfl⟩)
  case mDecb.inr.inl => exact .inr (.inl ⟨hf, _, hb, rfl⟩)
  case mDecb.inr.inr =>
    rcases hb with hb | ⟨-, -, hb⟩
    · exact .inr (.inr ⟨hf, _, _, .inl ⟨by simp [TakesMessage, isMessage], hb.2.2.symm⟩, rfl⟩)
    · exact .inr (.inr ⟨hf, _, _, .inl ⟨by simp [TakesMessage, isMessage], hb⟩, rfl⟩)
  case mEncs.inr.inl => exact .inr (.inl ⟨hf, _, ⟨hb.1, hb.2.1, finishMessage_eq_done.1 hb.2.2⟩, rfl⟩)
  case mEncs.inr.inr =>
    rcases hb with hb | ⟨-, hb | ⟨-, hb⟩⟩
    · exact .inr (.inr ⟨hf, _, _, .inl ⟨by simp [TakesMessage, ← hb.2.1], hb.2.2.symm⟩, rfl⟩)
    · exact .inr (.inr ⟨hf, _, _, .inr ⟨by simp [TakesMessage, isMessage, ← hb.2.1], hb.2.2.symm⟩, rfl⟩)
    · have he := runBlocks_error (· = .ctrovf) (fun _ _ _ h => encStep_error h) (finishMessage_eq_fails.1 hb).1
      exact .inr (.inr ⟨hf, _, _,
        .inr ⟨by simp [TakesMessage, isMessage, he], (finishMessage_eq_fails.1 hb).2⟩, rfl⟩)
  case mDecs.inr.inl =>
    obtain ⟨h1, h2, h3, h4⟩ := hb
    cases hp : parseHex s.sin with
    | none => rw [hp] at h4; simp [decodeMessage] at h4
    | some ns =>
      rw [hp] at h4
      simp only [decodeMessage, failIf_eq_done] at h4
      refine .inr (.inl ⟨hf, _, ⟨h1, by simpa using h2, by simpa using h3, ns, hp, h4.1, ?_⟩, rfl⟩)
      exact finishMessage_eq_done.1 h4.2
  case mDecs.inr.inr =>
    rcases hb with hb | ⟨-, hb | ⟨-, hb | ⟨-, hb⟩⟩⟩
    · exact .inr (.inr ⟨hf, _, _, .inl ⟨by simp [TakesMessage, ← hb.2.1], hb.2.2.symm⟩, rfl⟩)
    · exact .inr (.inr ⟨hf, _, _, .inr ⟨by simp [TakesMessage, isMessage, ← hb.2.1], hb.2.2.symm⟩, rfl⟩)
    · exact .inr (.inr ⟨hf, _, _, .inr ⟨by simp [TakesMessage, isMessage, ← hb.2.1], hb.2.2.symm⟩, rfl⟩)
    · refine .inr (.inr ⟨hf, e, u, .inr ?_, rfl⟩)
      cases hp : parseHex s.sin with
      | none =>
        rw [hp] at hb
        simp only [decodeMessage, Completion.fails.injEq] at hb
        exact ⟨by simp [TakesMessage, isMessage, ← hb.1], hb.2.symm⟩
      | some ns =>
        rw [hp] at hb
        simp only [decodeMessage, failIf_eq_fails] at hb
        rcases hb with hb | ⟨-, hb⟩
        · exact ⟨by simp [TakesMessage, isMessage, ← hb.2.1], hb.2.2.symm⟩
        · have he := runBlocks_error (fun e => e = .unimpl ∨ e = .ctrovf) (fun _ _ _ h => decStep_error h)
            (finishMessage_eq_fails.1 hb).1
          refine ⟨?_, (finishMessage_eq_fails.1 hb).2⟩
          rcases he with rfl | rfl <;> simp [TakesMessage, isMessage]
  case mEnd.inr.inl => exact .inr (.inl ⟨hf, _, hb.symm, rfl⟩)

/-- A fatal core refuses every instruction (60_exceptions.md R215). -/
theorem exec_of_fatal (i : Instr) {s : State} (h : s.fatal = true) :
    exec i s = .next (s.raised .fatald (encode i)) := by
  cases i <;> exact command_of_fatal _ _ h

/-- An instruction whose checks pass has its effect and ends with `ERR` = 0 (60_exceptions.md R212). -/
theorem exec_of_effect {i : Instr} {s : State} {u : Hardware} (hf : s.fatal = false)
    (h : Effect i s.toHardware u) : exec i s = .next (s.withHardware (succeed u)) := by
  cases i <;> refine command_of_done _ _ hf ?_
  case gfMul => exact congrArg _ h.symm
  case aKey => rw [failIf_of_false h.1, h.2]
  case aEnc => rw [failIf_of_false (by simp [h.1]), h.2]
  case aDec => rw [failIf_of_false (by simp [h.1]), h.2]
  case aRdk =>
    obtain ⟨h1, h2, rfl⟩ := h
    simp only [h2, dif_pos]
    exact failIf_of_false (by simp [h1]) _ _ _
  case bKey => rw [failIf_of_false h.1, failIf_of_false h.2.1, h.2.2]
  case bEnc => rw [failIf_of_false (by simp [h.1]), h.2]
  case bDec => rw [failIf_of_false (by simp [h.1]), h.2]
  case bRdk => rw [failIf_of_false (by simp [h.1]), h.2]
  case mInit => rw [failIf_of_false (by simp [h.1]), failIf_of_false h.2.1, h.2.2]
  case mEncb => rw [failIf_of_false (by simp [h.1]), finishBlock_eq_done.2 h.2]
  case mDecb => rw [failIf_of_false (by simp [h.1]), finishBlock_eq_done.2 h.2]
  case mEncs =>
    rw [failIf_of_false (by simp [h.1]), failIf_of_false h.2.1, finishMessage_eq_done.2 h.2.2]
  case mDecs =>
    obtain ⟨h1, h2, h3, ns, h4, h5, h6⟩ := h
    rw [failIf_of_false (by simp [h1]), failIf_of_false (by simp [h2]), failIf_of_false (by simp [h3]), h4]
    simp only [decodeMessage]
    rw [failIf_of_false h5, finishMessage_eq_done.2 h6]
  case mEnd => exact congrArg _ h.symm

/-- An instruction that ends with `ERR` = 0 has had its effect. -/
theorem effect_of_err_eq_zero {i : Instr} {s t : State} (h : exec i s = .next t) (he : t.err = 0) :
    s.fatal = false ∧ ∃ u, Effect i s.toHardware u ∧ t = s.withHardware (succeed u) := by
  rcases exec_cases h with ⟨-, rfl⟩ | h | ⟨-, e, u, -, rfl⟩
  · exact absurd he (raise_err_ne_zero _ _ _)
  · exact h
  · exact absurd he (raise_err_ne_zero _ _ _)

end Sys2Proof.Machine
end

