-- ==== Sys2Proof/Laws/PerInstr.lean ====
section
/-!
SUPPORT. Laws/PerInstr.lean: a statement about every instruction as syntax, one lemma per constructor. Its word
has the opcode of its row and zeros in every field its format does not use (30_encoding.md R72, R73).
-/

namespace Sys2Proof.Laws.OpcodeField

/-- The `op` column of 30_encoding.md R73. -/
def opcodeOf : Instr → BitVec 8
  | .gfMul _ _ _ => 0x10
  | .aKey _ => 0x20
  | .aEnc _ _ => 0x21
  | .aDec _ _ => 0x22
  | .aRdk _ _ => 0x23
  | .bKey _ => 0x30
  | .bEnc _ _ => 0x31
  | .bDec _ _ => 0x32
  | .bRdk _ _ => 0x33
  | .mInit _ _ _ => 0x40
  | .mEncb _ _ => 0x41
  | .mDecb _ _ => 0x42
  | .mEncs => 0x43
  | .mDecs => 0x44
  | .mEnd => 0x45

/-- The `format` column of 30_encoding.md R73. -/
def formatOf : Instr → Format
  | .gfMul _ _ _ => .f3
  | .aKey _ => .f1
  | .aEnc _ _ => .f2
  | .aDec _ _ => .f2
  | .aRdk _ _ => .fk
  | .bKey _ => .f1
  | .bEnc _ _ => .f2
  | .bDec _ _ => .f2
  | .bRdk _ _ => .fk
  | .mInit _ _ _ => .fm
  | .mEncb _ _ => .f2
  | .mDecb _ _ => .f2
  | .mEncs => .f0
  | .mDecs => .f0
  | .mEnd => .f0

def Statement (i : Instr) : Prop :=
  (encode i).extractLsb' 24 8 = opcodeOf i ∧ (formatOf i).unusedZero (Fields.ofWord (encode i)) = true

/-- Reading the fields of an instruction's word back. -/
theorem statement_of_fields {i : Instr} (h1 : (encodeFields i).op = opcodeOf i)
    (h2 : (formatOf i).unusedZero (encodeFields i) = true) : Statement i := by
  have h := Fields.ofWord_toWord (encodeFields i)
  exact ⟨(congrArg Fields.op h).trans h1, by rw [encode, h]; exact h2⟩

theorem gfMul (rd rs1 rs2 : Reg) : Statement (.gfMul rd rs1 rs2) := statement_of_fields rfl rfl

theorem aKey (rs1 : Reg) : Statement (.aKey rs1) := statement_of_fields rfl rfl

theorem aEnc (rd rs1 : Reg) : Statement (.aEnc rd rs1) := statement_of_fields rfl rfl

theorem aDec (rd rs1 : Reg) : Statement (.aDec rd rs1) := statement_of_fields rfl rfl

theorem aRdk (rd : Reg) (idx : Fin 16) : Statement (.aRdk rd idx) := statement_of_fields rfl rfl

theorem bKey (rs1 : Reg) : Statement (.bKey rs1) := statement_of_fields rfl rfl

theorem bEnc (rd rs1 : Reg) : Statement (.bEnc rd rs1) := statement_of_fields rfl rfl

theorem bDec (rd rs1 : Reg) : Statement (.bDec rd rs1) := statement_of_fields rfl rfl

theorem bRdk (rd : Reg) (idx : Fin 16) : Statement (.bRdk rd idx) := statement_of_fields rfl rfl

theorem mInit (mode : Mode) (ciph : Cipher) (rs1 : Reg) : Statement (.mInit mode ciph rs1) := statement_of_fields rfl rfl

theorem mEncb (rd rs1 : Reg) : Statement (.mEncb rd rs1) := statement_of_fields rfl rfl

theorem mDecb (rd rs1 : Reg) : Statement (.mDecb rd rs1) := statement_of_fields rfl rfl

theorem mEncs : Statement .mEncs := statement_of_fields rfl rfl

theorem mDecs : Statement .mDecs := statement_of_fields rfl rfl

theorem mEnd : Statement .mEnd := statement_of_fields rfl rfl

end Sys2Proof.Laws.OpcodeField
end

