-- ==== Sys2Proof/Laws/Stream.lean ====
section
/-!
SUPPORT. Laws/Stream.lean: the pieces of a message operation (44_modes_stream.md): chunks, hex strings, the
trailing zero run, and what the steps and the loop over the blocks keep and when they go on.
-/

namespace Sys2Proof.Machine

theorem blockCount_eq_zero {n b : Nat} (hb : 0 < b) : blockCount n b = 0 ↔ n = 0 := by
  unfold blockCount
  rw [Nat.div_eq_zero_iff]; omega

theorem length_chunks (pad : Byte) (b : Nat) (msg : List Byte) :
    (chunks pad b msg).length = blockCount msg.length b := by simp [chunks]

theorem length_of_mem_chunks {pad : Byte} {b : Nat} {msg c : List Byte} (h : c ∈ chunks pad b msg) :
    c.length = b := by
  simp only [chunks, List.mem_map, List.mem_range] at h
  obtain ⟨i, -, rfl⟩ := h
  simp only [padChunk, List.length_append, List.length_replicate, List.length_take, List.length_drop]
  omega

/-- A message of more than one block: its first block, then the chunks of the rest. -/
theorem chunks_of_le (pad : Byte) {b : Nat} (hb : 0 < b) {msg : List Byte} (h : b ≤ msg.length) :
    chunks pad b msg = msg.take b :: chunks pad b (msg.drop b) := by
  have hc : blockCount msg.length b = blockCount (msg.drop b).length b + 1 := by
    simp only [blockCount, List.length_drop]
    rw [← Nat.add_div_right _ hb]
    congr 1
    omega
  rw [chunks, hc, List.range_succ_eq_map]
  simp only [List.map_cons, List.map_map, chunks, Nat.zero_mul, List.drop_zero]
  congr 1
  · simp [padChunk, h]
  · apply List.map_congr_left
    intro i _
    simp only [Function.comp_apply, List.drop_drop]
    congr 3
    rw [Nat.succ_mul, Nat.add_comm]

theorem chunks_nil (pad : Byte) {b : Nat} (hb : 0 < b) : chunks pad b [] = [] := by
  have : blockCount 0 b = 0 := (blockCount_eq_zero hb).2 rfl
  simp [chunks, this]

theorem chunks_of_lt (pad : Byte) {b : Nat} {msg : List Byte} (h0 : msg ≠ []) (h : msg.length < b) :
    chunks pad b msg = [msg ++ List.replicate (b - msg.length) pad] := by
  have hpos := List.length_pos_of_ne_nil h0
  have hc : blockCount msg.length b = 1 := by
    rw [blockCount, Nat.div_eq_iff (by omega)]; omega
  simp [chunks, hc, padChunk, List.take_of_length_le (Nat.le_of_lt h), Nat.min_eq_right (Nat.le_of_lt h)]

/-- The chunks together are the message with fewer than a block of padding bytes after it. -/
theorem flatten_chunks (pad : Byte) {b : Nat} (hb : 0 < b) (msg : List Byte) :
    ∃ p, p < b ∧ (chunks pad b msg).flatten = msg ++ List.replicate p pad := by
  induction hn : msg.length using Nat.strong_induction_on generalizing msg with
  | _ n ih =>
    by_cases h0 : msg = []
    · exact ⟨0, hb, by simp [h0, chunks_nil pad hb]⟩
    · by_cases hlt : msg.length < b
      · have := List.length_pos_of_ne_nil h0
        exact ⟨b - msg.length, by omega, by simp [chunks_of_lt pad h0 hlt]⟩
      · obtain ⟨p, hp, he⟩ := ih (msg.drop b).length (by simp; omega) (msg.drop b) rfl
        refine ⟨p, hp, ?_⟩
        rw [chunks_of_le pad hb (by omega), List.flatten_cons, he, ← List.append_assoc, List.take_append_drop]

theorem strip0_append_zeros (bs : List Byte) (n : Nat) : strip0 (bs ++ List.replicate n 0) = strip0 bs := by
  simp [strip0]

theorem strip0_of_last {bs : List Byte} (h : bs.getLast? ≠ some 0) : strip0 bs = bs := by
  induction bs using List.reverseRecOn with
  | nil => rfl
  | append_singleton bs b _ =>
    have : (b == 0) = false := by simpa using h
    simp only [strip0, List.reverse_append, List.reverse_cons, List.reverse_nil, List.nil_append,
      List.singleton_append, List.dropWhile_cons, this]
    simp

theorem hexValue_hexDigit (n : BitVec 4) : hexValue (hexDigit n) = some n := by revert n; decide

theorem parseHex_append (xs ys : List Byte) (ns ms : List (BitVec 4)) (hx : parseHex xs = some ns)
    (hy : parseHex ys = some ms) : parseHex (xs ++ ys) = some (ns ++ ms) := by
  induction xs generalizing ns with
  | nil => simp [parseHex] at hx; simp [← hx, hy]
  | cons x xs ih =>
    simp only [parseHex] at hx
    split at hx
    · rename_i n ks h1 h2
      injection hx with hx; subst hx
      simp [parseHex, h1, ih _ h2]
    · exact absurd hx (by simp)

/-- Parsing succeeds exactly on strings of digits, and gives one nibble per character. -/
theorem parseHex_eq_none {bs : List Byte} : parseHex bs = none ↔ ∃ ch ∈ bs, hexValue ch = none := by
  induction bs with
  | nil => simp [parseHex]
  | cons b bs ih =>
    simp only [parseHex]
    cases h1 : hexValue b with
    | none => simp [h1]
    | some n =>
      cases h2 : parseHex bs with
      | none => simp [h1, ← ih, h2]
      | some ns => simp [h1, ← ih, h2]

theorem length_parseHex {bs : List Byte} {ns : List (BitVec 4)} (h : parseHex bs = some ns) :
    ns.length = bs.length := by
  induction bs generalizing ns with
  | nil => simp [parseHex] at h; simp [h]
  | cons b bs ih =>
    simp only [parseHex] at h
    split at h
    · rename_i n ks h1 h2
      injection h with h; subst h
      simp [ih h2]
    · exact absurd h (by simp)

/-- The nibbles of bytes, high one first. -/
def nibbles (bs : List Byte) : List (BitVec 4) := bs.flatMap fun b => [b.extractLsb' 4 4, b.extractLsb' 0 4]

theorem parseHex_digits (bs : List Byte) :
    parseHex (bs.flatMap fun b => [hexDigit (b.extractLsb' 4 4), hexDigit (b.extractLsb' 0 4)]) =
      some (nibbles bs) := by
  induction bs with
  | nil => rfl
  | cons b bs ih =>
    simp only [List.flatMap_cons, List.cons_append, List.nil_append, parseHex, hexValue_hexDigit, ih, nibbles]

theorem length_hexenc (v : Block) (n : Nat) : (hexenc v n).length = 2 * n := by
  simp [hexenc, toBytes, List.length_flatMap, Function.comp_def, Nat.mul_comm]

theorem blockOfNibbles_nibbles (bs : List Byte) : blockOfNibbles (nibbles bs) = fromBytes bs := by
  induction bs using List.reverseRecOn with
  | nil => rfl
  | append_singleton bs b ih =>
    rw [fromBytes_concat, ← ih]
    simp only [blockOfNibbles, nibbles, List.flatMap_append, List.flatMap_cons, List.flatMap_nil,
      List.append_nil, List.foldl_append, List.foldl_cons, List.foldl_nil]
    generalize List.foldl _ 0 _ = acc
    apply BitVec.eq_of_getLsbD_eq
    intro i hi
    simp only [BitVec.getLsbD_or, BitVec.getLsbD_shiftLeft, BitVec.getLsbD_setWidth, BitVec.getLsbD_extractLsb']
    by_cases h4 : i < 4
    · have : i < 8 := by omega
      simp [h4, this, hi]
    · by_cases h8 : i < 8
      · have h5 : i - 4 < 4 := by omega
        have h6 : 4 + (i - 4) = i := by omega
        simp [h4, h8, hi, h5, h6]; omega
      · have h5 : ¬ i - 4 < 4 := by omega
        have h7 : i - 4 - 4 = i - 8 := by omega
        have hb : b.getLsbD i = false := BitVec.getLsbD_of_ge _ _ (by omega)
        simp [h4, h8, hi, h5, h7, hb]; omega

theorem length_hexBlocks (hw : Nat) (ns : List (BitVec 4)) : (hexBlocks hw ns).length = ns.length / hw := by
  simp [hexBlocks]

theorem hexBlocks_nil (hw : Nat) : hexBlocks hw [] = [] := by simp [hexBlocks]

theorem hexBlocks_append {hw : Nat} (hpos : 0 < hw) {l : List (BitVec 4)} (hl : l.length = hw)
    (ns : List (BitVec 4)) : hexBlocks hw (l ++ ns) = blockOfNibbles l :: hexBlocks hw ns := by
  have hc : (l ++ ns).length / hw = ns.length / hw + 1 := by
    rw [List.length_append, hl, Nat.add_comm, Nat.add_div_right _ hpos]
  rw [hexBlocks, hc, List.range_succ_eq_map]
  simp only [List.map_cons, List.map_map, hexBlocks, Nat.zero_mul, List.drop_zero]
  congr 1
  · simp [← hl]
  · apply List.map_congr_left
    intro i _
    simp only [Function.comp_apply]
    congr 2
    rw [Nat.succ_mul, Nat.add_comm, ← List.drop_drop]
    simp [← hl]

theorem length_nibbles (bs : List Byte) : (nibbles bs).length = 2 * bs.length := by
  simp [nibbles, List.length_flatMap, Nat.mul_comm]

theorem hexOut_eq (c : Cipher) (ys : List Block) :
    hexOut c ys = (ys.flatMap (toBytes (Config.bwB c))).flatMap
      fun b => [hexDigit (b.extractLsb' 4 4), hexDigit (b.extractLsb' 0 4)] := by
  simp [hexOut, hexenc, List.flatMap_assoc]

/-- Reading the hex string of some blocks gives their nibbles. -/
theorem parseHex_hexOut (c : Cipher) (ys : List Block) :
    parseHex (hexOut c ys) = some (nibbles (ys.flatMap (toBytes (Config.bwB c)))) := by
  rw [hexOut_eq, parseHex_digits]

theorem hexBlocks_nibbles (c : Cipher) (ys : List Block) :
    hexBlocks (Config.hw c) (nibbles (ys.flatMap (toBytes (Config.bwB c)))) = ys.map (lowBlock c) := by
  have hpos : 0 < Config.hw c := by cases c <;> decide
  have hhw : 2 * Config.bwB c = Config.hw c := by cases c <;> rfl
  have h8 : 8 * Config.bwB c = Config.bw c := by cases c <;> rfl
  induction ys with
  | nil => exact hexBlocks_nil _
  | cons y ys ih =>
    have : nibbles ((y :: ys).flatMap (toBytes (Config.bwB c))) =
        nibbles (toBytes (Config.bwB c) y) ++ nibbles (ys.flatMap (toBytes (Config.bwB c))) := by
      simp [nibbles]
    rw [this, hexBlocks_append hpos (by rw [length_nibbles, length_toBytes, hhw]), ih, blockOfNibbles_nibbles,
      fromBytes_toBytes, h8]
    rfl

theorem getLsbD_blockOfNibbles (ns : List (BitVec 4)) (i : Nat) (h : 4 * ns.length ≤ i) :
    (blockOfNibbles ns).getLsbD i = false := by
  induction ns using List.reverseRecOn generalizing i with
  | nil => simp [blockOfNibbles]
  | append_singleton ns n ih =>
    simp only [List.length_append, List.length_singleton] at h
    have : blockOfNibbles (ns ++ [n]) = (blockOfNibbles ns <<< 4) ||| n.setWidth 128 := by simp [blockOfNibbles]
    rw [this]
    simp [ih (i - 4) (by omega), BitVec.getLsbD_of_ge n i (by omega)]

/-- A block has no bit above its cipher's width. -/
theorem lowBlock_eq_self {c : Cipher} {v : Block} (h : ∀ i, Config.bw c ≤ i → v.getLsbD i = false) :
    lowBlock c v = v := by
  apply BitVec.eq_of_getLsbD_eq
  intro i hi
  simp only [lowBlock, BitVec.getLsbD_setWidth, hi, decide_true, Bool.true_and]
  by_cases hb : i < Config.bw c
  · simp [hb]
  · simp [hb, h i (by omega)]

theorem lowBlock_of_mem_hexBlocks {c : Cipher} {ns : List (BitVec 4)} {x : Block}
    (hx : x ∈ hexBlocks (Config.hw c) ns) : lowBlock c x = x := by
  simp only [hexBlocks, List.mem_map, List.mem_range] at hx
  obtain ⟨i, -, rfl⟩ := hx
  apply lowBlock_eq_self
  intro j hj
  apply getLsbD_blockOfNibbles
  have : Config.bw c = 4 * Config.hw c := by cases c <;> rfl
  simp only [List.length_take, List.length_drop]
  omega

theorem lowBlock_of_mem_messageBlocks {m : ModeUnit} {msg : List Byte} {x : Block}
    (hx : x ∈ messageBlocks m msg) : lowBlock m.ciph x = x := by
  simp only [messageBlocks, List.mem_map] at hx
  obtain ⟨ch, hch, rfl⟩ := hx
  exact lowBlock_fromBytes _ _ (length_of_mem_chunks hch)

theorem lowBlock_xor (c : Cipher) (x y : Block) : lowBlock c (x ^^^ y) = lowBlock c x ^^^ lowBlock c y := by
  simp [lowBlock]

theorem lowBlock_cipherEnc (s : Hardware) (c : Cipher) (x : Block) :
    lowBlock c (s.cipherEnc c x) = s.cipherEnc c x := by
  cases c
  · exact lowBlock_a _
  · simp [lowBlock, Hardware.cipherEnc, Config.bw]

theorem lowBlock_cipherDec (s : Hardware) (c : Cipher) (x : Block) :
    lowBlock c (s.cipherDec c x) = s.cipherDec c x := by
  cases c
  · exact lowBlock_a _
  · simp [lowBlock, Hardware.cipherDec, Config.bw]

/-- What one mode step can do to the mode unit, in either direction. -/
structure StepFrame (m m' : ModeUnit) : Prop where
  mode : m'.mode = m.mode
  ciph : m'.ciph = m.ciph
  nonce : m'.nonce = m.nonce
  chain : m.mode = .ecb ∨ m.mode = .ctr → m'.chain = m.chain
  ctr : m.mode ≠ .ctr → m'.ctr = m.ctr
  ctr_next : m.mode = .ctr → m.ctrFull = false ∧ m'.ctr = m.ctr + 1

theorem ctrStep_ok {E : Block → Block} {m m' : ModeUnit} {x y : Block} (h : ctrStep E m x = .ok (y, m')) :
    m.ctrFull = false ∧ y = x ^^^ E m.ctrBlock ∧ m' = { m with ctr := m.ctr + 1 } := by
  unfold ctrStep at h
  split at h
  · exact absurd h (by simp)
  · rename_i hf
    injection h with h; injection h with h1 h2
    exact ⟨by simpa using hf, h1.symm, h2.symm⟩

theorem encStep_frame {E : Block → Block} {m m' : ModeUnit} {x y : Block} (h : encStep E m x = .ok (y, m')) :
    StepFrame m m' := by
  cases hm : m.mode <;> simp only [encStep, hm] at h
  case ctr => obtain ⟨h1, -, rfl⟩ := ctrStep_ok h; constructor <;> simp_all
  all_goals injection h with h; injection h with h1 h2; subst h2; constructor <;> simp_all

theorem decStep_frame {E D : Block → Block} {m m' : ModeUnit} {x y : Block}
    (h : decStep E D m x = .ok (y, m')) : StepFrame m m' := by
  cases hm : m.mode <;> simp only [decStep, hm] at h
  case ctr => obtain ⟨h1, -, rfl⟩ := ctrStep_ok h; constructor <;> simp_all
  case cfi => exact absurd h (by simp)
  all_goals injection h with h; injection h with h1 h2; subst h2; constructor <;> simp_all

theorem ctrFull_eq_false {m : ModeUnit} (h : m.ctr.toNat < 2 ^ Config.cw m.ciph - 1) : m.ctrFull = false := by
  have hlt : m.ctr.toNat < 2 ^ Config.cw m.ciph := by omega
  simp only [ModeUnit.ctrFull, beq_eq_false_iff_ne, ne_eq, ← BitVec.toNat_inj, BitVec.toNat_setWidth,
    BitVec.toNat_allOnes, Nat.mod_eq_of_lt hlt]
  omega

theorem ctr_succ_toNat {m : ModeUnit} (h : m.ctr.toNat < 2 ^ Config.cw m.ciph - 1) :
    (m.ctr + 1).toNat = m.ctr.toNat + 1 := by
  have : 2 ^ Config.cw m.ciph ≤ 2 ^ 64 := Nat.pow_le_pow_right (by omega) (by cases m.ciph <;> decide)
  rw [BitVec.toNat_add, Nat.mod_eq_of_lt]
  · rfl
  · simp; omega

/-- Enciphering one block fails only at the last counter value. -/
theorem encStep_answers (E : Block → Block) (m : ModeUnit) (x : Block)
    (h : m.mode = .ctr → m.ctrFull = false) : ∃ y m', encStep E m x = .ok (y, m') := by
  cases hm : m.mode <;> simp [encStep, ctrStep, hm]
  simp [h hm]

/-- Deciphering one block fails only in mode `cfi` and at the last counter value. -/
theorem decStep_answers (E D : Block → Block) (m : ModeUnit) (x : Block) (hc : m.mode ≠ .cfi)
    (h : m.mode = .ctr → m.ctrFull = false) : ∃ y m', decStep E D m x = .ok (y, m') := by
  cases hm : m.mode <;> simp [decStep, ctrStep, hm]
  · exact hc hm
  · simp [h hm]

/-- A loop whose step goes on from every unit that meets `P` runs to its end. -/
theorem runBlocks_answers {f : ModeUnit → Block → StepResult} (P : Nat → ModeUnit → Prop)
    (hf : ∀ n m x, P (n + 1) m → ∃ y m', f m x = .ok (y, m') ∧ P n m') :
    ∀ (xs : List Block) (m : ModeUnit), P xs.length m → ∃ ys m', runBlocks f m xs = .ok (ys, m')
  | [], m, _ => ⟨[], m, rfl⟩
  | x :: xs, m, h => by
    obtain ⟨y, m', h1, h2⟩ := hf xs.length m x h
    obtain ⟨ys, m'', h3⟩ := runBlocks_answers P hf xs m' h2
    exact ⟨y :: ys, m'', by simp [runBlocks, h1, h3]⟩

theorem runBlocks_cons {f : ModeUnit → Block → StepResult} {m m'' : ModeUnit} {x : Block} {xs ys : List Block}
    (h : runBlocks f m (x :: xs) = .ok (ys, m'')) :
    ∃ y m' zs, f m x = .ok (y, m') ∧ runBlocks f m' xs = .ok (zs, m'') ∧ ys = y :: zs := by
  simp only [runBlocks] at h
  split at h
  · exact absurd h (by simp)
  · rename_i y m' h1
    split at h
    · exact absurd h (by simp)
    · rename_i zs m3 h2
      injection h with h; injection h with ha hb
      exact ⟨y, m', zs, h1, by rw [h2, hb], ha.symm⟩

theorem length_runBlocks {f : ModeUnit → Block → StepResult} {m m' : ModeUnit} {xs ys : List Block}
    (h : runBlocks f m xs = .ok (ys, m')) : ys.length = xs.length := by
  induction xs generalizing m ys with
  | nil => simp [runBlocks] at h; simp [← h.1]
  | cons x xs ih =>
    obtain ⟨y, m1, zs, -, h2, rfl⟩ := runBlocks_cons h
    simp [ih h2]

/-- What every step of the loop keeps, the loop keeps. -/
theorem runBlocks_keeps {f : ModeUnit → Block → StepResult} (P : ModeUnit → Prop) {xs : List Block}
    (hf : ∀ m x y m', x ∈ xs → P m → f m x = .ok (y, m') → P m') {m m' : ModeUnit} {ys : List Block} (hm : P m)
    (h : runBlocks f m xs = .ok (ys, m')) : P m' := by
  induction xs generalizing m ys with
  | nil => simp [runBlocks] at h; rw [← h.2]; exact hm
  | cons x xs ih =>
    obtain ⟨y, m1, zs, h1, h2, -⟩ := runBlocks_cons h
    exact ih (fun m x y m' hx => hf m x y m' (List.mem_cons_of_mem _ hx))
      (hf m x y m1 List.mem_cons_self hm h1) h2

/-- The counter stays below its last value over the blocks still to come. -/
theorem runBlocks_enc_answers (s : Hardware) (m : ModeUnit) (xs : List Block)
    (h : m.ctrWouldOverflow xs.length = false) : ∃ ys m', runBlocks s.encStep m xs = .ok (ys, m') := by
  refine runBlocks_answers (fun n m => m.ctrWouldOverflow n = false) ?_ xs m h
  intro n m x hm
  simp only [ModeUnit.ctrWouldOverflow, Bool.and_eq_false_imp, beq_iff_eq, decide_eq_false_iff_not, not_lt]
    at hm ⊢
  have hfull : m.mode = .ctr → m.ctrFull = false := fun hc => ctrFull_eq_false (by have := hm hc; omega)
  obtain ⟨y, m', he⟩ := encStep_answers (s.cipherEnc m.ciph) m x hfull
  refine ⟨y, m', he, fun hc => ?_⟩
  have fr := encStep_frame he
  rw [fr.mode] at hc
  have := hm hc
  rw [fr.ciph, (fr.ctr_next hc).2, ctr_succ_toNat (by omega)]
  omega

theorem runBlocks_dec_answers (s : Hardware) (m : ModeUnit) (xs : List Block) (hc : m.mode ≠ .cfi)
    (h : m.ctrWouldOverflow xs.length = false) : ∃ ys m', runBlocks s.decStep m xs = .ok (ys, m') := by
  refine runBlocks_answers (fun n m => m.mode ≠ .cfi ∧ m.ctrWouldOverflow n = false) ?_ xs m ⟨hc, h⟩
  intro n m x ⟨hcfi, hm⟩
  simp only [ModeUnit.ctrWouldOverflow, Bool.and_eq_false_imp, beq_iff_eq, decide_eq_false_iff_not, not_lt]
    at hm ⊢
  have hfull : m.mode = .ctr → m.ctrFull = false := fun hc => ctrFull_eq_false (by have := hm hc; omega)
  obtain ⟨y, m', he⟩ := decStep_answers (s.cipherEnc m.ciph) (s.cipherDec m.ciph) m x hcfi hfull
  have fr := decStep_frame he
  refine ⟨y, m', he, by rwa [fr.mode], fun hc => ?_⟩
  rw [fr.mode] at hc
  have := hm hc
  rw [fr.ciph, (fr.ctr_next hc).2, ctr_succ_toNat (by omega)]
  omega

/-- A block command that succeeds, then the run over the blocks that follow. -/
theorem blockRun_cons {i : Instr} {rd rs1 : Reg} {s t u : State} {x : Block} {xs ys : List Block}
    (h : exec i (s.setReg rs1 x) = .next t) (he : t.err = 0) (hr : blockRun i rd rs1 t xs = some (ys, u)) :
    blockRun i rd rs1 s (x :: xs) = some (t.reg rd :: ys, u) := by
  simp only [blockRun, h, he, if_pos, hr]

end Sys2Proof.Machine
end

