-- ==== Sys2Proof/Tests/Slice0.lean ====
section
/-!
SUPPORT. Tests/Slice0.lean: expected results are the source's examples (S) and the spec's derived vectors (V, P)
of 95_test_vectors.md, named in each docstring. The second half shows, for each obligation with hypotheses, a
concrete case that meets them.
-/

namespace Sys2Proof.Tests

open Sys2Proof Sys2Proof.Machine

/-- The outcome is a next state that satisfies `p`. -/
def nextIs {σ : Type} (o : Host.Outcome σ Fault Refusal) (p : σ → Bool) : Bool :=
  match o with
  | .next s => p s
  | .fault _ => false
  | .refused _ => false

/-! ## Well-formedness -/

theorem test_wellFormed_refuses_aRdk_11 : Instr.wellFormed (.aRdk 4 11) = false := by decide

theorem test_wellFormed_refuses_aRdk_15 : Instr.wellFormed (.aRdk 0 15) = false := by decide

theorem test_wellFormed_accepts_aRdk_10 : Instr.wellFormed (.aRdk 4 10) = true := by decide

/-! ## Decoding: every constructor's word, written bit by bit from the pattern strings of 30_encoding.md R73 -/

theorem test_decode_gfMul : decode 0b00010000001100010010000000000000 = .ok (.gfMul 3 1 2) := by decide

theorem test_decode_aKey : decode 0b00100000000010010000000000000000 = .ok (.aKey 9) := by decide

theorem test_decode_aEnc : decode 0b00100001001000010000000000000000 = .ok (.aEnc 2 1) := by decide

theorem test_decode_aDec : decode 0b00100010001100100000000000000000 = .ok (.aDec 3 2) := by decide

theorem test_decode_aRdk : decode 0b00100011010000000000101000000000 = .ok (.aRdk 4 10) := by decide

theorem test_decode_bKey : decode 0b00110000000001100000000000000000 = .ok (.bKey 6) := by decide

theorem test_decode_bEnc : decode 0b00110001001000010000000000000000 = .ok (.bEnc 2 1) := by decide

theorem test_decode_bDec : decode 0b00110010001100100000000000000000 = .ok (.bDec 3 2) := by decide

theorem test_decode_bRdk : decode 0b00110011010000000000111100000000 = .ok (.bRdk 4 15) := by decide

theorem test_decode_mInit : decode 0b01000000000011110000000001001000 = .ok (.mInit .ctr .b 15) := by decide

theorem test_decode_mEncb : decode 0b01000001001000010000000000000000 = .ok (.mEncb 2 1) := by decide

theorem test_decode_mDecb : decode 0b01000010001000010000000000000000 = .ok (.mDecb 2 1) := by decide

theorem test_decode_mEncs : decode 0b01000011000000000000000000000000 = .ok .mEncs := by decide

theorem test_decode_mDecs : decode 0b01000100000000000000000000000000 = .ok .mDecs := by decide

theorem test_decode_mEnd : decode 0b01000101000000000000000000000000 = .ok .mEnd := by decide

/-- V40: the five mode numbers and both ciphers. -/
theorem test_decode_modes :
    decode 0x40000000 = .ok (.mInit .ecb .a 0) ∧ decode 0x40050010 = .ok (.mInit .cfi .a 5) ∧
    decode 0x40050028 = .ok (.mInit .cfb .b 5) ∧ decode 0x40050030 = .ok (.mInit .pfb .a 5) ∧
    decode 0x40050040 = .ok (.mInit .ctr .a 5) := by decide

/-- V41: the illegal words. -/
theorem test_decode_illegal :
    ([0x00000000, 0xffffffff, 0x10312001, 0x10312100, 0x20100000, 0x21211000, 0x23400b00, 0x23410100,
      0x40050050, 0x40150040, 0x43000008, 0x45010000, 0x11000000, 0x24000000, 0x34000000, 0x46000000,
      0x41210008] : List Word).all (fun w => (decode w).toOption.isNone) = true := by decide

theorem test_decodeTableWord :
    decodeTableWord 32 0x23400a00 = some (.aRdk 4 10) ∧ decodeTableWord 32 0x23400b00 = none := by decide

/-! ## Small states -/

/-- The Cipher-A key of S1 to S3. -/
def keyS : Block := 0x2b7e151628aed2a6abf7158809cf4f3c

/-- The Cipher-A key and IV of the mode vectors, and their two plaintext blocks. -/
def keyM : Block := 0x0123456789abcdef0123456789abcdef
def ivM : Block := 0xfedcba9876543210fedcba9876543210
def block0 : Block := 0x41747461636b204265726c696e206174
def block1 : Block := 0x204461776e0000000000000000000000

def withA (k : Block) (s : State) : State := { s with ark := aKeySched k, akv := true }

def withB (k : Block64) (s : State) : State := { s with bsk := bKeySched k, bkv := true }

def withLive (mode : Mode) (c : Cipher) (v : Block) (s : State) : State :=
  { s with m := initUnit mode c v, mv := true }

def attack : List Byte :=
  [0x41, 0x74, 0x74, 0x61, 0x63, 0x6b, 0x20, 0x42, 0x65, 0x72, 0x6c, 0x69, 0x6e, 0x20, 0x61, 0x74,
   0x20, 0x44, 0x61, 0x77, 0x6e]

/-! ## GF(2^8) -/

/-- V1. -/
theorem test_gfMul :
    nextIs (exec (.gfMul 3 1 2) ((State.reset.setReg 1 0x57).setReg 2 0x83))
      (fun t => t.reg 3 == 0xc1 && t.reg 1 == 0x57 && t.err == 0) = true := by decide

/-- V2: upper bits of a source ignored and of the result cleared, `rd` = `rs1`. -/
theorem test_gfMul_upper_bits :
    nextIs (exec (.gfMul 1 1 2) ((State.reset.setReg 1 0xffffffffffffffffffffffffffffff57).setReg 2 0x83))
      (fun t => t.reg 1 == 0xc1) = true := by decide

/-! ## Cipher-A -/

/-- S1, V3: the first and the last derived round key. -/
theorem test_aKey :
    nextIs (exec (.aKey 0) (State.reset.setReg 0 keyS))
      (fun t => t.akv && t.ark[0] == keyS && t.ark[1] == 0xa0fafe1788542cb123a339392a6c7605 &&
        t.ark[10] == 0xd014f9a8c9ee2589e13f0cc8b6630ca6) = true := by decide +kernel

/-- V29: refused while a Cipher-A instance is live. -/
theorem test_aKey_locked :
    nextIs (exec (.aKey 0) { withLive .cfb .a 0 State.reset with akv := true, bkv := true, elog := 0x0008 })
      (fun t => t.status == 0x00008877 && t.ark == State.reset.ark) = true := by decide

/-- S2. -/
theorem test_aEnc :
    nextIs (exec (.aEnc 2 1) (withA keyS (State.reset.setReg 1 0x3243f6a8885a308d313198a2e0370734)))
      (fun t => t.reg 2 == 0x3925841d02dc09fbdc118597196a0b32) = true := by decide +kernel

/-- V7: before any `A.KEY`. -/
theorem test_aEnc_nokey :
    nextIs (exec (.aEnc 2 1) State.reset)
      (fun t => t.status == 0x00000420 && t.ecmd == 0x21210000 && t.reg 2 == 0) = true := by decide

/-- V9: `A.DEC` does not give the plaintext back. -/
theorem test_aDec :
    nextIs (exec (.aDec 3 2) (withA keyS (State.reset.setReg 2 0x3925841d02dc09fbdc118597196a0b32)))
      (fun t => t.reg 3 == 0x7dfdff39cc79c14315baf5ef727cc0cf && t.err == 0) = true := by decide +kernel

/-- V50: under the other value of `ADEC` it would. -/
theorem test_aDec_inverse :
    aDec .inverse (aKeySched keyS) 0x3925841d02dc09fbdc118597196a0b32 = 0x3243f6a8885a308d313198a2e0370734 := by
  decide +kernel

/-- V8. -/
theorem test_aRdk :
    nextIs (exec (.aRdk 4 10) (withA keyS State.reset))
      (fun t => t.reg 4 == 0xd014f9a8c9ee2589e13f0cc8b6630ca6) = true := by decide +kernel

/-- V8: `idx` = 11 is an illegal encoding. -/
theorem test_aRdk_illegal :
    nextIs (runWord 0x23400b00 Hardware.reset) (fun t => t.err == 1 && t.ecmd == 0x23400b00) = true := by decide

/-- V5. -/
theorem test_roundSteps :
    shiftRows 0x000102030405060708090a0b0c0d0e0f = 0x00050a0f04090e03080d02070c01060b ∧
    mixColumns 0xdb135345f20a225c01010101c6c6c6c6 = 0x8e4da1bc9fdc589d01010101c6c6c6c6 ∧
    subBytes 0x00102030405060708090a0b0c0d0e0f0 = 0x63cab7040953d051cd60e0e7ba70e18c := by decide +kernel

/-! ## Cipher-B -/

/-- V12: the first and the last subkey. -/
theorem test_bKey :
    nextIs (exec (.bKey 0) (State.reset.setReg 0 0x789))
      (fun t => t.bkv && t.bsk[0] == 0x010000100802 && t.bsk[15] == 0x080000024000) = true := by decide +kernel

/-- V16: a key wider than 64 bits is construction-fatal. -/
theorem test_bKey_width :
    nextIs (exec (.bKey 0) (State.reset.setReg 0 0x00000000000000010000000000000000))
      (fun t => t.status == 0x00004068) = true := by decide

/-- S3, with the upper half of the operand of V16. -/
theorem test_bEnc :
    nextIs (exec (.bEnc 2 1) (withB 0x789 (State.reset.setReg 1 0x00000000deadbeef0000000000001234)))
      (fun t => t.reg 2 == 0xd7bb47f844a55d09) = true := by decide +kernel

/-- S3. -/
theorem test_bDec :
    nextIs (exec (.bDec 3 2) (withB 0x789 (State.reset.setReg 2 0xd7bb47f844a55d09)))
      (fun t => t.reg 3 == 0x1234) = true := by decide +kernel

/-- V16. -/
theorem test_bDec_nokey :
    nextIs (exec (.bDec 2 1) State.reset) (fun t => t.err == 2 && t.reg 2 == 0) = true := by decide

/-- V16. -/
theorem test_bRdk :
    nextIs (exec (.bRdk 4 15) (withB 0x789 State.reset)) (fun t => t.reg 4 == 0x080000024000) = true := by
  decide +kernel

/-! ## The mode unit, block level -/

/-- V20. -/
theorem test_mInit :
    nextIs (exec (.mInit .cfb .a 5) { State.reset.setReg 5 ivM with akv := true })
      (fun t => t.mcfg == 0x02 && t.m.chain == ivM && t.mctr == 0 && t.mv) = true := by decide

/-- V28: the Cipher-B nonce is 32 bits. -/
theorem test_mInit_width :
    nextIs (exec (.mInit .ctr .b 5) { State.reset.setReg 5 0x100000000 with bkv := true })
      (fun t => t.err == 6 && t.fatal && !t.mv) = true := by decide

/-- V20. -/
theorem test_mEncb :
    nextIs (exec (.mEncb 3 1) (withLive .cfb .a ivM (withA keyM (State.reset.setReg 1 block0))))
      (fun t => t.reg 3 == 0x51981b74270cf6d8cceed5c60e751923 && t.m.chain == t.reg 3) = true := by decide +kernel

/-- V30: the last counter value of Cipher-B is refused. -/
theorem test_mEncb_ctrovf :
    nextIs (exec (.mEncb 3 1) { withLive .ctr .b 0x01234567 State.reset with
        bkv := true, m := { initUnit .ctr .b 0x01234567 with ctr := 0xffffffff } })
      (fun t => t.err == 8 && t.m.ctr == 0xffffffff && t.reg 3 == 0 && t.mv) = true := by decide

/-- V22: deciphering the first `pfb` block chains the recovered plaintext. -/
theorem test_mDecb :
    nextIs (exec (.mDecb 1 3)
        (withLive .pfb .a ivM (withA keyM (State.reset.setReg 3 0x51981b74270cf6d8cceed5c60e751923))))
      (fun t => t.reg 1 == block0 && t.m.chain == block0) = true := by decide +kernel

/-- V25. -/
theorem test_mDecb_unimpl :
    nextIs (exec (.mDecb 3 1) { withLive .cfi .a ivM State.reset with akv := true })
      (fun t => t.status == 0x00002055 && t.m.chain == ivM && t.reg 3 == 0) = true := by decide

/-- V29. -/
theorem test_mEnd :
    nextIs (exec .mEnd { withLive .cfb .a 0 State.reset with akv := true, bkv := true, elog := 0x0088, err := 7 })
      (fun t => t.status == 0x00008803) = true := by decide

/-! ## The mode unit, message level -/

/-- S5: the first block of the message of the mode vectors in mode `cfi`, as its hex characters. -/
theorem test_mEncs :
    nextIs (exec .mEncs { withLive .cfi .a ivM (withA keyM State.reset) with sin := attack.take 16 })
      (fun t => t.sout == (hexenc 0xb9844b42a00e0a83cbb0ccc346daceeb 16) && t.sin == [] && !t.mv) = true := by
  decide +kernel

/-- V30: a message that would exhaust the counter is consumed and refused. -/
theorem test_mEncs_ctrovf :
    nextIs (exec .mEncs { withLive .ctr .b 0x01234567 State.reset with
        bkv := true, m := { initUnit .ctr .b 0x01234567 with ctr := 0xfffffffd }, sin := attack.take 17 })
      (fun t => t.err == 8 && t.sin == [] && t.sout == [] && t.mv && t.m.ctr == 0xfffffffd) = true := by decide

/-- V27: the last `ecb` block of Cipher-B decrypts to the last five bytes, padding dropped. -/
theorem test_mDecs :
    nextIs (exec .mDecs { withLive .ecb .b 0 (withB 0x133457799bbcdff1 State.reset) with
        sin := hexenc 0xcee38156627aaa7f 8 })
      (fun t => t.sout == attack.drop 16 && t.sin == [] && !t.mv) = true := by decide +kernel

/-- V36: `UNIMPL` comes before `FORMAT`, and the message is discarded. -/
theorem test_mDecs_unimpl :
    nextIs (exec .mDecs { withLive .cfi .a ivM State.reset with akv := true, sin := [0x7a, 0x7a] })
      (fun t => t.err == 5 && t.sin == [] && t.sout == [] && t.mv) = true := by decide

/-- R194's example, and V35: an uppercase `A` is no digit. -/
theorem test_hex :
    hexenc 0x0a1b 2 = [0x30, 0x61, 0x31, 0x62] ∧ parseHex [0x30, 0x61, 0x31, 0x62] = some [0x0, 0xa, 0x1, 0xb] ∧
    hexValue 0x41 = none ∧ hexValue 0x67 = none ∧ hexValue 0x0a = none := by decide

/-- V32 rows 7 and 8: only the trailing run is dropped. -/
theorem test_strip0 : strip0 [0x00, 0x00, 0x41, 0x00, 0x00] = [0x00, 0x00, 0x41] ∧ strip0 [0x00, 0x00] = [] := by
  decide

/-! ## Errors and the host -/

/-- V31: `LOCKED` hides `WIDTH`. -/
theorem test_locked_before_width :
    nextIs (exec (.bKey 6) { withLive .cfb .b 0 (State.reset.setReg 6 0x00000000000000010000000000000000) with
        bkv := true }) (fun t => t.err == 7 && !t.fatal) = true := by decide

/-- P5 step 21: `FATALD` comes before `ILLEGAL`. -/
theorem test_fatald_before_illegal :
    nextIs (runWord 0 { Hardware.reset with fatal := true, akv := true, err := 9, elog := 0x02fe })
      (fun t => t.status == 0x0002fe99 && t.ecmd == 0) = true := by decide

/-- V42: reads of `STATUS`, of write-only and of unmapped numbers after reset. -/
theorem test_hostRead :
    (hostRead 0x10 Hardware.reset).1 = 0 ∧ (hostRead 0x18 Hardware.reset).1 = 0 ∧ (hostRead 0x17 Hardware.reset).1 = 0 ∧
    (hostRead 0xff Hardware.reset).1 = 0 ∧ (hostRead 0x1a Hardware.reset).1 = 0 := by decide

/-- V42: only bits 7:0 are appended to `sin`. -/
theorem test_hostWrite_sin :
    nextIs (hostWrite 0x19 0x141 Hardware.reset)
      (fun t => t.sin == [0x41] && (hostRead 0x15 t).1 == 1 && t.err == 0) = true := by decide

/-- P1 step 11: a step runs the word the host writes to `CMD`. -/
theorem test_step_withFetchWord :
    nextIs (step (((State.reset.setReg 6 0x57).setReg 7 0x83).withFetchWord 32 0x10867000))
      (fun t => t.reg 8 == 0xc1 && t.pending == []) = true := by decide

/-- 20_memory.md R52 and 70_reset_and_hazards.md R255: a read is observed; the queue loses its head (R56). -/
theorem test_step_read_sout :
    nextIs (step { State.reset with pending := [.read 0x1a], sout := [0x41, 0x42] })
      (fun t => t.observed == [0x41] && t.sout == [0x42]) = true := by decide

/-! ## Witnesses: for each obligation with hypotheses, a case that meets them, boundary values included -/

/-- Both keys valid, an instance live in this mode over this cipher. -/
def live (mode : Mode) (c : Cipher) : State := withLive mode c 0 { State.reset with akv := true, bkv := true }

def fatalState : State := { State.reset with fatal := true }

theorem witness_EncodeDecodeRoundTrip : Instr.wellFormed (.aRdk 15 10) = true := by decide

theorem witness_DecodedWordIsItsEncoding : decode 0x23f00a00 = .ok (.aRdk 15 10) := by decide

theorem witness_DecodeFollowsOpcodeMap :
    0x10fff000#32 &&& 0xFF000FFF#32 = 0x10000000#32 ∧ 0x200f0000#32 &&& 0xFFF0FFFF#32 = 0x20000000#32 ∧
    0x21ff0000#32 &&& 0xFF00FFFF#32 = 0x21000000#32 ∧ 0x22ff0000#32 &&& 0xFF00FFFF#32 = 0x22000000#32 ∧
    (0x23f00a00#32 &&& 0xFF0FF0FF#32 = 0x23000000#32 ∧ (0x23f00a00#32 |>.extractLsb' 8 4).toNat ≤ 10) ∧
    0x300f0000#32 &&& 0xFFF0FFFF#32 = 0x30000000#32 ∧ 0x31ff0000#32 &&& 0xFF00FFFF#32 = 0x31000000#32 ∧
    0x32ff0000#32 &&& 0xFF00FFFF#32 = 0x32000000#32 ∧ 0x33f00f00#32 &&& 0xFF0FF0FF#32 = 0x33000000#32 ∧
    (0x400f0048#32 &&& 0xFFF0FF07#32 = 0x40000000#32 ∧
      (0x400f0048#32 |>.extractLsb' 4 4).toNat = (modeNum .ctr).toNat ∧
      (0x400f0048#32 |>.extractLsb' 3 1).toNat = (ciphNum .b).toNat) ∧
    0x41ff0000#32 &&& 0xFF00FFFF#32 = 0x41000000#32 ∧ 0x42ff0000#32 &&& 0xFF00FFFF#32 = 0x42000000#32 := by
  decide

theorem witness_EveryWordSelectsOneRowOrIsIllegal :
    (⟨0x23000000, 0xFF0FF0FF, 10, 15⟩ : OpcodeRow) ∈ opcodeRows ∧
    (⟨0x23000000, 0xFF0FF0FF, 10, 15⟩ : OpcodeRow).selects 0x23f00a00 := by decide

theorem witness_StepRunsDecodedCommand :
    { State.reset with pending := [.write 0x18 0x45000000] }.pending = .write 0x18 0x45000000 :: [] ∧
    decode (BitVec.setWidth 32 (0x45000000 : Block)) = .ok .mEnd ∧
    { State.reset with pending := [.write 0x18 0] }.pending = .write 0x18 0 :: [] ∧
    decode (BitVec.setWidth 32 (0 : Block)) = .error .unknownOpcode := by decide

theorem witness_WordSelectingNoRowIsIllegal :
    (∀ r ∈ opcodeRows, ¬ r.selects 0x23f00b00) ∧ (∀ r ∈ opcodeRows, ¬ r.selects 0x40050050) ∧
    State.reset.fatal = false ∧ fatalState.fatal = true := by decide

theorem witness_FatalCoreRefusesEveryWord : fatalState.fatal = true := rfl

theorem witness_FailingCommandChangesOnlyTheErrorRecord :
    (∃ u, runWord 0 Hardware.reset = .next u ∧ u.err ≠ 0) ∧
    ∃ u, runWord 0x44000000 { (live .cfi .a).toHardware with sin := [0x7a] } = .next u ∧
      u.err = Err.unimpl.code ∧ u.sin = [] :=
  ⟨⟨rejectWord 0 Hardware.reset, rfl, by decide⟩,
    raise .unimpl 0x44000000 (live .cfi .a).toHardware, rfl, by decide, rfl⟩

theorem witness_SuccessfulCommandKeepsTheErrorLog : ∃ t, exec .mEnd State.reset = .next t ∧ t.err = 0 :=
  ⟨_, exec_of_effect (i := .mEnd) (s := State.reset) rfl rfl, rfl⟩

theorem witness_FlagsAndLogAreStickyUntilReset :
    ∃ s t : State, step s = .next t ∧ s.pending.head? ≠ some .reset ∧ s.akv = true ∧ s.bkv = true ∧
      s.fatal = true ∧ s.elog = 0x0040 :=
  ⟨{ fatalState with akv := true, bkv := true, elog := 0x0040, pending := [.read 0x10] }, _, rfl, by decide,
    rfl, rfl, rfl, rfl⟩

/-- A state with a key, a live instance and an error behind it, about to run a command. -/
def busy : State :=
  { withLive .ctr .a 5 (withA keyM State.reset) with
    err := 7, elog := 0x0080, ecmd := 0x20000000, pending := [cmdMove 0x45000000] }

theorem busy_inv : busy.Inv where
  errors := ⟨by decide, by decide, by decide, by decide, by decide⟩
  keys := ⟨fun _ => rfl, fun h => absurd h (by decide), fun h => absurd h (by decide), fun _ => rfl⟩
  live_key := fun _ => rfl
  unit := ⟨rfl, fun h => absurd h (by decide)⟩

theorem witness_StepKeepsInvariant : busy.Inv ∧ ∃ t, step busy = .next t :=
  ⟨busy_inv, _, exec_of_effect (i := .mEnd) (s := { busy with pending := [] }) rfl rfl⟩

theorem witness_HostAccessesFollowTheRegisterMap :
    (0x17#8 = 0x17 ∨ 0x1B ≤ (0x17#8).toNat) ∧ (0x1B ≤ (0x1B#8).toNat) ∧ (0x1B ≤ (0xFF#8).toNat) ∧
    (0x10 ≤ (0x10#8).toNat ∧ (0x10#8).toNat ≤ 0x17) ∧ (0x10 ≤ (0x17#8).toNat ∧ (0x17#8).toNat ≤ 0x17) := by decide

theorem witness_SoutReadPopsTheHead :
    { State.reset with sout := [0x41] }.sout = 0x41 :: [] ∧ State.reset.sout = [] ∧ (0x10#8 ≠ 0x1A) := by decide

theorem witness_GfMulInstruction : fatalState.fatal = true ∧ State.reset.fatal = false := by decide

theorem witness_GfmulFieldLaws : (0x01 : Byte) ≠ 0 ∧ (0xff : Byte) ≠ 0 := by decide

theorem witness_SboxIsInverseThenAffine :
    ((0 : Byte) = 0 ∧ (0 : Byte) = 0) ∧ gfmul 0x53 0xca = 1 := by decide

theorem witness_AKeyScheduleRecurrence : (1 ≤ 1 ∧ 1 ≤ 9) ∧ (1 ≤ 9 ∧ 9 ≤ 9) ∧ 0 < 10 ∧ 9 < 10 := by decide

theorem witness_RoundStepsActOnBytes : 0 < 16 ∧ 15 < 16 ∧ (3 < 4 ∧ 3 < 4) := by decide

theorem witness_AEncIsTheTenRoundNetwork :
    ∃ (rk : Vector Block 11) (x : Block) (st : Nat → Block), st 0 = x ^^^ rk[0] ∧
      ∀ (i : Nat) (h : i < 9), st (i + 1) = mixColumns (shiftRows (subBytes (st i))) ^^^ rk[i + 1] :=
  ⟨Vector.replicate 11 keyM, block0,
    fun n => Nat.rec (block0 ^^^ keyM) (fun _ s => mixColumns (shiftRows (subBytes s)) ^^^ keyM) n,
    by simp, by intro i h; simp⟩

theorem witness_AKeyInstruction :
    fatalState.fatal = true ∧
    ((live .cfb .a).fatal = false ∧ (live .cfb .a).mv = true ∧ (live .cfb .a).m.ciph = .a) ∧
    ((live .cfb .b).fatal = false ∧ ¬ ((live .cfb .b).mv = true ∧ (live .cfb .b).m.ciph = .a)) := by decide

theorem witness_AEncInstruction :
    fatalState.fatal = true ∧ (State.reset.fatal = false ∧ State.reset.akv = false) ∧
    ((live .ecb .a).fatal = false ∧ (live .ecb .a).akv = true) := by decide

theorem witness_ADecInstruction :
    fatalState.fatal = true ∧ (State.reset.fatal = false ∧ State.reset.akv = false) ∧
    ((live .ecb .a).fatal = false ∧ (live .ecb .a).akv = true) := by decide

theorem witness_ARdkInstruction :
    (10 < (11 : Fin 16).val ∧ 10 < (15 : Fin 16).val) ∧ ((0 : Fin 16).val < 11 ∧ (10 : Fin 16).val < 11) ∧
    fatalState.fatal = true ∧ (State.reset.fatal = false ∧ State.reset.akv = false) ∧
    ((live .ecb .a).fatal = false ∧ (live .ecb .a).akv = true) := by decide

theorem witness_PermPicksTablePositions :
    ipTable.length = 64 ∧ (∀ p ∈ ipTable, 1 ≤ p ∧ p ≤ 64) ∧ 0 < ipTable.length ∧ 63 < ipTable.length := by decide

theorem witness_BKeyScheduleRounds : 0 < 16 ∧ 15 < 16 := by decide

/-- The two keys of V14. -/
theorem witness_KeyParityHasNoInfluence :
    ∀ i, i < 64 → i % 8 ≠ 0 → (0x133457799bbcdff1#64).getLsbD i = (0x123556789abddef0#64).getLsbD i := by decide

theorem witness_BRoundFunctionBoxes :
    ∃ (r : Word) (k x : Subkey) (o : Nat → BitVec 4), x = perm r eTable 48 ^^^ k ∧
      ∀ j, j < 8 →
        o j = BitVec.ofNat 4
          (((sBoxes.getD j []).getD
              ((x.getLsbD (47 - 6 * j)).toNat * 2 + (x.getLsbD (42 - 6 * j)).toNat) []).getD
            (x.extractLsb' (43 - 6 * j) 4).toNat 0) :=
  ⟨0x00800040, 0x010000100802, _, fun j => BitVec.ofNat 4
      (((sBoxes.getD j []).getD
          (((perm (0x00800040 : Word) eTable 48 ^^^ 0x010000100802).getLsbD (47 - 6 * j)).toNat * 2 +
            ((perm (0x00800040 : Word) eTable 48 ^^^ 0x010000100802).getLsbD (42 - 6 * j)).toNat) []).getD
        ((perm (0x00800040 : Word) eTable 48 ^^^ 0x010000100802).extractLsb' (43 - 6 * j) 4).toNat 0),
    rfl, fun _ _ => rfl⟩

/-- With all subkeys equal, one pair of sequences meets the hypotheses of both directions. -/
theorem witness_BNetworkRounds :
    ∃ (sk : Vector Subkey 16) (x : Block64) (L R : Nat → Word),
      L 0 = (perm x ipTable 64).extractLsb' 32 32 ∧ R 0 = (perm x ipTable 64).extractLsb' 0 32 ∧
      (∀ (i : Nat) (h : i < 16), L (i + 1) = R i ∧ R (i + 1) = L i ^^^ bRoundFn (R i) sk[i]) ∧
      (∀ (i : Nat) (h : i < 16), L (i + 1) = R i ∧ R (i + 1) = L i ^^^ bRoundFn (R i) sk[15 - i]) := by
  let f : Nat → Word × Word := fun n =>
    Nat.rec ((perm (0x1234 : Block64) ipTable 64).extractLsb' 32 32,
      (perm (0x1234 : Block64) ipTable 64).extractLsb' 0 32) (fun _ lr => bRound lr 0x789) n
  refine ⟨Vector.replicate 16 0x789, 0x1234, fun n => (f n).1, fun n => (f n).2, rfl, rfl, ?_, ?_⟩ <;>
  · intro i h
    rw [Vector.getElem_replicate]
    exact ⟨rfl, rfl⟩

theorem witness_BKeyInstruction :
    fatalState.fatal = true ∧
    ((live .cfb .b).fatal = false ∧ (live .cfb .b).mv = true ∧ (live .cfb .b).m.ciph = .b) ∧
    (State.reset.fatal = false ∧ ¬ (State.reset.mv = true ∧ State.reset.m.ciph = .b)) ∧
    ((State.reset.setReg 0 0x00000000000000010000000000000000).reg 0).extractLsb' 64 64 ≠ 0 ∧
    ((State.reset.setReg 0 0xffffffffffffffff).reg 0).extractLsb' 64 64 = 0 := by decide

theorem witness_BEncInstruction :
    fatalState.fatal = true ∧ (State.reset.fatal = false ∧ State.reset.bkv = false) ∧
    ((live .ecb .a).fatal = false ∧ (live .ecb .a).bkv = true) := by decide

theorem witness_BDecInstruction :
    fatalState.fatal = true ∧ (State.reset.fatal = false ∧ State.reset.bkv = false) ∧
    ((live .ecb .a).fatal = false ∧ (live .ecb .a).bkv = true) := by decide

theorem witness_BRdkInstruction :
    fatalState.fatal = true ∧ (State.reset.fatal = false ∧ State.reset.bkv = false) ∧
    ((live .ecb .a).fatal = false ∧ (live .ecb .a).bkv = true) := by decide

theorem witness_MInitInstruction :
    fatalState.fatal = true ∧
    (State.reset.fatal = false ∧
      ((Cipher.a = .a ∧ State.reset.akv = false) ∨ (Cipher.a = .b ∧ State.reset.bkv = false))) ∧
    ((live .ecb .a).fatal = false ∧ (live .ecb .a).akv = true ∧ (live .ecb .a).bkv = true) ∧
    (((live .ecb .a).setReg 5 0x10000000000000000).reg 5).extractLsb' 64 64 ≠ 0 ∧
    (((live .ecb .a).setReg 5 0xffffffffffffffff).reg 5).extractLsb' 64 64 = 0 ∧
    (((live .ecb .a).setReg 5 0x100000000).reg 5).extractLsb' 32 96 ≠ 0 ∧
    (((live .ecb .a).setReg 5 0xffffffff).reg 5).extractLsb' 32 96 = 0 := by decide

theorem witness_ModeStepRules :
    (∀ mode c, (initUnit mode c 0).ciph = c ∧ (initUnit mode c 0).mode = mode) ∧
    { initUnit .ctr .a 0 with ctr := 0xffffffffffffffff }.ctr.toNat = 2 ^ 64 - 1 ∧
    { initUnit .ctr .a 0 with ctr := 0xfffffffffffffffe }.ctr.toNat ≠ 2 ^ 64 - 1 ∧
    ({ initUnit .ctr .b 0 with ctr := 0xffffffff }.ctr.extractLsb' 0 32).toNat = 2 ^ 32 - 1 ∧
    ({ initUnit .ctr .b 0 with ctr := 0xfffffffe }.ctr.extractLsb' 0 32).toNat ≠ 2 ^ 32 - 1 :=
  ⟨fun _ _ => ⟨rfl, rfl⟩, by decide, by decide, by decide, by decide⟩

/-- The instance of V30, with Cipher-B, at a counter value. -/
def atCounter (k : BitVec 64) : State :=
  { live .ctr .b with m := { initUnit .ctr .b 0x01234567 with ctr := k } }

theorem witness_MEncbInstruction :
    wordF2 0x41 2 1 = 0x41210000 ∧ fatalState.fatal = true ∧
    (State.reset.fatal = false ∧ State.reset.mv = false) ∧
    ((atCounter 0xffffffff).fatal = false ∧ (atCounter 0xffffffff).mv = true ∧
      (atCounter 0xffffffff).m.mode = .ctr ∧ (atCounter 0xffffffff).m.ctr.toNat % 2 ^ 32 = 2 ^ 32 - 1) ∧
    ((atCounter 0xfffffffe).fatal = false ∧ (atCounter 0xfffffffe).mv = true ∧
      ¬ ((atCounter 0xfffffffe).m.mode = .ctr ∧ (atCounter 0xfffffffe).m.ctr.toNat % 2 ^ 32 = 2 ^ 32 - 1)) := by
  decide

theorem witness_MDecbInstruction :
    wordF2 0x42 2 1 = 0x42210000 ∧ fatalState.fatal = true ∧
    (State.reset.fatal = false ∧ State.reset.mv = false) ∧
    ((live .cfi .a).fatal = false ∧ (live .cfi .a).mv = true ∧ (live .cfi .a).m.mode = .cfi) ∧
    ((atCounter 0xffffffff).fatal = false ∧ (atCounter 0xffffffff).mv = true ∧
      (atCounter 0xffffffff).m.mode = .ctr ∧ (atCounter 0xffffffff).m.ctr.toNat % 2 ^ 32 = 2 ^ 32 - 1) ∧
    ((atCounter 0xfffffffe).fatal = false ∧ (atCounter 0xfffffffe).mv = true ∧
      (atCounter 0xfffffffe).m.mode ≠ .cfi ∧
      ¬ ((atCounter 0xfffffffe).m.mode = .ctr ∧ (atCounter 0xfffffffe).m.ctr.toNat % 2 ^ 32 = 2 ^ 32 - 1)) := by
  decide

theorem witness_MEndInstruction : fatalState.fatal = true ∧ (live .cfb .a).fatal = false := by decide

/-- V30: with the counter at 0xfffffffd, three blocks are too many and two are not. -/
theorem witness_MEncsInstruction :
    fatalState.fatal = true ∧ (State.reset.fatal = false ∧ State.reset.mv = false) ∧
    (((attack.take 17).length + 8 - 1) / 8 = 3 ∧ (atCounter 0xfffffffd).m.ctr.toNat + 3 > 2 ^ 32 - 1) ∧
    (((attack.take 16).length + 8 - 1) / 8 = 2 ∧ ¬ ((atCounter 0xfffffffd).m.ctr.toNat + 2 > 2 ^ 32 - 1)) ∧
    ((atCounter 0xfffffffd).fatal = false ∧ (atCounter 0xfffffffd).mv = true ∧
      (atCounter 0xfffffffd).m.mode = .ctr) := by decide

/-- Sixteen characters are a Cipher-B block, fifteen are not, an uppercase one is no digit. -/
theorem witness_MDecsInstruction :
    fatalState.fatal = true ∧ (State.reset.fatal = false ∧ State.reset.mv = false) ∧
    ((live .cfi .a).fatal = false ∧ (live .cfi .a).mv = true ∧ (live .cfi .a).m.mode = .cfi) ∧
    ((live .cfb .b).m.mode ≠ .cfi ∧ (List.replicate 15 (0x61 : Byte)).length % 16 ≠ 0) ∧
    (∃ ch ∈ ([0x41] : List Byte), hexValue ch = none) ∧
    (∀ ch ∈ List.replicate 32 (0x61 : Byte), hexValue ch ≠ none) ∧
    ((atCounter 0xfffffffd).m.mode ≠ .cfi ∧ (List.replicate 32 (0x61 : Byte)).length % 16 = 0 ∧
      (atCounter 0xfffffffe).m.ctr.toNat + (List.replicate 32 (0x61 : Byte)).length / 16 > 2 ^ 32 - 1 ∧
      ¬ ((atCounter 0xfffffffd).m.ctr.toNat + (List.replicate 32 (0x61 : Byte)).length / 16 > 2 ^ 32 - 1)) := by
  decide

/-- The first byte of a list is the most significant byte of the block (V-S4: "Attack Berlin at"). -/
theorem test_fromBytes : fromBytes (attack.take 16) = block0 ∧ toBytes 16 block0 = attack.take 16 := by decide

theorem witness_ChunksAreThePaddedMessage :
    0 < 8 ∧ 0 < 16 ∧ (attack.take 16).length = 16 ∧ (attack.take 8).length = 8 ∧
    0 < (attack.take 8).length ∧ 15 < (attack.take 16).length := by decide

theorem witness_HexdecUndoesHexenc : 0 < 1 ∧ 15 < 16 := by decide

/-- A one-byte message in mode `ecb` and in mode `ctr` with Cipher-B, and a one-block hex string. -/
theorem mEncs_answers (s : State) (hf : s.fatal = false) (hv : s.mv = true)
    (h : s.m.ctrWouldOverflow (blockCount s.sin.length (Config.bwB s.m.ciph)) = false) :
    ∃ t, exec .mEncs s = .next t ∧ t.err = 0 := by
  obtain ⟨ys, m', hr⟩ := runBlocks_enc_answers s.toHardware s.m (messageBlocks s.m s.sin)
    (by rw [messageBlocks, List.length_map, length_chunks]; exact h)
  exact ⟨_, exec_of_effect (i := .mEncs) hf ⟨hv, h, ys, m', hr, rfl⟩, rfl⟩

theorem mDecs_answers :
    ∃ t, exec .mDecs { live .cfb .b with sin := List.replicate 16 0x61 } = .next t ∧ t.err = 0 := by
  obtain ⟨ys, m', hr⟩ := runBlocks_dec_answers (live .cfb .b).toHardware (live .cfb .b).m
    (hexBlocks 16 (List.replicate 16 0xa)) (by decide) (by decide)
  exact ⟨_, exec_of_effect (i := .mDecs) (s := { live .cfb .b with sin := List.replicate 16 0x61 }) rfl
    ⟨rfl, by decide, by decide, List.replicate 16 0xa, by decide, by decide, ys, m', hr, rfl⟩, rfl⟩

theorem witness_MessageOutputLengths :
    (∃ t, exec .mEncs { live .ecb .b with sin := [0x41] } = .next t ∧ t.err = 0) ∧
    ∃ t, exec .mDecs { live .cfb .b with sin := List.replicate 16 0x61 } = .next t ∧ t.err = 0 :=
  ⟨mEncs_answers _ rfl rfl (by decide), mDecs_answers⟩

theorem witness_MessageIsTheSequenceOfItsBlocks :
    (∃ t, exec .mEncs { live .ecb .b with sin := [0x41] } = .next t ∧ t.err = 0) ∧
    ∃ t, exec .mDecs { live .cfb .b with sin := List.replicate 16 0x61 } = .next t ∧ t.err = 0 :=
  ⟨mEncs_answers _ rfl rfl (by decide), mDecs_answers⟩

/-- The state of the second run of the round trip: the first one's keys and IV, a different history. -/
def later : State := { live .ecb .a with err := 2, elog := 0x0004, sout := [0x41] }

/-- A state of either run after its `M.INIT` with a zero operand. -/
def opened (mode : Mode) (c : Cipher) (s : State) : State :=
  s.withHardware (succeed { s.toHardware with m := initUnit mode c 0, mv := true })

theorem mInit_opens (mode : Mode) (c : Cipher) (s : State) (h : s = live .ecb .a ∨ s = later) :
    exec (.mInit mode c 5) s = .next (opened mode c s) := by
  rcases h with rfl | rfl <;>
  exact exec_of_effect (i := .mInit mode c 5) rfl
    ⟨by cases c <;> rfl, by cases mode <;> cases c <;> decide, rfl⟩

/-- The same `M.INIT` succeeds on two different states with the same keys, and one block is enciphered. -/
theorem witness_BlockLevelRoundTrip (mode : Mode) (c : Cipher) :
    ∃ (s s' s₁ s₁' u : State) (xs ys : List Block),
      s' ≠ s ∧ s'.ark = s.ark ∧ s'.bsk = s.bsk ∧ s'.reg 5 = s.reg 5 ∧
      exec (.mInit mode c 5) s = .next s₁ ∧ s₁.err = 0 ∧
      exec (.mInit mode c 5) s' = .next s₁' ∧ s₁'.err = 0 ∧ s₁' ≠ s₁ ∧
      encbRun 2 1 s₁ xs = some (ys, u) ∧ xs ≠ [] := by
  obtain ⟨y, m', he⟩ := encStep_answers (((live .ecb .a).setReg 1 block0).cipherEnc c) (initUnit mode c 0)
    (lowBlock c block0) (fun _ => by cases mode <;> cases c <;> decide)
  have h2 := exec_of_effect (i := .mEncb 2 1) (s := (opened mode c (live .ecb .a)).setReg 1 block0) rfl
    ⟨rfl, y, m', he, rfl⟩
  exact ⟨live .ecb .a, later, _, _, _, [block0], _, by decide, rfl, rfl, rfl, mInit_opens mode c _ (.inl rfl),
    rfl, mInit_opens mode c _ (.inr rfl), rfl,
    fun h => absurd (congrArg (fun s : State => s.sout) h)
      (by simp [opened, later, live, withLive, State.reset, Hardware.reset]),
    blockRun_cons h2 rfl rfl, by simp⟩

theorem witness_roundTrips : roundTrips .cfb .a ∧ roundTrips .ecb .b := by simp [roundTrips]

theorem witness_MessageRoundTrip :
    roundTrips .ctr .b ∧ (live .ecb .a).fatal = false ∧ (live .ecb .a).sout = [] ∧
    (live .ecb .a).keyValid .b = true ∧ ivTooWide .ctr .b ((live .ecb .a).reg 5) = false ∧
    (([0x41, 0x00] : List Byte).length + Config.bwB .b - 1) / Config.bwB .b ≤ 2 ^ Config.cw .b - 1 :=
  ⟨by simp [roundTrips], by decide, by decide, by decide, by decide, by decide⟩

theorem witness_ParallelClosedForms :
    (∃ t, exec .mEncs { live .ecb .b with sin := [0x41] } = .next t ∧ t.err = 0) ∧
    ∃ t, exec .mEncs { live .ctr .a with sin := [0x41] } = .next t ∧ t.err = 0 :=
  ⟨mEncs_answers _ rfl rfl (by decide), mEncs_answers _ rfl rfl (by decide)⟩

/-- `A.KEY` on a state whose round keys are all zero changes them; and a live instance that runs on. -/
theorem witness_RoundKeysChangeOnlyByKeyCommands :
    (∃ t, step ((State.reset.setReg 0 1).withFetchWord 32 0x20000000) = .next t ∧ t.ark ≠ State.reset.ark) ∧
    ∃ t, step { live .cfb .a with pending := [.read 0x10] } = .next t ∧ (live .cfb .a).mv = true ∧
      (live .cfb .a).m.ciph = .a :=
  ⟨⟨_, exec_of_effect (i := .aKey 0) (s := State.reset.setReg 0 1) rfl ⟨by decide, rfl⟩,
    fun h => absurd (congrArg (fun v => v[0]) h) (by decide)⟩, _, rfl, rfl, rfl⟩

theorem witness_InstructionFrames :
    ∃ t, exec (.gfMul 3 1 2) State.reset = .next t ∧ destReg (.gfMul 3 1 2) ≠ some 0 ∧ t.err = 0 :=
  ⟨_, exec_of_effect (i := .gfMul 3 1 2) (s := State.reset) rfl rfl, by decide, rfl⟩

theorem witness_BlockCommandsCommute :
    (2 : Reg) ≠ 4 ∧ (2 : Reg) ≠ 3 ∧ (4 : Reg) ≠ 1 ∧ (live .ecb .a).fatal = false ∧ (live .ecb .a).akv = true ∧
    (live .ecb .a).bkv = true := by decide

theorem witness_CipherBTablesAsPrinted :
    (1 ≤ 8 ∧ 64 ≤ 64) ∧ (1 ≤ 9 ∧ 54 ≤ 56) ∧ s8Box ∈ sBoxes ∧ s8Box.length = 4 ∧ 15 < 16 := by decide

end Sys2Proof.Tests
end

section
/-!
PROOFS of the family 00_scope.md: what one bit of `perm` is (R12).
-/
namespace Sys2Proof.Machine

variable {w m : Nat}

@[simp] theorem perm_nil (v : BitVec w) : perm v [] m = 0 := rfl

/-- The last entry of the table gives bit 0; the entries before it give the bits above. -/
theorem perm_concat (v : BitVec w) (table : List Nat) (p : Nat) :
    perm v (table ++ [p]) m = perm v table m <<< 1 ||| (BitVec.ofBool (posBit v p)).setWidth m :=
  List.foldl_concat ..

/-- Counted from the end of the table, entry `i` names the input position of bit `i`; above the table the bits
are 0. No relation between `m` and the table's length is assumed. -/
theorem perm_getLsbD (v : BitVec w) (table : List Nat) {i : Nat} (hi : i < m) :
    (perm v table m).getLsbD i = table.reverse[i]?.any (posBit v) := by
  induction table using List.reverseRecOn generalizing i with
  | nil => simp
  | append_singleton table p ih =>
    cases i with
    | zero => simp [perm_concat, hi]
    | succ i =>
      have him : i < m := Nat.lt_of_succ_lt hi
      simpa [perm_concat, hi, him] using ih him

end Sys2Proof.Machine

open Sys2Proof.Machine

/-- Settles O31: bit `m - j` is entry `m - j` from the end of the table, which is `T[j]` (by `perm_getLsbD`). -/
theorem permPicksTablePositions : Obligations.PermPicksTablePositions := by
  intro w m v table hlen _ j hj
  have hentry : table.reverse[m - (j + 1)]? = some table[j] := by
    rw [List.getElem?_reverse (by omega), ← List.getElem?_eq_getElem hj]
    congr 1
    omega
  rw [perm_getLsbD v table (by omega), hentry]
  rfl

end

section
/-!
PROOFS of the family 10_state.md: the frame of every instruction (R36), the reset values (R35) and the layout of the
read-only registers (R24, R28, R29).
-/
namespace Sys2Proof.Machine

/-- What the table of 10_state.md R36 lets an instruction write when it succeeds, row by row: a destination, a
destination and the mode unit (a block step), a key file, the mode unit and `MV`, the queues with the mode unit and
`MV`, or `MV` alone. -/
inductive Writes (i : Instr) (h : Hardware) : Hardware → Prop
  | dest {rd : Reg} (hi : destReg i = some rd) (v : Block) : Writes i h (h.setReg rd v)
  | blockStep {rd : Reg} (hi : destReg i = some rd) (hb : isBlockStep i) (v : Block) (m' : ModeUnit) :
      Writes i h { h.setReg rd v with m := m' }
  | keyA {rs1 : Reg} (hi : i = .aKey rs1) (rk : Vector Block 11) : Writes i h { h with ark := rk, akv := true }
  | keyB {rs1 : Reg} (hi : i = .bKey rs1) (sk : Vector Subkey 16) : Writes i h { h with bsk := sk, bkv := true }
  | init (hi : isInit i) (m' : ModeUnit) : Writes i h { h with m := m', mv := true }
  | message (hi : isMessage i) (out : List Byte) (m' : ModeUnit) :
      Writes i h { h.takeSin.putSout out with m := m', mv := false }
  | endInstance (hi : i = .mEnd) : Writes i h { h with mv := false }

/-- What a block step or a message may write of the mode unit (10_state.md R36): `M.chain`, and in mode `ctr`
`M.ctr` in its place. It is `StepFrame` without the one step of the counter, so that steps compose. -/
structure UnitFrame (m m' : ModeUnit) : Prop where
  mode : m'.mode = m.mode
  ciph : m'.ciph = m.ciph
  nonce : m'.nonce = m.nonce
  chain : m.mode = .ecb ∨ m.mode = .ctr → m'.chain = m.chain
  ctr : m.mode ≠ .ctr → m'.ctr = m.ctr

theorem UnitFrame.refl (m : ModeUnit) : UnitFrame m m := ⟨rfl, rfl, rfl, fun _ => rfl, fun _ => rfl⟩

theorem StepFrame.unitFrame {m m' : ModeUnit} (h : StepFrame m m') : UnitFrame m m' :=
  ⟨h.mode, h.ciph, h.nonce, h.chain, h.ctr⟩

theorem UnitFrame.trans {m₁ m₂ m₃ : ModeUnit} (h : UnitFrame m₁ m₂) (h' : UnitFrame m₂ m₃) : UnitFrame m₁ m₃ where
  mode := h'.mode.trans h.mode
  ciph := h'.ciph.trans h.ciph
  nonce := h'.nonce.trans h.nonce
  chain hm := (h'.chain (h.mode ▸ hm)).trans (h.chain hm)
  ctr hm := (h'.ctr (h.mode ▸ hm)).trans (h.ctr hm)

/-- A loop over blocks keeps what each of its steps keeps. -/
theorem runBlocks_unitFrame {f : ModeUnit → Block → StepResult} {m m' : ModeUnit} {xs ys : List Block}
    (hf : ∀ {m x y m'}, f m x = .ok (y, m') → StepFrame m m') (h : runBlocks f m xs = .ok (ys, m')) :
    UnitFrame m m' :=
  runBlocks_keeps (UnitFrame m) (fun _ _ _ _ _ hm hx => hm.trans (hf hx).unitFrame) (.refl m) h

section Success

variable {i : Instr} {h u : Hardware}

/-- The effect of an instruction is one of the rows of R36. -/
theorem Effect.writes (he : Effect i h u) : Writes i h u := by
  cases i with
  | gfMul rd rs1 rs2 => exact he ▸ .dest rfl _
  | aKey rs1 => exact he.2 ▸ .keyA rfl _
  | aEnc rd rs1 => exact he.2 ▸ .dest rfl _
  | aDec rd rs1 => exact he.2 ▸ .dest rfl _
  | aRdk rd idx => obtain ⟨-, -, rfl⟩ := he; exact .dest rfl _
  | bKey rs1 => exact he.2.2 ▸ .keyB rfl _
  | bEnc rd rs1 => exact he.2 ▸ .dest rfl _
  | bDec rd rs1 => exact he.2 ▸ .dest rfl _
  | bRdk rd idx => exact he.2 ▸ .dest rfl _
  | mInit mode ciph rs1 => exact he.2.2 ▸ .init ⟨_, _, _, rfl⟩ _
  | mEncb rd rs1 => obtain ⟨-, y, m', -, rfl⟩ := he; exact .blockStep rfl ⟨_, _, .inl rfl⟩ y m'
  | mDecb rd rs1 => obtain ⟨-, y, m', -, rfl⟩ := he; exact .blockStep rfl ⟨_, _, .inr rfl⟩ y m'
  | mEncs => obtain ⟨-, -, ys, m', -, rfl⟩ := he; exact .message (.inl rfl) _ m'
  | mDecs => obtain ⟨-, -, -, ns, -, -, ys, m', -, rfl⟩ := he; exact .message (.inr rfl) _ m'
  | mEnd => exact he ▸ .endInstance rfl

theorem Writes.reg_of_ne_dest (hw : Writes i h u) {r : Reg} (hr : destReg i ≠ some r) : u.reg r = h.reg r := by
  cases hw with
  | dest hi v => exact reg_setReg_of_ne h v fun e => hr (e ▸ hi)
  | blockStep hi hb v m' => exact reg_setReg_of_ne h v fun e => hr (e ▸ hi)
  | _ => rfl

theorem Writes.keysA (hw : Writes i h u) (hi : ∀ rs1, i ≠ .aKey rs1) : u.ark = h.ark ∧ u.akv = h.akv := by
  cases hw with
  | keyA hk => exact absurd hk (hi _)
  | _ => exact ⟨rfl, rfl⟩

theorem Writes.keysB (hw : Writes i h u) (hi : ∀ rs1, i ≠ .bKey rs1) : u.bsk = h.bsk ∧ u.bkv = h.bkv := by
  cases hw with
  | keyB hk => exact absurd hk (hi _)
  | _ => exact ⟨rfl, rfl⟩

theorem Writes.modeUnit (hw : Writes i h u) (hi : ¬ isInit i) (hb : ¬ isBlockStep i) (hm : ¬ isMessage i) :
    u.m = h.m := by
  cases hw with
  | blockStep _ hb' => exact absurd hb' hb
  | init hi' => exact absurd hi' hi
  | message hm' => exact absurd hm' hm
  | _ => rfl

theorem Writes.mv (hw : Writes i h u) (hi : ¬ isInit i) (hm : ¬ isMessage i) (he : i ≠ .mEnd) : u.mv = h.mv := by
  cases hw with
  | init hi' => exact absurd hi' hi
  | message hm' => exact absurd hm' hm
  | endInstance he' => exact absurd he' he
  | _ => rfl

theorem Writes.queues (hw : Writes i h u) (hm : ¬ isMessage i) : u.sin = h.sin ∧ u.sout = h.sout := by
  cases hw with
  | message hm' => exact absurd hm' hm
  | _ => exact ⟨rfl, rfl⟩

theorem Writes.errorLog (hw : Writes i h u) : u.elog = h.elog ∧ u.ecmd = h.ecmd ∧ u.fatal = h.fatal := by
  cases hw <;> exact ⟨rfl, rfl, rfl⟩

/-- The four instructions that step the mode unit write of it `M.chain` or `M.ctr` alone (43_modes_block.md R172
to R176). -/
theorem Effect.unitFrame (he : Effect i h u) (hi : isBlockStep i ∨ isMessage i) : UnitFrame h.m u.m := by
  rcases hi with ⟨rd, rs1, rfl | rfl⟩ | rfl | rfl
  · obtain ⟨-, y, m', hs, rfl⟩ := he
    exact (encStep_frame hs).unitFrame
  · obtain ⟨-, y, m', hs, rfl⟩ := he
    exact (decStep_frame hs).unitFrame
  · obtain ⟨-, -, ys, m', hs, rfl⟩ := he
    exact runBlocks_unitFrame encStep_frame hs
  · obtain ⟨-, -, -, ns, -, -, ys, m', hs, rfl⟩ := he
    exact runBlocks_unitFrame decStep_frame hs

/-- A message that succeeds has emptied `sin` and only appended to `sout` (44_modes_stream.md R190). -/
theorem Effect.messageQueues (he : Effect i h u) (hi : isMessage i) :
    u.sin = [] ∧ ∃ out, u.sout = h.sout ++ out := by
  rcases hi with rfl | rfl
  · obtain ⟨-, -, ys, m', -, rfl⟩ := he
    exact ⟨rfl, _, rfl⟩
  · obtain ⟨-, -, -, ns, -, -, ys, m', -, rfl⟩ := he
    exact ⟨rfl, _, rfl⟩

end Success

/-- R199's premise, said of the code a failed command leaves in `ERR`. -/
theorem takesMessage_iff_code (i : Instr) (e : Err) :
    TakesMessage i e ↔
      isMessage i ∧ (e.code = Err.unimpl.code ∨ e.code = Err.format.code ∨ e.code = Err.ctrovf.code) := by
  have code_inj (f : Err) : e.code = f.code ↔ e = f := ⟨Err.code_injective, congrArg _⟩
  simp only [TakesMessage, code_inj]

/-- The two ways an instruction ends: with its effect, or with an error recorded over the state before it, of which
only `sin` may have been taken. -/
theorem exec_effect_or_raise {i : Instr} {s t : State} (h : exec i s = .next t) :
    (∃ u, Effect i s.toHardware u ∧ t = s.withHardware (succeed u)) ∨
    ∃ e q, (TakesMessage i e → q = []) ∧ (¬ TakesMessage i e → q = s.sin) ∧
      t = s.withHardware (raise e (encode i) { s.toHardware with sin := q }) := by
  rcases exec_cases h with ⟨-, rfl⟩ | ⟨-, u, he, rfl⟩ | ⟨-, e, u, ⟨hn, rfl⟩ | ⟨ht, rfl⟩, rfl⟩
  · exact .inr ⟨.fatald, s.sin, fun ht => by simp [TakesMessage] at ht, fun _ => rfl, rfl⟩
  · exact .inl ⟨u, he, rfl⟩
  · exact .inr ⟨e, s.sin, fun ht => absurd ht hn, fun _ => rfl, rfl⟩
  · exact .inr ⟨e, [], fun _ => rfl, fun hn => absurd ht hn, rfl⟩

/-- No host register shows anything but 0 after reset (10_state.md R35), and no read changes that. -/
theorem hostRead_reset (n : BitVec 8) : hostRead n Hardware.reset = (0, Hardware.reset) := by
  have reg_reset (r : Reg) : Hardware.reset.reg r = 0 := by simp [Hardware.reg, Hardware.reset]
  unfold hostRead
  split_ifs
  · rw [reg_reset]
  all_goals rfl

/-- The one-bit fields of `STATUS` (10_state.md R24). -/
theorem status_flags (h : Hardware) :
    h.status.getLsbD 0 = h.akv ∧ h.status.getLsbD 1 = h.bkv ∧ h.status.getLsbD 2 = h.mv ∧
      h.status.getLsbD 3 = h.fatal := by
  simp only [Hardware.status, BitVec.getLsbD_append]
  simp

/-- The wider fields of `STATUS` (10_state.md R24). -/
theorem status_fields (h : Hardware) :
    h.status.extractLsb' 4 4 = h.err ∧ h.status.extractLsb' 8 16 = h.elog ∧ h.status.extractLsb' 24 8 = 0#8 := by
  simp (disch := decide) only [Hardware.status, BitVec.extractLsb'_append_eq_of_le, Nat.reduceSub,
    BitVec.extractLsb'_append_eq_right, BitVec.extractLsb'_eq_self, and_self]

/-- The fields of `MCFG` (10_state.md R28). -/
theorem mcfg_fields (h : Hardware) :
    h.mcfg.extractLsb' 0 3 = modeNum h.m.mode ∧ h.mcfg.getLsbD 3 = false ∧
      h.mcfg.extractLsb' 4 1 = ciphNum h.m.ciph ∧ h.mcfg.extractLsb' 5 27 = 0#27 := by
  simp (disch := decide) only [Hardware.mcfg, BitVec.extractLsb'_append_eq_of_le, BitVec.getLsbD_append,
    Nat.reduceSub, BitVec.extractLsb'_append_eq_right, BitVec.extractLsb'_eq_self, and_self, true_and, and_true]
  simp

/-- The halves of `MCTR` (10_state.md R29). -/
theorem mctr_halves (h : Hardware) :
    h.mctr.extractLsb' 64 64 = h.m.nonce ∧ h.mctr.extractLsb' 0 64 = h.m.ctr :=
  ⟨BitVec.extractLsb'_append_eq_left, BitVec.extractLsb'_append_eq_right⟩

end Sys2Proof.Machine

open Sys2Proof Sys2Proof.Machine

/-- Settles O58: a success is one of the rows of `Writes`; a failure is `raise` over the state before it, up to
`sin`. -/
theorem instructionFrames : Obligations.InstructionFrames := by
  intro i s t h
  rcases exec_effect_or_raise h with ⟨u, he, rfl⟩ | ⟨e, q, htaken, hkept, rfl⟩
  · have hw := he.writes
    refine ⟨fun r => hw.reg_of_ne_dest, hw.keysA, hw.keysB, hw.modeUnit, fun hi => ?_, hw.mv, hw.queues,
      fun hi _ => he.messageQueues hi, fun _ => hw.errorLog, fun herr => absurd rfl herr⟩
    have hf := he.unitFrame hi
    exact ⟨hf.mode, hf.ciph, hf.nonce, hf.chain, hf.ctr⟩
  · have herr := raise_err_ne_zero e (encode i) { s.toHardware with sin := q }
    rw [takesMessage_iff_code] at htaken hkept
    exact ⟨fun _ _ => rfl, fun _ => ⟨rfl, rfl⟩, fun _ => ⟨rfl, rfl⟩, fun _ _ _ => rfl,
      fun _ => ⟨rfl, rfl, rfl, fun _ => rfl, fun _ => rfl⟩, fun _ _ _ => rfl,
      fun hi => ⟨hkept fun hc => hi hc.1, rfl⟩, fun _ h0 => absurd h0 herr, fun h0 => absurd h0 herr,
      fun _ => ⟨rfl, rfl, rfl, rfl, rfl, rfl, rfl, rfl, fun hc hi => htaken ⟨hi, hc⟩, hkept⟩⟩

/-- Settles O7: `Hardware.reset` holds the values of R35, and the host reads them (by `hostRead_reset`). -/
theorem resetStateIsAllZero : Obligations.ResetStateIsAllZero := by
  refine ⟨fun r => ?_, fun i => ?_, rfl, fun i => ?_, rfl, rfl, rfl, rfl, rfl, rfl, rfl, rfl, rfl, rfl, rfl, rfl, rfl,
    hostRead_reset⟩
  · simp [Hardware.reg, State.reset, Hardware.reset]
  · simp [State.reset, Hardware.reset]
  · simp [State.reset, Hardware.reset]

/-- Settles O18: each field is cut out of the concatenation that R24, R28 and R29 write down. -/
theorem statusAndModeRegisterLayout : Obligations.StatusAndModeRegisterLayout := by
  intro h
  obtain ⟨hakv, hbkv, hmv, hfatal⟩ := status_flags h
  obtain ⟨herr, helog, hzero⟩ := status_fields h
  obtain ⟨hmode, hbit, hciph, hhigh⟩ := mcfg_fields h
  exact ⟨hakv, hbkv, hmv, hfatal, herr, helog, hzero, fun _ => rfl, hmode, hbit, hciph, hhigh, rfl, rfl, rfl, rfl,
    mctr_halves h⟩

end

section
/-!
PROOFS of the family 20_memory.md: what a host read returns and a host write does, one rule per kind of register
number (R51 to R57).
-/
namespace Sys2Proof.Machine

/-- A queue's length as the host reads it: below 2^32, zero-extension keeps the number (20_memory.md R51, R52). -/
theorem countReg_setWidth (q : List Byte) :
    (countReg q).setWidth 128 = BitVec.ofNat 128 (min q.length (2 ^ 32 - 1)) :=
  BitVec.setWidth_ofNat_of_le_of_lt (by decide) (by omega)

/-- The number of a data register is below 16, so it has a meaning of its own (20_memory.md R51). -/
theorem dataReg_toNat (r : Reg) : (BitVec.ofNat 8 r.val).toNat = r.val :=
  Nat.mod_eq_of_lt (r.isLt.trans (by decide))

/-- A read of a data register (20_memory.md R53). -/
theorem hostRead_dataReg (r : Reg) (h : Hardware) : hostRead (BitVec.ofNat 8 r.val) h = (h.reg r, h) := by
  simp only [hostRead, dataReg_toNat, r.isLt, dif_pos, Fin.eta]

/-- A write to a data register (20_memory.md R53). -/
theorem hostWrite_dataReg (r : Reg) (v : Block) (h : Hardware) :
    hostWrite (BitVec.ofNat 8 r.val) v h = .next (h.setReg r v) := by
  simp only [hostWrite, dataReg_toNat, r.isLt, dif_pos, Fin.eta]

/-- Reading `SOUT` is `popSout` (20_memory.md R56). -/
theorem hostRead_sout (h : Hardware) : hostRead 0x1A h = popSout h := rfl

theorem popSout_cons {h : Hardware} {b : Byte} {rest : List Byte} (hq : h.sout = b :: rest) :
    popSout h = (b.setWidth 128, { h with sout := rest }) := by
  simp [popSout, hq]

theorem popSout_nil {h : Hardware} (hq : h.sout = []) : popSout h = (0, h) := by
  simp [popSout, hq]

/-- Only a read of `SOUT` changes the hardware (20_memory.md R56). -/
theorem hostRead_snd_of_ne_sout {n : BitVec 8} (hn : n ≠ 0x1A) (h : Hardware) : (hostRead n h).2 = h := by
  unfold hostRead
  split_ifs <;> rfl

/-- An unmapped number reads 0 (20_memory.md R57). -/
theorem hostRead_unmapped {n : BitVec 8} (hn : n = 0x17 ∨ 0x1B ≤ n.toNat) (h : Hardware) :
    hostRead n h = (0, h) := by
  rcases hn with rfl | hn
  · rfl
  · have hdata : ¬ n.toNat < 16 := by omega
    have hne (k : BitVec 8) (hk : k.toNat < 0x1B) : n ≠ k := by rintro rfl; omega
    simp (disch := decide) only [hostRead, hdata, hne, dif_neg, if_false]

/-- A write to a number with no write rule of its own, read-only or unmapped, is ignored (20_memory.md R57). -/
theorem hostWrite_ignored {n : BitVec 8} (hd : 16 ≤ n.toNat) (hcmd : n ≠ 0x18) (hsin : n ≠ 0x19) (v : Block)
    (h : Hardware) : hostWrite n v h = .next h := by
  rw [hostWrite, dif_neg hd.not_gt, if_neg hcmd, if_neg hsin]

end Sys2Proof.Machine

open Sys2Proof Sys2Proof.Machine

/-- Settles O16: one rule per kind of register number; a number that is read-only or unmapped is neither a data
register's nor `CMD` nor `SIN`. -/
theorem hostAccessesFollowTheRegisterMap : Obligations.HostAccessesFollowTheRegisterMap := by
  intro h
  refine ⟨fun r => hostRead_dataReg r h, rfl, rfl, rfl, rfl, rfl, congrArg (·, h) (countReg_setWidth h.sin),
    congrArg (·, h) (countReg_setWidth h.sout), rfl, rfl, fun n hn => hostRead_unmapped hn h,
    fun r v => hostWrite_dataReg r v h, fun v => rfl, fun n v hn => ?_⟩
  exact hostWrite_ignored (by bv_omega) (by bv_omega) (by bv_omega) v h

/-- Settles O17: `popSout` in its two cases, and `hostRead_snd_of_ne_sout`. -/
theorem soutReadPopsTheHead : Obligations.SoutReadPopsTheHead :=
  ⟨fun h _ _ hq => (hostRead_sout h).trans (popSout_cons hq), fun h hq => (hostRead_sout h).trans (popSout_nil hq),
    fun _ h hn => hostRead_snd_of_ne_sout hn h⟩

end

section
/-!
PROOFS of the family 30_encoding.md: what a word that decodes looks like, the opcode map's rows read as fields
(R71 to R73), and what a word outside the map does (R74).
-/
namespace Sys2Proof

open Laws.OpcodeField (opcodeOf formatOf)

/-- The fields of a word of this format: those it does not use are 0 (30_encoding.md R72). -/
def Format.fill (op : BitVec 8) (f : Fields) : Format → Fields
  | .f3 => ⟨op, f.rd, f.rs1, f.rs2, 0, 0, 0, 0⟩
  | .f2 => ⟨op, f.rd, f.rs1, 0, 0, 0, 0, 0⟩
  | .f1 => ⟨op, 0, f.rs1, 0, 0, 0, 0, 0⟩
  | .fk => ⟨op, f.rd, 0, 0, f.idx, 0, 0, 0⟩
  | .fm => ⟨op, 0, f.rs1, 0, 0, f.mode, f.ciph, 0⟩
  | .f0 => ⟨op, 0, 0, 0, 0, 0, 0, 0⟩

theorem Format.unusedZero_iff (fmt : Format) (f : Fields) : fmt.unusedZero f = true ↔ f = fmt.fill f.op f := by
  cases f
  cases fmt <;> simp [unusedZero, fill, and_assoc]

theorem encodeFields_eq_fill (i : Instr) : encodeFields i = (formatOf i).fill (opcodeOf i) (encodeFields i) := by
  cases i <;> rfl

/-- An answer of the decoder for these fields: a rejection, or a well-formed instruction that has them. -/
def DecodesOnly (f : Fields) (r : Except Reject Instr) : Prop :=
  ∀ i, r = .ok i → i.wellFormed = true ∧ encodeFields i = f

theorem decodesOnly_error (f : Fields) (e : Reject) : DecodesOnly f (.error e) := fun _ h => nomatch h

/-- A branch of the opcode map reads its instruction from the fields its format keeps. -/
theorem decodesOnly_checkFormat {fmt : Format} {f : Fields} {i : Instr} {op : BitVec 8} (hop : f.op = op)
    (hi : encodeFields i = fmt.fill op f) (hwf : i.wellFormed = true) : DecodesOnly f (checkFormat fmt f i) := by
  intro j h
  unfold checkFormat at h
  split at h
  next hz =>
    cases h
    rw [fmt.unusedZero_iff, hop] at hz
    exact ⟨hwf, hi.trans hz.symm⟩
  next => cases h

/-- A row of the opcode map without an extra condition, before the rows that follow it. -/
theorem decodesOnly_row {fmt : Format} {f : Fields} {i : Instr} {op : BitVec 8} {rest : Except Reject Instr}
    (hi : encodeFields i = fmt.fill op f) (hwf : i.wellFormed = true) (hrest : DecodesOnly f rest) :
    DecodesOnly f (if f.op = op then checkFormat fmt f i else rest) :=
  iteInduction (fun hop => decodesOnly_checkFormat hop hi hwf) fun _ => hrest

/-- Fields that decode are those of the instruction they decode to (30_encoding.md R73, R74). -/
theorem decodesOnly_decodeFields (f : Fields) : DecodesOnly f (decodeFields f) := by
  unfold decodeFields
  iterate 4 refine decodesOnly_row rfl rfl ?_
  refine iteInduction (fun hop => ?_) fun _ => ?_
  · exact iteInduction (fun hidx => decodesOnly_checkFormat hop rfl (decide_eq_true hidx)) fun _ =>
      decodesOnly_error f _
  iterate 4 refine decodesOnly_row rfl rfl ?_
  refine iteInduction (fun hop => ?_) fun _ => ?_
  · split
    next m hm =>
      refine decodesOnly_checkFormat hop ?_ rfl
      simp only [encodeFields, Mode.toField_of_ofField hm, Cipher.toField_ofField]
      rfl
    next => exact decodesOnly_error f _
  iterate 5 refine decodesOnly_row rfl rfl ?_
  exact decodesOnly_error f _

/-- The decoder reads a well-formed instruction back from its fields (30_encoding.md R71 to R73). -/
theorem decodeFields_encodeFields {i : Instr} (hwf : i.wellFormed = true) : decodeFields (encodeFields i) = .ok i := by
  cases i with
  | aRdk rd idx =>
    have hidx : idx.val ≤ 10 := of_decide_eq_true hwf
    exact if_pos hidx
  | mInit mode ciph rs1 => cases mode <;> cases ciph <;> rfl
  | _ => rfl

/-- A word decodes to the well-formed instruction whose fields it has, and to no other (30_encoding.md R73, R74). -/
theorem decode_eq_ok_iff {w : Word} {i : Instr} :
    decode w = .ok i ↔ i.wellFormed = true ∧ encodeFields i = Fields.ofWord w := by
  refine ⟨decodesOnly_decodeFields _ i, fun ⟨hwf, hi⟩ => ?_⟩
  rw [decode, ← hi, decodeFields_encodeFields hwf]

/-! A row's match and mask, read as fields (30_encoding.md R73). -/

/-- Fields and-ed one by one. -/
def Fields.and (f g : Fields) : Fields :=
  ⟨f.op &&& g.op, f.rd &&& g.rd, f.rs1 &&& g.rs1, f.rs2 &&& g.rs2, f.idx &&& g.idx, f.mode &&& g.mode,
    f.ciph &&& g.ciph, f.z &&& g.z⟩

theorem Fields.ofWord_and (w v : Word) : Fields.ofWord (w &&& v) = (Fields.ofWord w).and (Fields.ofWord v) := by
  simp only [Fields.ofWord, Fields.and, BitVec.extractLsb'_and]

theorem Fields.ofWord_inj {w v : Word} : Fields.ofWord w = Fields.ofWord v ↔ w = v :=
  ⟨fun h => by rw [← Fields.toWord_ofWord w, h, Fields.toWord_ofWord], congrArg _⟩

/-- The fields of a word that is an opcode and zeros. -/
theorem Fields.ofWord_op (op : BitVec 8) : Fields.ofWord (op ++ 0#24) = ⟨op, 0, 0, 0, 0, 0, 0, 0⟩ := by
  revert op
  decide

/-- The `mask` column of 30_encoding.md R73, which is the same for all rows of a format. -/
def Format.mask : Format → Word
  | .f3 => 0xFF000FFF
  | .f2 => 0xFF00FFFF
  | .f1 => 0xFFF0FFFF
  | .fk => 0xFF0FF0FF
  | .fm => 0xFFF0FF07
  | .f0 => 0xFFFFFFFF

/-- The mask has ones in `op` and in the fields the format does not use, zeros elsewhere. -/
def Format.maskFields : Format → Fields
  | .f3 => ⟨.allOnes 8, 0, 0, 0, .allOnes 4, .allOnes 4, .allOnes 1, .allOnes 3⟩
  | .f2 => ⟨.allOnes 8, 0, 0, .allOnes 4, .allOnes 4, .allOnes 4, .allOnes 1, .allOnes 3⟩
  | .f1 => ⟨.allOnes 8, .allOnes 4, 0, .allOnes 4, .allOnes 4, .allOnes 4, .allOnes 1, .allOnes 3⟩
  | .fk => ⟨.allOnes 8, 0, .allOnes 4, .allOnes 4, 0, .allOnes 4, .allOnes 1, .allOnes 3⟩
  | .fm => ⟨.allOnes 8, .allOnes 4, 0, .allOnes 4, .allOnes 4, 0, 0, .allOnes 3⟩
  | .f0 => ⟨.allOnes 8, .allOnes 4, .allOnes 4, .allOnes 4, .allOnes 4, .allOnes 4, .allOnes 1, .allOnes 3⟩

theorem Format.ofWord_mask (fmt : Format) : Fields.ofWord fmt.mask = fmt.maskFields := by cases fmt <;> decide

theorem Format.and_maskFields_eq_iff (fmt : Format) (f : Fields) (op : BitVec 8) :
    f.and fmt.maskFields = ⟨op, 0, 0, 0, 0, 0, 0, 0⟩ ↔ f = fmt.fill op f := by
  cases f
  cases fmt <;> simp [-BitVec.reduceAllOnes, maskFields, fill, Fields.and]

/-- A word that meets match and mask of a row has the row's opcode, and zeros in the fields its format does not
use. -/
theorem and_mask_eq_iff {w : Word} {fmt : Format} {op : BitVec 8} :
    w &&& fmt.mask = op ++ 0#24 ↔ Fields.ofWord w = fmt.fill op (Fields.ofWord w) := by
  rw [← Fields.ofWord_inj, Fields.ofWord_and, Format.ofWord_mask, Fields.ofWord_op, Format.and_maskFields_eq_iff]

/-- A word that meets match and mask of a row decodes to the instruction with the operands the row's format keeps. -/
theorem decode_of_and_mask {w : Word} {i : Instr} (fmt : Format) (op : BitVec 8) (hw : w &&& fmt.mask = op ++ 0#24)
    (hi : encodeFields i = fmt.fill op (Fields.ofWord w)) (hwf : i.wellFormed = true) : decode w = .ok i :=
  decode_eq_ok_iff.2 ⟨hwf, hi.trans (and_mask_eq_iff.1 hw).symm⟩

theorem Mode.toNat_modeNum (m : Mode) : (Machine.modeNum m).toNat = m.toField.toNat := by cases m <;> rfl

theorem Cipher.toNat_ciphNum (c : Cipher) : (Machine.ciphNum c).toNat = c.toField.toNat := by cases c <;> rfl

/-- The extra condition of the `M.INIT` row: the number is a mode's (30_encoding.md R73, R77). -/
theorem Mode.exists_toField_iff {f : BitVec 4} : (∃ m : Mode, m.toField = f) ↔ f.toNat ≤ 4 := by
  have hsome : f.toNat ≤ 4 → (Mode.ofField f).isSome = true := by revert f; decide
  constructor
  · rintro ⟨m, rfl⟩
    cases m <;> decide
  · intro hf
    obtain ⟨m, hm⟩ := Option.isSome_iff_exists.1 (hsome hf)
    exact ⟨m, Mode.toField_of_ofField hm⟩

namespace Machine

/-- The row of 30_encoding.md R73 that stands for an instruction. -/
def rowOf (i : Instr) : OpcodeRow where
  mat := opcodeOf i ++ 0#24
  mask := (formatOf i).mask
  maxIdx := match i with | .aRdk _ _ => 10 | _ => 15
  maxMode := match i with | .mInit _ _ _ => 4 | _ => 15

theorem rowOf_mem (i : Instr) : rowOf i ∈ opcodeRows := by
  cases i <;> (simp only [rowOf, opcodeOf, formatOf]; decide)

/-- A word that decodes is selected by its instruction's row. -/
theorem rowOf_selects {w : Word} {i : Instr} (h : decode w = .ok i) : (rowOf i).selects w := by
  obtain ⟨hwf, hi⟩ := decode_eq_ok_iff.1 h
  refine ⟨and_mask_eq_iff.2 (hi ▸ encodeFields_eq_fill i), ?_, ?_⟩
  · change (Fields.ofWord w).idx.toNat ≤ _
    rw [← hi]
    cases i with
    | aRdk rd idx => exact of_decide_eq_true hwf
    | _ => exact Nat.le_of_lt_succ (BitVec.isLt _)
  · change (Fields.ofWord w).mode.toNat ≤ _
    rw [← hi]
    cases i with
    | mInit mode ciph rs1 => exact Mode.exists_toField_iff.1 ⟨mode, rfl⟩
    | _ => exact Nat.le_of_lt_succ (BitVec.isLt _)

/-- The top byte of a word that a row selects is the top byte of its match. -/
theorem OpcodeRow.selects_op {r : OpcodeRow} (hr : r ∈ opcodeRows) {w : Word} (h : r.selects w) :
    w &&& 0xFF000000#32 = r.mat := by
  have hrow : ∀ r ∈ opcodeRows, r.mask &&& 0xFF000000 = 0xFF000000#32 ∧ r.mat &&& 0xFF000000 = r.mat := by decide
  obtain ⟨hmask, hmat⟩ := hrow r hr
  calc w &&& 0xFF000000#32 = w &&& r.mask &&& 0xFF000000 := by rw [BitVec.and_assoc, hmask]
    _ = r.mat := by rw [h.1, hmat]

/-- No two rows have the same match. -/
theorem opcodeRows_mat_injective : ∀ r ∈ opcodeRows, ∀ q ∈ opcodeRows, r.mat = q.mat → r = q := by decide

/-- An error other than `WIDTH` leaves `FATAL` (60_exceptions.md R213). -/
theorem raise_of_ne_width {e : Err} (he : e ≠ .width) (w : Word) (h : Hardware) :
    raise e w h = { h with err := e.code, elog := logErr h.elog e, ecmd := w } := by
  simp [raise, he]

/-- A word outside the opcode map does not decode (30_encoding.md R74). -/
theorem decode_error_of_no_row {w : Word} (hw : ∀ r ∈ opcodeRows, ¬ r.selects w) : ∃ e, decode w = .error e := by
  cases hd : decode w with
  | error e => exact ⟨e, rfl⟩
  | ok i => exact absurd (rowOf_selects hd) (hw _ (rowOf_mem i))

end Machine

end Sys2Proof

open Sys2Proof Sys2Proof.Machine

/-- Settles O3: match and mask are the format's (`and_mask_eq_iff`), and fields decide the instruction. -/
theorem decodeFollowsOpcodeMap : Obligations.DecodeFollowsOpcodeMap := by
  intro w
  refine ⟨fun h => decode_of_and_mask .f3 0x10 h rfl rfl, fun h => decode_of_and_mask .f1 0x20 h rfl rfl,
    fun h => decode_of_and_mask .f2 0x21 h rfl rfl, fun h => decode_of_and_mask .f2 0x22 h rfl rfl,
    fun h hidx => decode_of_and_mask .fk 0x23 h rfl (decide_eq_true hidx),
    fun h => decode_of_and_mask .f1 0x30 h rfl rfl, fun h => decode_of_and_mask .f2 0x31 h rfl rfl,
    fun h => decode_of_and_mask .f2 0x32 h rfl rfl, fun h => decode_of_and_mask .fk 0x33 h rfl rfl,
    fun h m c hm hc => decode_of_and_mask .fm 0x40 h ?_ rfl,
    fun h => decode_of_and_mask .f2 0x41 h rfl rfl, fun h => decode_of_and_mask .f2 0x42 h rfl rfl,
    fun h => h ▸ rfl, fun h => h ▸ rfl, fun h => h ▸ rfl, fun i hi => ⟨rowOf i, rowOf_mem i, rowOf_selects hi⟩⟩
  have hmode : m.toField = (Fields.ofWord w).mode := BitVec.eq_of_toNat_eq (m.toNat_modeNum.symm.trans hm.symm)
  have hciph : c.toField = (Fields.ofWord w).ciph := BitVec.eq_of_toNat_eq (c.toNat_ciphNum.symm.trans hc.symm)
  simp only [encodeFields, hmode, hciph]
  rfl

/-- Settles O4: a row is known by its opcode (`OpcodeRow.selects_op`), and each row's words decode by
`decodeFollowsOpcodeMap`. -/
theorem everyWordSelectsOneRowOrIsIllegal : Obligations.EveryWordSelectsOneRowOrIsIllegal := by
  intro w
  refine ⟨fun r hr q hq hrw hqw => ?_, fun ⟨i, hi⟩ => ⟨rowOf i, rowOf_mem i, rowOf_selects hi⟩, ?_⟩
  · have hmat : r.mat = q.mat := (OpcodeRow.selects_op hr hrw).symm.trans (OpcodeRow.selects_op hq hqw)
    exact opcodeRows_mat_injective r hr q hq hmat
  obtain ⟨gfMul, aKey, aEnc, aDec, aRdk, bKey, bEnc, bDec, bRdk, mInit, mEncb, mDecb, mEncs, mDecs, mEnd, -⟩ :=
    decodeFollowsOpcodeMap w
  have hfull {op : Word} (h : w &&& 0xFFFFFFFF = op) : w = op := BitVec.and_allOnes.symm.trans h
  suffices hrow : ∀ r ∈ opcodeRows, r.selects w → ∃ i, decode w = .ok i from fun ⟨r, hr, hw⟩ => hrow r hr hw
  simp only [opcodeRows, List.forall_mem_cons]
  refine ⟨fun h => ⟨_, gfMul h.1⟩, fun h => ⟨_, aKey h.1⟩, fun h => ⟨_, aEnc h.1⟩, fun h => ⟨_, aDec h.1⟩,
    fun h => ⟨_, aRdk h.1 h.2.1⟩, fun h => ⟨_, bKey h.1⟩, fun h => ⟨_, bEnc h.1⟩, fun h => ⟨_, bDec h.1⟩,
    fun h => ⟨_, bRdk h.1⟩, fun ⟨h, _, hmode⟩ => ?_, fun h => ⟨_, mEncb h.1⟩, fun h => ⟨_, mDecb h.1⟩,
    fun h => ⟨_, mEncs (hfull h.1)⟩, fun h => ⟨_, mDecs (hfull h.1)⟩, fun h => ⟨_, mEnd (hfull h.1)⟩, by simp⟩
  obtain ⟨m, hm⟩ := Mode.exists_toField_iff.2 hmode
  refine ⟨_, mInit h m (Cipher.ofField (w.extractLsb' 3 1)) ?_ ?_⟩
  · rw [Mode.toNat_modeNum, hm]
  · rw [Cipher.toNat_ciphNum, Cipher.toField_ofField]

/-- Settles O8: `rejectWord` raises the one of the two errors that is due, and neither is `WIDTH`. -/
theorem wordSelectingNoRowIsIllegal : Obligations.WordSelectingNoRowIsIllegal := by
  intro w h hw
  obtain ⟨e, he⟩ := decode_error_of_no_row hw
  rw [runWord_of_error he, rejectWord]
  refine ⟨fun hf => ?_, fun hf => ?_⟩
  · rw [if_neg (by simp [hf]), raise_of_ne_width (by decide)]
    rfl
  · rw [if_pos hf, raise_of_ne_width (by decide)]
    rfl

end

section
/-!
PROOFS of the family 40_gf256.md: the instruction `GF.MUL` (R92).
-/
namespace Sys2Proof

theorem decode_encode {i : Instr} (hwf : i.wellFormed = true) : decode (encode i) = .ok i :=
  decode_eq_ok_iff.2 ⟨hwf, (Fields.ofWord_toWord (encodeFields i)).symm⟩

namespace Machine

/-- An operand of `GF.MUL` is bits 7 to 0 of its register (10_state.md R37). -/
theorem reg8_eq_extractLsb' (h : Hardware) (r : Reg) : h.reg8 r = (h.reg r).extractLsb' 0 8 :=
  BitVec.setWidth_eq_extractLsb' (by decide)

/-- `GF.MUL` has no checks of its own: off a fatal core it completes, its destination written (40_gf256.md R92). -/
theorem exec_gfMul_of_not_fatal (rd rs1 rs2 : Reg) {s : State} (hf : s.fatal = false) :
    exec (.gfMul rd rs1 rs2) s = .next (s.withHardware (succeed
      (s.toHardware.setReg rd ((gfmul (s.reg8 rs1) (s.reg8 rs2)).setWidth 128)))) :=
  exec_of_effect hf rfl

end Machine

end Sys2Proof

open Sys2Proof Sys2Proof.Machine

/-- Settles O19: the word decodes because it is the instruction's encoding; a fatal core refuses every instruction;
otherwise `exec_gfMul_of_not_fatal` gives the state, whose operands `reg8` reads as the low bytes. -/
theorem gfMulInstruction : Obligations.GfMulInstruction := by
  intro rd rs1 rs2 s
  rw [← encode_gfMul]
  refine ⟨decode_encode rfl, exec_of_fatal _, fun hf => ?_⟩
  rw [exec_gfMul_of_not_fatal rd rs1 rs2 hf, reg8_eq_extractLsb', reg8_eq_extractLsb']
  rfl

end

section
/-!
PROOFS of the family 41_cipher_a.md, the field under it: `gfmul` is additive in each operand (40_gf256.md R90), so
its laws (R91) are settled on the eight bytes with one bit set.
-/
namespace Sys2Proof.Machine

/-- `f` respects the addition of GF(2^8), which is xor. -/
def XorHom (f : Byte → Byte) : Prop := ∀ a b, f (a ^^^ b) = f a ^^^ f b

theorem XorHom.map_zero {f : Byte → Byte} (hf : XorHom f) : f 0 = 0 := by
  simpa using hf 0 0

theorem XorHom.comp {f g : Byte → Byte} (hf : XorHom f) (hg : XorHom g) : XorHom (fun a => f (g a)) :=
  fun a b => (congrArg f (hg a b)).trans (hf _ _)

/-- Additive functions that agree on the summands agree on the sum. -/
theorem XorHom.eq_on_sum {f g : Byte → Byte} (hf : XorHom f) (hg : XorHom g) {l : List Byte}
    (h : ∀ x ∈ l, f x = g x) : f (l.foldr (· ^^^ ·) 0) = g (l.foldr (· ^^^ ·) 0) := by
  induction l with
  | nil => exact hf.map_zero.trans hg.map_zero.symm
  | cons x l ih =>
    obtain ⟨hx, hl⟩ := List.forall_mem_cons.1 h
    rw [List.foldr_cons, hf, hg, hx, ih hl]

/-- The bits of a byte that are set, each as a byte. -/
def setBits (a : Byte) : List Byte := ((List.range 8).filter a.getLsbD).map (BitVec.twoPow 8)

theorem foldr_xor_setBits (a : Byte) : (setBits a).foldr (· ^^^ ·) 0 = a := by
  revert a
  decide

/-- Additive functions that agree on the bytes with one bit set agree. -/
theorem XorHom.eq_of_twoPow {f g : Byte → Byte} (hf : XorHom f) (hg : XorHom g)
    (hbit : ∀ i < 8, f (BitVec.twoPow 8 i) = g (BitVec.twoPow 8 i)) (a : Byte) : f a = g a := by
  rw [← foldr_xor_setBits a]
  refine hf.eq_on_sum hg fun x hx => ?_
  obtain ⟨i, hi, rfl⟩ := List.mem_map.1 hx
  exact hbit i (List.mem_range.1 (List.mem_of_mem_filter hi))

/-- Adding `z` where one of two conditions holds, but not both, is adding it on either side where its own holds. -/
theorem ite_xor_xor (p q : Bool) (x y z : Byte) :
    (if p ^^ q then x ^^^ y ^^^ z else x ^^^ y) = (if p then x ^^^ z else x) ^^^ (if q then y ^^^ z else y) := by
  cases p <;> cases q
  · rfl
  · exact BitVec.xor_assoc x y z
  · change x ^^^ y ^^^ z = x ^^^ z ^^^ y
    ac_rfl
  · change x ^^^ y = x ^^^ z ^^^ (y ^^^ z)
    rw [BitVec.xor_comm y z, BitVec.xor_assoc, ← BitVec.xor_assoc z z y, BitVec.xor_self, BitVec.zero_xor]

theorem gfShift_xor : XorHom gfShift := by
  intro a b
  simp only [gfShift, BitVec.getLsbD_xor, BitVec.shiftLeft_xor_distrib, ite_xor_xor]

theorem gfLoop_xor_left (n : Nat) (acc acc' a a' b : Byte) :
    gfLoop n (acc ^^^ acc') (a ^^^ a') b = gfLoop n acc a b ^^^ gfLoop n acc' a' b := by
  induction n generalizing acc acc' a a' b with
  | zero => rfl
  | succ n ih =>
    simp only [gfLoop, gfShift_xor a a', ← ih]
    congr 1
    split
    · ac_rfl
    · rfl

theorem gfLoop_xor_right (n : Nat) (acc acc' a b b' : Byte) :
    gfLoop n (acc ^^^ acc') a (b ^^^ b') = gfLoop n acc a b ^^^ gfLoop n acc' a b' := by
  induction n generalizing acc acc' a b b' with
  | zero => rfl
  | succ n ih => simp only [gfLoop, BitVec.ushiftRight_xor_distrib, BitVec.getLsbD_xor, ite_xor_xor, ih]

theorem gfmul_xor_left (b : Byte) : XorHom (gfmul · b) := fun a a' => gfLoop_xor_left 8 0 0 a a' b

theorem gfmul_xor_right (a : Byte) : XorHom (gfmul a) := fun b b' => gfLoop_xor_right 8 0 0 a b b'

theorem gfmul_comm (a b : Byte) : gfmul a b = gfmul b a := by
  refine (gfmul_xor_left b).eq_of_twoPow (gfmul_xor_right b) (fun i hi => ?_) a
  refine (gfmul_xor_right _).eq_of_twoPow (gfmul_xor_left _) (fun j hj => ?_) b
  revert i j
  decide

theorem gfmul_assoc (a b c : Byte) : gfmul (gfmul a b) c = gfmul a (gfmul b c) := by
  refine ((gfmul_xor_left c).comp (gfmul_xor_left b)).eq_of_twoPow (gfmul_xor_left _) (fun i hi => ?_) a
  refine ((gfmul_xor_left c).comp (gfmul_xor_right _)).eq_of_twoPow
    ((gfmul_xor_right _).comp (gfmul_xor_left c)) (fun j hj => ?_) b
  refine (gfmul_xor_right _).eq_of_twoPow ((gfmul_xor_right _).comp (gfmul_xor_right _)) (fun k hk => ?_) c
  revert i j k
  decide

theorem gfmul_one (a : Byte) : gfmul a 1 = a := by
  refine (gfmul_xor_left 1).eq_of_twoPow (g := id) (fun _ _ => rfl) (fun i hi => ?_) a
  revert i
  decide

/-- A byte has at most one inverse in the field. -/
theorem gfmul_inverse_unique {x b c : Byte} (hb : gfmul x b = 1) (hc : gfmul x c = 1) : b = c :=
  calc b = gfmul b (gfmul x c) := by rw [hc, gfmul_one]
    _ = gfmul (gfmul x b) c := by rw [← gfmul_assoc, gfmul_comm b x]
    _ = c := by rw [hb, gfmul_comm, gfmul_one]

end Sys2Proof.Machine
end

section
/-!
PROOFS of the family 41_cipher_a.md, the cipher: the substitution table (R100, R101, R116), the steps of a round and
those that undo them (R105 to R108, R116), the network (R109) and the key schedule (R102, R103).
-/
namespace Sys2Proof.Machine

/-! Lists of one length laid end to end: the rows of the substitution table, the columns of a block. -/

theorem length_flatMap_range {m n : Nat} {g : Nat → List Byte} (hg : ∀ c < n, (g c).length = m) :
    ((List.range n).flatMap g).length = m * n := by
  induction n with
  | zero => rfl
  | succ n ih =>
    rw [List.range_succ, List.flatMap_append, List.flatMap_singleton, List.length_append,
      ih fun c hc => hg c (Nat.lt_succ_of_lt hc), hg n (Nat.lt_succ_self n), Nat.mul_succ]

/-- Entry `m * c + r` is entry `r` of list `c`. -/
theorem getD_flatMap_range {m n c r : Nat} {g : Nat → List Byte} (hg : ∀ c < n, (g c).length = m) (hc : c < n)
    (hr : r < m) : ((List.range n).flatMap g).getD (m * c + r) 0 = (g c).getD r 0 := by
  induction n with
  | zero => exact absurd hc (Nat.not_lt_zero c)
  | succ n ih =>
    have hg' : ∀ c < n, (g c).length = m := fun c hc => hg c (Nat.lt_succ_of_lt hc)
    have hlen := length_flatMap_range hg'
    rw [List.range_succ, List.flatMap_append, List.flatMap_singleton]
    rcases Nat.lt_succ_iff_lt_or_eq.1 hc with hlt | rfl
    · have hin : m * c + r < m * n := by
        calc m * c + r < m * (c + 1) := by rw [Nat.mul_succ]; omega
          _ ≤ m * n := Nat.mul_le_mul_left m hlt
      rw [List.getD_append _ _ _ _ (hlen ▸ hin), ih hg' hlt]
    · rw [List.getD_append_right _ _ _ _ (by omega), hlen, Nat.add_sub_cancel_left]

/-! The substitution table (41_cipher_a.md R100, R101, R116). -/

/-- The bit-affine map of 41_cipher_a.md R101. -/
def sboxAffine (b : Byte) : Byte :=
  b ^^^ b.rotateLeft 1 ^^^ b.rotateLeft 2 ^^^ b.rotateLeft 3 ^^^ b.rotateLeft 4 ^^^ 0x63

/-- The bit-affine map the other way. -/
def sboxAffineInv (y : Byte) : Byte := y.rotateLeft 1 ^^^ y.rotateLeft 3 ^^^ y.rotateLeft 6 ^^^ 0x05

theorem sboxAffine_sboxAffineInv (y : Byte) : sboxAffine (sboxAffineInv y) = y := by
  revert y
  decide

/-- Taken back through the affine map, an entry of the table is its index's inverse. -/
theorem gfmul_sboxAffineInv_sbox {x : Byte} (hx : x ≠ 0) : gfmul x (sboxAffineInv (sbox x)) = 1 := by
  revert x
  decide

theorem sbox_of_inverse {x b : Byte} (h : gfmul x b = 1) : sbox x = sboxAffine b := by
  have hx : x ≠ 0 := by
    rintro rfl
    rw [(gfmul_xor_left b).map_zero] at h
    exact absurd h (by decide)
  rw [gfmul_inverse_unique h (gfmul_sboxAffineInv_sbox hx), sboxAffine_sboxAffineInv]

/-- Equal entries of the table have an inverse in common. -/
theorem sbox_injective : Function.Injective sbox := by
  intro x y h
  have hzero : ∀ z, sbox z = sbox 0 → z = 0 := by decide
  by_cases hx : x = 0
  · exact hx.trans (hzero y (h.symm.trans (congrArg sbox hx))).symm
  by_cases hy : y = 0
  · exact (hzero x (h.trans (congrArg sbox hy))).trans hy.symm
  have hxb := gfmul_sboxAffineInv_sbox hx
  have hyb := gfmul_sboxAffineInv_sbox hy
  rw [gfmul_comm] at hxb hyb
  exact gfmul_inverse_unique (h ▸ hxb) hyb

theorem sbox_bijective : Function.Bijective sbox := Finite.injective_iff_bijective.1 sbox_injective

theorem length_sboxRows_getD : ∀ c < 16, (sboxRows.getD c []).length = 16 := by decide

theorem flatten_sboxRows : sboxRows.flatten = (List.range 16).flatMap (sboxRows.getD · []) := rfl

theorem length_flatten_sboxRows : sboxRows.flatten.length = 256 := by
  rw [flatten_sboxRows, length_flatMap_range length_sboxRows_getD]

/-- The table row after row is `SBOX` at 0, 1, 2 and so on (41_cipher_a.md R100). -/
theorem getElem_flatten_sboxRows {j : Nat} (hj : j < sboxRows.flatten.length) :
    sboxRows.flatten[j] = sbox (BitVec.ofNat 8 j) := by
  have h256 : j < 256 := length_flatten_sboxRows ▸ hj
  have hentry := getD_flatMap_range (r := j % 16) length_sboxRows_getD (Nat.div_lt_of_lt_mul (by omega : j < 16 * 16))
    (Nat.mod_lt _ (by decide))
  rw [Nat.div_add_mod, ← flatten_sboxRows, List.getD_eq_getElem _ _ hj] at hentry
  rw [hentry, sbox, BitVec.toNat_ofNat, Nat.mod_eq_of_lt h256]

/-- An entry's first place in the table is its index, as no two entries are equal. -/
theorem invSbox_sbox (x : Byte) : invSbox (sbox x) = x := by
  have hfind : sboxRows.flatten.findIdx (· == sbox x) = x.toNat := by
    have hx : x.toNat < sboxRows.flatten.length := length_flatten_sboxRows ▸ x.isLt
    rw [List.findIdx_eq hx]
    refine ⟨by simp [getElem_flatten_sboxRows], fun j hj => ?_⟩
    rw [getElem_flatten_sboxRows, beq_eq_false_iff_ne]
    intro hsame
    have hj' : (BitVec.ofNat 8 j).toNat = x.toNat := congrArg BitVec.toNat (sbox_injective hsame)
    rw [BitVec.toNat_ofNat, Nat.mod_eq_of_lt (hj.trans x.isLt)] at hj'
    exact hj.ne hj'
  rw [invSbox, hfind, BitVec.ofNat_toNat, BitVec.setWidth_eq]

/-! The steps of a round on bytes (41_cipher_a.md R105 to R108), and the steps that undo them (R116). -/

/-- A block is its sixteen bytes. -/
theorem eq_of_byteOf_eq {s t : Block} (h : ∀ k < 16, byteOf 16 s k = byteOf 16 t k) : s = t := by
  have hbytes : toBytes 16 s = toBytes 16 t := List.map_congr_left fun k hk => h k (List.mem_range.1 hk)
  rw [← fromBytes_toBytes_16 s, hbytes, fromBytes_toBytes_16]

theorem byteOf_fromBytes_map_toBytes (f : Byte → Byte) (s : Block) {k : Nat} (hk : k < 16) :
    byteOf 16 (fromBytes ((toBytes 16 s).map f)) k = f (byteOf 16 s k) := by
  rw [byteOf_fromBytes _ 16 k (by simp) le_rfl hk, List.getD_eq_getElem _ _ (by simpa using hk), List.getElem_map,
    getElem_toBytes]

theorem byteOf_subBytes (s : Block) {k : Nat} (hk : k < 16) : byteOf 16 (subBytes s) k = sbox (byteOf 16 s k) :=
  byteOf_fromBytes_map_toBytes sbox s hk

theorem byteOf_invSubBytes (s : Block) {k : Nat} (hk : k < 16) :
    byteOf 16 (invSubBytes s) k = invSbox (byteOf 16 s k) :=
  byteOf_fromBytes_map_toBytes invSbox s hk

theorem invSubBytes_subBytes (s : Block) : invSubBytes (subBytes s) = s :=
  eq_of_byteOf_eq fun k hk => by rw [byteOf_invSubBytes _ hk, byteOf_subBytes _ hk, invSbox_sbox]

/-- A step that moves bytes: byte `k` of the result is the byte its table of sources names. -/
theorem byteOf_fromBytes_map_byteOf {src : List Nat} (hsrc : src.length = 16) (s : Block) {k : Nat} (hk : k < 16) :
    byteOf 16 (fromBytes (src.map (byteOf 16 s))) k = byteOf 16 s (src.getD k 0) := by
  rw [byteOf_fromBytes _ 16 k (by simpa using hsrc) le_rfl hk, List.getD_eq_getElem _ _ (by simpa [hsrc] using hk),
    List.getElem_map, List.getD_eq_getElem _ _ (by simpa [hsrc] using hk)]

theorem byteOf_shiftRows (s : Block) {k : Nat} (hk : k < 16) :
    byteOf 16 (shiftRows s) k = byteOf 16 s (shiftRowsSrc.getD k 0) :=
  byteOf_fromBytes_map_byteOf rfl s hk

theorem byteOf_invShiftRows (s : Block) {k : Nat} (hk : k < 16) :
    byteOf 16 (invShiftRows s) k = byteOf 16 s (invShiftRowsSrc.getD k 0) :=
  byteOf_fromBytes_map_byteOf rfl s hk

/-- The source of byte `4c + r` under `ShiftRows` (41_cipher_a.md R107). -/
theorem shiftRowsSrc_getD : ∀ r < 4, ∀ c < 4, shiftRowsSrc.getD (4 * c + r) 0 = 4 * ((c + r) % 4) + r := by decide

theorem shiftRowsSrc_invShiftRowsSrc : ∀ k < 16, invShiftRowsSrc.getD k 0 < 16 ∧
    shiftRowsSrc.getD (invShiftRowsSrc.getD k 0) 0 = k := by decide

theorem invShiftRows_shiftRows (s : Block) : invShiftRows (shiftRows s) = s :=
  eq_of_byteOf_eq fun k hk => by
    obtain ⟨hlt, hsrc⟩ := shiftRowsSrc_invShiftRowsSrc k hk
    rw [byteOf_invShiftRows _ hk, byteOf_shiftRows _ hlt, hsrc]

/-- Byte `4c + r` after a step on columns: entry `r` of what the step makes of column `c`. -/
theorem byteOf_onColumns {f : Byte → Byte → Byte → Byte → List Byte}
    (hf : ∀ b0 b1 b2 b3, (f b0 b1 b2 b3).length = 4) (s : Block) {c r : Nat} (hc : c < 4) (hr : r < 4) :
    byteOf 16 (onColumns f s) (4 * c + r) =
      (f (byteOf 16 s (4 * c)) (byteOf 16 s (4 * c + 1)) (byteOf 16 s (4 * c + 2))
        (byteOf 16 s (4 * c + 3))).getD r 0 := by
  rw [onColumns, byteOf_fromBytes _ 16 _ (length_flatMap_range fun _ _ => hf _ _ _ _) le_rfl (by omega),
    getD_flatMap_range (fun _ _ => hf _ _ _ _) hc hr]

/-- Byte for byte, counted by column and row (41_cipher_a.md R105). -/
theorem eq_of_byteOf_column_eq {s t : Block}
    (h : ∀ c < 4, ∀ r < 4, byteOf 16 s (4 * c + r) = byteOf 16 t (4 * c + r)) : s = t :=
  eq_of_byteOf_eq fun k hk => by
    have := h (k / 4) (by omega) (k % 4) (Nat.mod_lt _ (by decide))
    rwa [Nat.div_add_mod] at this

/-- A step on columns is undone by one that undoes it on each column. -/
theorem onColumns_onColumns_of_inverse {f g : Byte → Byte → Byte → Byte → List Byte}
    (hf : ∀ b0 b1 b2 b3, (f b0 b1 b2 b3).length = 4)
    (hinv : ∀ b0 b1 b2 b3, ∃ c0 c1 c2 c3, f b0 b1 b2 b3 = [c0, c1, c2, c3] ∧ g c0 c1 c2 c3 = [b0, b1, b2, b3])
    (hg : ∀ b0 b1 b2 b3, (g b0 b1 b2 b3).length = 4) (s : Block) : onColumns g (onColumns f s) = s := by
  refine eq_of_byteOf_column_eq fun c hc r hr => ?_
  have hbyte {r : Nat} (hr : r < 4) := byteOf_onColumns hf s hc hr
  obtain ⟨c0, c1, c2, c3, hcol, hback⟩ :=
    hinv (byteOf 16 s (4 * c)) (byteOf 16 s (4 * c + 1)) (byteOf 16 s (4 * c + 2)) (byteOf 16 s (4 * c + 3))
  rw [hcol] at hbyte
  have h0 : byteOf 16 (onColumns f s) (4 * c) = c0 := hbyte (r := 0) (by decide)
  have h1 : byteOf 16 (onColumns f s) (4 * c + 1) = c1 := hbyte (by decide)
  have h2 : byteOf 16 (onColumns f s) (4 * c + 2) = c2 := hbyte (by decide)
  have h3 : byteOf 16 (onColumns f s) (4 * c + 3) = c3 := hbyte (by decide)
  rw [byteOf_onColumns hg _ hc hr, h0, h1, h2, h3, hback]
  interval_cases r <;> rfl

/-- One row of a column matrix times a column (41_cipher_a.md R108). -/
def gfRow (a0 a1 a2 a3 c0 c1 c2 c3 : Byte) : Byte := gfmul a0 c0 ^^^ gfmul a1 c1 ^^^ gfmul a2 c2 ^^^ gfmul a3 c3

theorem gfmul_zero_left (c : Byte) : gfmul 0 c = 0 := (gfmul_xor_left c).map_zero

theorem gfmul_one_left (c : Byte) : gfmul 1 c = c := (gfmul_comm 1 c).trans (gfmul_one c)

theorem mixColumn_eq_rows (c0 c1 c2 c3 : Byte) : mixColumn c0 c1 c2 c3 =
    [gfRow 2 3 1 1 c0 c1 c2 c3, gfRow 1 2 3 1 c0 c1 c2 c3, gfRow 1 1 2 3 c0 c1 c2 c3, gfRow 3 1 1 2 c0 c1 c2 c3] := by
  simp only [mixColumn, gfRow, gfmul_one_left]

/-- A row times a mixed column is the row times the matrix of `MixColumns`, times the column. -/
theorem gfRow_mixed (a0 a1 a2 a3 c0 c1 c2 c3 : Byte) :
    gfRow a0 a1 a2 a3 (gfRow 2 3 1 1 c0 c1 c2 c3) (gfRow 1 2 3 1 c0 c1 c2 c3) (gfRow 1 1 2 3 c0 c1 c2 c3)
      (gfRow 3 1 1 2 c0 c1 c2 c3) =
    gfRow (gfRow a0 a1 a2 a3 2 1 1 3) (gfRow a0 a1 a2 a3 3 2 1 1) (gfRow a0 a1 a2 a3 1 3 2 1)
      (gfRow a0 a1 a2 a3 1 1 3 2) c0 c1 c2 c3 := by
  have add_left (a a' b : Byte) : gfmul (a ^^^ a') b = gfmul a b ^^^ gfmul a' b := gfmul_xor_left b a a'
  simp only [gfRow, add_left, gfmul_xor_right _ _ _, gfmul_assoc]
  ac_rfl

theorem invMixColumn_eq_rows (c0 c1 c2 c3 : Byte) : invMixColumn c0 c1 c2 c3 =
    [gfRow 14 11 13 9 c0 c1 c2 c3, gfRow 9 14 11 13 c0 c1 c2 c3, gfRow 13 9 14 11 c0 c1 c2 c3,
      gfRow 11 13 9 14 c0 c1 c2 c3] := rfl

/-- The matrix of `InvMixColumns` times that of `MixColumns` (41_cipher_a.md R108, R116) is the unit matrix. -/
theorem invMixColumn_mixed (c0 c1 c2 c3 : Byte) :
    invMixColumn (gfRow 2 3 1 1 c0 c1 c2 c3) (gfRow 1 2 3 1 c0 c1 c2 c3) (gfRow 1 1 2 3 c0 c1 c2 c3)
      (gfRow 3 1 1 2 c0 c1 c2 c3) = [c0, c1, c2, c3] := by
  simp only [invMixColumn_eq_rows, gfRow_mixed]
  change [gfRow 1 0 0 0 c0 c1 c2 c3, gfRow 0 1 0 0 c0 c1 c2 c3, gfRow 0 0 1 0 c0 c1 c2 c3,
    gfRow 0 0 0 1 c0 c1 c2 c3] = _
  simp only [gfRow, gfmul_zero_left, gfmul_one_left]
  simp

theorem invMixColumns_mixColumns (s : Block) : invMixColumns (mixColumns s) = s :=
  onColumns_onColumns_of_inverse (fun _ _ _ _ => rfl)
    (fun b0 b1 b2 b3 => ⟨_, _, _, _, mixColumn_eq_rows b0 b1 b2 b3, invMixColumn_mixed b0 b1 b2 b3⟩)
    (fun _ _ _ _ => rfl) s

/-! The network (41_cipher_a.md R109). -/

/-- What a fold that applies one round after the other has reached, when the states are given in order. -/
theorem foldl_eq_of_states {f : Block → Block → Block} (ks : List Block) (st : Nat → Block)
    (hst : ∀ (i : Nat) (hi : i < ks.length), st (i + 1) = f (st i) ks[i]) : ks.foldl f (st 0) = st ks.length := by
  induction ks generalizing st with
  | nil => rfl
  | cons k ks ih =>
    have h0 : st 1 = f (st 0) k := hst 0 (Nat.succ_pos _)
    rw [List.foldl_cons, ← h0]
    exact ih (fun i => st (i + 1)) fun i hi => hst (i + 1) (Nat.succ_lt_succ hi)

theorem foldl_injective {f : Block → Block → Block} (hf : ∀ k, Function.Injective (f · k)) (ks : List Block) :
    Function.Injective (ks.foldl f) := by
  induction ks with
  | nil => exact Function.injective_id
  | cons k ks ih => exact ih.comp (hf k)

theorem xor_injective (k : Block) : Function.Injective (· ^^^ k) := fun _ _ h => (BitVec.xor_left_inj k).1 h

theorem subBytes_injective : Function.Injective subBytes := Function.LeftInverse.injective invSubBytes_subBytes

theorem shiftRows_injective : Function.Injective shiftRows := Function.LeftInverse.injective invShiftRows_shiftRows

theorem mixColumns_injective : Function.Injective mixColumns :=
  Function.LeftInverse.injective invMixColumns_mixColumns

theorem fullRound_injective (k : Block) : Function.Injective (fullRound · k) :=
  fun _ _ h => subBytes_injective (shiftRows_injective (mixColumns_injective (xor_injective k h)))

/-- Round keys 1 to 9, those of the full rounds (41_cipher_a.md R109). -/
def fullRoundKeys (rk : Vector Block 11) : List Block :=
  [rk[1], rk[2], rk[3], rk[4], rk[5], rk[6], rk[7], rk[8], rk[9]]

theorem fullRoundKeys_getElem (rk : Vector Block 11) {i : Nat} (hi : i < 9) :
    (fullRoundKeys rk)[i]'hi = rk[i + 1] := by
  interval_cases i <;> rfl

theorem aEnc_eq (rk : Vector Block 11) (x : Block) :
    aEnc rk x = shiftRows (subBytes ((fullRoundKeys rk).foldl fullRound (x ^^^ rk[0]))) ^^^ rk[10] := rfl

theorem aEnc_injective (rk : Vector Block 11) : Function.Injective (aEnc rk) := by
  intro x y h
  rw [aEnc_eq, aEnc_eq] at h
  have hfolds := subBytes_injective (shiftRows_injective (xor_injective rk[10] h))
  exact xor_injective rk[0] (foldl_injective fullRound_injective _ hfolds)

/-! The key schedule (41_cipher_a.md R103). -/

theorem wordOf_append (w0 w1 w2 w3 : Word) :
    wordOf (w0 ++ w1 ++ w2 ++ w3) 0 = w0 ∧ wordOf (w0 ++ w1 ++ w2 ++ w3) 1 = w1 ∧
      wordOf (w0 ++ w1 ++ w2 ++ w3) 2 = w2 ∧ wordOf (w0 ++ w1 ++ w2 ++ w3) 3 = w3 := by
  simp (disch := decide) only [wordOf, BitVec.extractLsb'_append_eq_of_le, Nat.reduceSub, Nat.reduceMul,
    BitVec.extractLsb'_append_eq_right, BitVec.extractLsb'_eq_self, and_self]

/-- The words of the next round key (41_cipher_a.md R103). -/
theorem wordOf_nextRoundKey (p : Block) (rc : Byte) :
    wordOf (nextRoundKey p rc) 0 = wordOf p 0 ^^^ (subWord ((wordOf p 3).rotateLeft 8) ^^^ (rc ++ 0#24)) ∧
      wordOf (nextRoundKey p rc) 1 = wordOf p 1 ^^^ wordOf (nextRoundKey p rc) 0 ∧
      wordOf (nextRoundKey p rc) 2 = wordOf p 2 ^^^ wordOf (nextRoundKey p rc) 1 ∧
      wordOf (nextRoundKey p rc) 3 = wordOf p 3 ^^^ wordOf (nextRoundKey p rc) 2 := by
  obtain ⟨h0, h1, h2, h3⟩ := wordOf_append _ _ _ _
  rw [nextRoundKey, h0, h1, h2, h3]
  simp

theorem getElem_roundKeysFrom (prev : Block) (rcs : List Byte) (i : Nat) (hi : i < (roundKeysFrom prev rcs).length) :
    (roundKeysFrom prev rcs)[i] =
      nextRoundKey ((prev :: roundKeysFrom prev rcs)[i]'(by simp; omega)) (rcs.getD i 0) := by
  induction rcs generalizing prev i with
  | nil => exact absurd hi (by simp [roundKeysFrom])
  | cons rc rcs ih =>
    cases i with
    | zero => rfl
    | succ i => exact ih (nextRoundKey prev rc) i (by simpa [roundKeysFrom] using hi)

theorem getElem_aKeySched_succ (k : Block) {i : Nat} (hi : i < 10) :
    (aKeySched k)[i + 1] = nextRoundKey (aKeySched k)[i] (rcon.getD (i + 1) 0) :=
  getElem_roundKeysFrom k rcon.tail i (by rw [length_roundKeysFrom]; exact hi)

end Sys2Proof.Machine

open Sys2Proof Sys2Proof.Machine

/-- Settles O23: the constants by computation, the words by `wordOf_nextRoundKey` at each round. -/
theorem aKeyScheduleRecurrence : Obligations.AKeyScheduleRecurrence := by
  refine ⟨rfl, fun i h1 h9 => ?_, fun k => ⟨rfl, fun i hi => ?_⟩⟩
  · interval_cases i <;> rfl
  · rw [getElem_aKeySched_succ k hi]
    exact wordOf_nextRoundKey _ _

/-- Settles O24: byte for byte, `SubBytes` maps, `ShiftRows` moves and `MixColumns` works column by column. -/
theorem roundStepsActOnBytes : Obligations.RoundStepsActOnBytes := by
  intro s
  refine ⟨fun k hk => byteOf_subBytes s hk, fun r c hr hc => ?_, fun c hc => ?_⟩
  · rw [byteOf_shiftRows s (by omega), shiftRowsSrc_getD r hr c hc]
  · have hbyte {r : Nat} (hr : r < 4) := byteOf_onColumns (f := mixColumn) (fun _ _ _ _ => rfl) s hc hr
    exact ⟨hbyte (r := 0) (by decide), hbyte (r := 1) (by decide), hbyte (r := 2) (by decide),
      hbyte (r := 3) (by decide)⟩

/-- Settles O25: the given states are what the fold over the round keys reaches; the network is injective because
each of its steps is, and the blocks are finitely many. -/
theorem aEncIsTheTenRoundNetwork : Obligations.AEncIsTheTenRoundNetwork := by
  intro rk
  refine ⟨fun x st h0 hst => ?_, Finite.injective_iff_bijective.1 (aEnc_injective rk)⟩
  have hrounds : (fullRoundKeys rk).foldl fullRound (st 0) = st 9 :=
    foldl_eq_of_states (fullRoundKeys rk) st fun i hi => by
      rw [hst i hi, fullRoundKeys_getElem rk hi]
      rfl
  rw [aEnc_eq, ← h0, hrounds]

/-- Settles O22: off 0, the affine map taken back from the table gives the inverse, and an inverse is unique. -/
theorem sboxIsInverseThenAffine : Obligations.SboxIsInverseThenAffine := by
  refine ⟨fun x b h => ?_, sbox_bijective, invSbox_sbox⟩
  rcases h with ⟨rfl, rfl⟩ | h
  · decide
  · exact sbox_of_inverse h

end

section
/-!
PROOFS of the family 41_cipher_a.md, the instructions: `A.KEY` (R104), `A.ENC` (R110), `A.DEC` (R117) and `A.RDK`
(R118).
-/
namespace Sys2Proof.Machine

/-- An instruction with one check of its own, in its four cases (30_encoding.md R75): its word, the fatal core, the
check failing, the check passing. -/
theorem exec_guarded {i : Instr} {bad : Hardware → Bool} {e : Err} {f : Hardware → Hardware}
    (hwf : i.wellFormed = true)
    (hi : ∀ s, exec i s = command i (fun h => failIf (bad h) e h (.done (f h))) s) (s : State) :
    decode (encode i) = .ok i ∧
      (s.fatal = true → exec i s = .next (s.raised .fatald (encode i))) ∧
      (s.fatal = false → bad s.toHardware = true → exec i s = .next (s.raised e (encode i))) ∧
      (s.fatal = false → bad s.toHardware = false →
        exec i s = .next (s.withHardware (succeed (f s.toHardware)))) := by
  refine ⟨decode_encode hwf, exec_of_fatal i, fun hf hb => ?_, fun hf hb => ?_⟩
  · rw [hi, command_of_fails i _ hf (failIf_of_true hb e _ _), State.raised]
  · rw [hi, command_of_done i _ hf (failIf_of_false hb e _ _)]

/-- An instruction whose one check is that the cipher's key is valid (60_exceptions.md R217). -/
theorem exec_needsKey {i : Instr} {c : Cipher} {f : Hardware → Hardware} (hwf : i.wellFormed = true)
    (hi : ∀ s, exec i s = command i (fun h => failIf (!h.keyValid c) .nokey h (.done (f h))) s) (s : State) :
    decode (encode i) = .ok i ∧
      (s.fatal = true → exec i s = .next (s.raised .fatald (encode i))) ∧
      (s.fatal = false → s.keyValid c = false → exec i s = .next (s.raised .nokey (encode i))) ∧
      (s.fatal = false → s.keyValid c = true → exec i s = .next (s.withHardware (succeed (f s.toHardware)))) := by
  obtain ⟨hdec, hfatal, hnokey, hdone⟩ := exec_guarded hwf hi s
  exact ⟨hdec, hfatal, fun hf hk => hnokey hf (by simp [hk]), fun hf hk => hdone hf (by simp [hk])⟩

theorem locked_iff (h : Hardware) (c : Cipher) : h.locked c = true ↔ h.mv = true ∧ h.m.ciph = c := by
  simp [Hardware.locked]

/-- `A.RDK` for an index that is an encoding (41_cipher_a.md R118). -/
theorem exec_aRdk (rd : Reg) {idx : Fin 16} (hidx : idx.val < 11) (s : State) :
    exec (.aRdk rd idx) s =
      command (.aRdk rd idx) (fun h => failIf (!h.keyValid .a) .nokey h (.done (h.setReg rd h.ark[idx.val]))) s := by
  simp only [exec, execARdk, hidx, dif_pos, Hardware.keyValid]

/-- The word of `A.RDK` with an index that names no round key is rejected (30_encoding.md R73, R74). -/
theorem decode_aRdk_of_gt (rd : Reg) {idx : Fin 16} (hidx : 10 < idx.val) :
    decode (encode (.aRdk rd idx)) = .error .noSuchRoundKey := by
  rw [decode, encode, Fields.ofWord_toWord]
  exact if_neg hidx.not_ge

end Sys2Proof.Machine

open Sys2Proof Sys2Proof.Machine

/-- Settles O27: `A.KEY` is a command guarded by the lock on Cipher-A. -/
theorem aKeyInstruction : Obligations.AKeyInstruction := by
  intro rs1 s
  rw [← encode_aKey]
  obtain ⟨hdec, hfatal, hlocked, hdone⟩ := exec_guarded (i := .aKey rs1) rfl (fun _ => rfl) s
  exact ⟨hdec, hfatal, fun hf hl => hlocked hf ((locked_iff _ _).2 hl),
    fun hf hl => hdone hf (Bool.eq_false_iff.2 (mt (locked_iff _ _).1 hl))⟩

/-- Settles O28: `A.ENC` needs Cipher-A's key and checks nothing else. -/
theorem aEncInstruction : Obligations.AEncInstruction := by
  intro rd rs1 s
  rw [← encode_aEnc]
  exact exec_needsKey (i := .aEnc rd rs1) (c := .a) rfl (fun _ => rfl) s

/-- Settles O29: `A.DEC` needs Cipher-A's key and checks nothing else, and `ADEC = SOURCE` makes its function `aEnc`. -/
theorem aDecInstruction : Obligations.ADecInstruction := by
  intro rd rs1 s
  rw [← encode_aDec]
  exact exec_needsKey (i := .aDec rd rs1) (c := .a) rfl (fun _ => rfl) s

/-- Settles O30: an index above 10 is rejected; below, `A.RDK` needs Cipher-A's key and checks nothing else. -/
theorem aRdkInstruction : Obligations.ARdkInstruction := by
  intro rd idx s
  rw [← encode_aRdk]
  refine ⟨decode_aRdk_of_gt rd, fun hidx => ?_⟩
  have hwf : (Instr.aRdk rd idx).wellFormed = true := decide_eq_true (Nat.le_of_lt_succ hidx)
  exact exec_needsKey hwf (exec_aRdk rd hidx) s

end

section
/-!
PROOFS of the family 42_cipher_b.md: the key schedule (R140), the round function (R142) and the network (R146, R147).
-/
namespace Sys2Proof.Machine

/-! The key schedule (42_cipher_b.md R140). -/

/-- Bit `i` after a rotation to the left by `r` is the bit `r` places below, around the end. -/
theorem getLsbD_rotateLeft_of_lt {w : Nat} (x : BitVec w) (r : Nat) {i : Nat} (hi : i < w) :
    (x.rotateLeft r).getLsbD i = x.getLsbD ((i + (w - r % w)) % w) := by
  have hr : r % w < w := Nat.mod_lt _ (by omega)
  rw [BitVec.getLsbD_rotateLeft]
  by_cases h : i < r % w
  · have hidx : (i + (w - r % w)) % w = w - r % w + i := by rw [Nat.add_comm, Nat.mod_eq_of_lt (by omega)]
    simp [h, hidx]
  · have hsub : i + (w - r % w) = i - r % w + w := by omega
    have hidx : (i + (w - r % w)) % w = i - r % w := by rw [hsub, Nat.add_mod_right, Nat.mod_eq_of_lt (by omega)]
    simp [h, hi, hidx]

/-- Rotations accumulate. -/
theorem rotateLeft_rotateLeft {w : Nat} (x : BitVec w) (m n : Nat) :
    (x.rotateLeft m).rotateLeft n = x.rotateLeft (m + n) := by
  refine BitVec.eq_of_getLsbD_eq fun i hi => ?_
  have hw : 0 < w := Nat.zero_lt_of_lt hi
  have hm : m % w < w := Nat.mod_lt _ hw
  have hn : n % w < w := Nat.mod_lt _ hw
  rw [getLsbD_rotateLeft_of_lt _ _ hi, getLsbD_rotateLeft_of_lt _ _ (Nat.mod_lt _ hw), getLsbD_rotateLeft_of_lt _ _ hi,
    Nat.mod_add_mod, Nat.add_mod_eq_ite (m := m)]
  congr 1
  split_ifs
  · congr 1
    omega
  · have hsub : i + (w - n % w) + (w - m % w) = i + (w - (m % w + n % w)) + w := by omega
    rw [hsub, Nat.add_mod_right]

/-- The halves of subkey `i` are rotated by the shifts of all rounds up to `i` together. -/
theorem getElem_subkeysFrom (c d : BitVec 28) (ns : List Nat) (i : Nat) (hi : i < (subkeysFrom c d ns).length) :
    (subkeysFrom c d ns)[i] =
      perm (c.rotateLeft (ns.take (i + 1)).sum ++ d.rotateLeft (ns.take (i + 1)).sum) pc2Table 48 := by
  induction ns generalizing c d i with
  | nil => exact absurd hi (Nat.not_lt_zero i)
  | cons n ns ih =>
    cases i with
    | zero => simp [subkeysFrom]
    | succ i =>
      rw [List.take_succ_cons, List.sum_cons, ← rotateLeft_rotateLeft, ← rotateLeft_rotateLeft]
      exact ih _ _ i (Nat.lt_of_succ_lt_succ hi)

/-! The round function (42_cipher_b.md R142). -/

/-- The row of an S-box is read from the outer two bits of the chunk. -/
theorem sBoxOut_eq (box : List (List Nat)) (chunk : BitVec 6) : sBoxOut box chunk =
    BitVec.ofNat 4 ((box.getD ((chunk.getLsbD 5).toNat * 2 + (chunk.getLsbD 0).toNat) []).getD
      (chunk.extractLsb' 1 4).toNat 0) := by
  have hrow : (chunk.extractLsb' 5 1 ++ chunk.extractLsb' 0 1).toNat =
      (chunk.getLsbD 5).toNat * 2 + (chunk.getLsbD 0).toNat := by
    revert chunk
    decide
  rw [sBoxOut, hrow]

/-- The middle four bits of a chunk that begins at bit `k` begin at bit `k + 1`. -/
theorem extractLsb'_chunk (x : Subkey) (k : Nat) : (x.extractLsb' k 6).extractLsb' 1 4 = x.extractLsb' (k + 1) 4 := by
  refine BitVec.eq_of_getLsbD_eq fun i hi => ?_
  have h6 : 1 + i < 6 := by omega
  simp [hi, h6, Nat.add_assoc]

/-- Chunk `j`, counted from 0 at the most significant end, has its row in bits `47 - 6j` and `42 - 6j` and its column
between them. -/
theorem sBoxOut_chunk (box : List (List Nat)) (x : Subkey) {j : Nat} (hj : j < 8) :
    sBoxOut box (x.extractLsb' (42 - 6 * j) 6) =
      BitVec.ofNat 4 ((box.getD ((x.getLsbD (47 - 6 * j)).toNat * 2 + (x.getLsbD (42 - 6 * j)).toNat) []).getD
        (x.extractLsb' (43 - 6 * j) 4).toNat 0) := by
  have htop : 42 - 6 * j + 5 = 47 - 6 * j := by omega
  have hmid : 42 - 6 * j + 1 = 43 - 6 * j := by omega
  simp [sBoxOut_eq, extractLsb'_chunk, htop, hmid]

/-- Shifting in four bits is concatenation, cut to the word. -/
theorem shiftLeft_or_setWidth {n : Nat} (acc : BitVec n) (o : BitVec 4) :
    acc.setWidth 32 <<< 4 ||| o.setWidth 32 = (acc ++ o).setWidth 32 := by
  refine BitVec.eq_of_getLsbD_eq fun i hi => ?_
  by_cases h4 : i < 4
  · simp [BitVec.getLsbD_append, hi, h4]
  · have ho : o.getLsbD i = false := BitVec.getLsbD_of_ge _ _ (by omega)
    simp [BitVec.getLsbD_append, hi, h4, ho]

/-- The fold that puts the eight outputs together is their concatenation. -/
theorem foldl_shiftLeft_or (o0 o1 o2 o3 o4 o5 o6 o7 : BitVec 4) :
    [o0, o1, o2, o3, o4, o5, o6, o7].foldl (fun (acc : Word) (o : BitVec 4) => acc <<< 4 ||| o.setWidth 32) 0 =
      o0 ++ o1 ++ o2 ++ o3 ++ o4 ++ o5 ++ o6 ++ o7 := by
  have hfirst : (0 : Word) <<< 4 ||| o0.setWidth 32 = o0.setWidth 32 := by simp
  simp only [List.foldl_cons, List.foldl_nil, hfirst, shiftLeft_or_setWidth, BitVec.setWidth_eq]

/-- The layer concatenates the outputs of the eight chunks through their boxes. -/
theorem sBoxLayer_eq {x : Subkey} {o : Nat → BitVec 4}
    (ho : ∀ j < 8, sBoxOut (sBoxes.getD j []) (x.extractLsb' (42 - 6 * j) 6) = o j) :
    sBoxLayer x = o 0 ++ o 1 ++ o 2 ++ o 3 ++ o 4 ++ o 5 ++ o 6 ++ o 7 := by
  have houts : (List.range 8).map (fun j => sBoxOut (sBoxes.getD j []) (x.extractLsb' (42 - 6 * j) 6)) =
      (List.range 8).map o := List.map_congr_left fun j hj => ho j (List.mem_range.1 hj)
  rw [← foldl_shiftLeft_or]
  exact congrArg (List.foldl _ 0) houts

/-! The network (42_cipher_b.md R146, R147). -/

/-- Halves that go on by one round per subkey are what the fold over the subkeys reaches. -/
theorem foldl_bRound_eq (ks : List Subkey) (L R : Nat → Word)
    (hround : ∀ (i : Nat) (hi : i < ks.length), L (i + 1) = R i ∧ R (i + 1) = L i ^^^ bRoundFn (R i) ks[i]) :
    ks.foldl bRound (L 0, R 0) = (L ks.length, R ks.length) := by
  induction ks generalizing L R with
  | nil => rfl
  | cons k ks ih =>
    obtain ⟨hL, hR⟩ := hround 0 (Nat.succ_pos _)
    have hfirst : bRound (L 0, R 0) k = (L 1, R 1) := Prod.ext hL.symm hR.symm
    rw [List.foldl_cons, hfirst]
    exact ih (fun i => L (i + 1)) (fun i => R (i + 1)) fun i hi => hround (i + 1) (Nat.succ_lt_succ hi)

/-- The network by its halves, for sixteen subkeys in any order. -/
theorem bNet_eq_of_halves {ks : List Subkey} (hks : ks.length = 16) {x : Block64} {L R : Nat → Word}
    (hL : L 0 = (perm x ipTable 64).extractLsb' 32 32) (hR : R 0 = (perm x ipTable 64).extractLsb' 0 32)
    (hround : ∀ (i : Nat) (hi : i < ks.length), L (i + 1) = R i ∧ R (i + 1) = L i ^^^ bRoundFn (R i) ks[i]) :
    bNet ks x = perm (R 16 ++ L 16) fpTable 64 := by
  simp only [bNet, ← hL, ← hR, foldl_bRound_eq ks L R hround, hks]

end Sys2Proof.Machine

open Sys2Proof Sys2Proof.Machine

/-- Settles O33: the schedule goes on from the halves of `PC1(k)`, and its rotations accumulate. -/
theorem bKeyScheduleRounds : Obligations.BKeyScheduleRounds := by
  intro k i hi
  exact getElem_subkeysFrom _ _ shiftTable i (by rwa [length_subkeysFrom])

/-- Settles O35: the given outputs are those of the chunks through their boxes, and the layer concatenates them. -/
theorem bRoundFunctionBoxes : Obligations.BRoundFunctionBoxes := by
  rintro r k x o rfl ho
  rw [bRoundFn, sBoxLayer_eq fun j hj => (sBoxOut_chunk _ _ hj).trans (ho j hj).symm]

/-- Settles O36: encrypt and decrypt are one network, over the subkeys in order and reversed. -/
theorem bNetworkRounds : Obligations.BNetworkRounds := by
  intro sk x L R hL hR
  refine ⟨fun hround => ?_, fun hround => ?_⟩
  · refine bNet_eq_of_halves sk.length_toList hL hR fun i hi => ?_
    simpa using hround i (by simpa using hi)
  · refine bNet_eq_of_halves (by simp) hL hR fun i hi => ?_
    simpa using hround i (by simpa using hi)

end

section
/-!
PROOFS of the family 42_cipher_b.md, the instructions: `B.KEY` (R141), `B.ENC` (R148), `B.DEC` (R149) and `B.RDK`
(R150).
-/
namespace Sys2Proof.Machine

/-- An instruction with two checks of its own, in its five cases (30_encoding.md R75): its word, the fatal core, the
first check failing, the second failing, both passing. -/
theorem exec_guarded_twice {i : Instr} {bad bad' : Hardware → Bool} {e e' : Err} {f : Hardware → Hardware}
    (hwf : i.wellFormed = true)
    (hi : ∀ s, exec i s = command i (fun h => failIf (bad h) e h (failIf (bad' h) e' h (.done (f h)))) s) (s : State) :
    decode (encode i) = .ok i ∧
      (s.fatal = true → exec i s = .next (s.raised .fatald (encode i))) ∧
      (s.fatal = false → bad s.toHardware = true → exec i s = .next (s.raised e (encode i))) ∧
      (s.fatal = false → bad s.toHardware = false → bad' s.toHardware = true →
        exec i s = .next (s.raised e' (encode i))) ∧
      (s.fatal = false → bad s.toHardware = false → bad' s.toHardware = false →
        exec i s = .next (s.withHardware (succeed (f s.toHardware)))) := by
  refine ⟨decode_encode hwf, exec_of_fatal i, fun hf hb => ?_, fun hf hb hb' => ?_, fun hf hb hb' => ?_⟩
  · rw [hi, command_of_fails i _ hf (failIf_of_true hb e _ _), State.raised]
  · rw [hi, command_of_fails i _ hf ((failIf_of_false hb e _ _).trans (failIf_of_true hb' e' _ _)), State.raised]
  · rw [hi, command_of_done i _ hf ((failIf_of_false hb e _ _).trans (failIf_of_false hb' e' _ _))]

/-- A Cipher-B operand is bits 63 to 0 of its register (10_state.md R37). -/
theorem reg64_eq_extractLsb' (h : Hardware) (r : Reg) : h.reg64 r = (h.reg r).extractLsb' 0 64 :=
  BitVec.setWidth_eq_extractLsb' (by decide)

/-- A value is wider than 64 bits when its upper half is not 0 (60_exceptions.md R220). -/
theorem widerThan_64_iff (v : Block) : widerThan 64 v = true ↔ v.extractLsb' 64 64 ≠ 0 := by
  have hv : v.toNat / 2 ^ 64 < 2 ^ 64 := by omega
  rw [widerThan, bne_iff_ne, not_iff_not, ← BitVec.toNat_inj, ← BitVec.toNat_inj, BitVec.extractLsb'_toNat,
    BitVec.toNat_ushiftRight, Nat.shiftRight_eq_div_pow, Nat.mod_eq_of_lt hv]
  rfl

/-- An error `WIDTH` makes the core fatal (60_exceptions.md R213). -/
theorem raised_width_fatal (w : Word) (s : State) : (s.raised .width w).fatal = true := Bool.or_true s.fatal

end Sys2Proof.Machine

open Sys2Proof Sys2Proof.Machine

/-- Settles O38: `B.KEY` is a command guarded by the lock on Cipher-B, then by the width of the key. -/
theorem bKeyInstruction : Obligations.BKeyInstruction := by
  intro rs1 s
  rw [← encode_bKey, ← reg64_eq_extractLsb', ← locked_iff, Bool.not_eq_true]
  obtain ⟨hdec, hfatal, hlocked, hwidth, hdone⟩ := exec_guarded_twice (i := .bKey rs1) rfl (fun _ => rfl) s
  refine ⟨hdec, hfatal, hlocked, fun hf hl hw => ?_, fun hf hl hw => ?_⟩
  · exact ⟨hwidth hf hl ((widerThan_64_iff _).2 hw), raised_width_fatal _ _⟩
  · exact hdone hf hl (Bool.eq_false_iff.2 (mt (widerThan_64_iff _).1 (not_not_intro hw)))

/-- Settles O39: `B.ENC` needs Cipher-B's key and checks nothing else. -/
theorem bEncInstruction : Obligations.BEncInstruction := by
  intro rd rs1 s
  rw [← encode_bEnc, ← reg64_eq_extractLsb']
  exact exec_needsKey (i := .bEnc rd rs1) (c := .b) rfl (fun _ => rfl) s

/-- Settles O40: `B.DEC` needs Cipher-B's key and checks nothing else. -/
theorem bDecInstruction : Obligations.BDecInstruction := by
  intro rd rs1 s
  rw [← encode_bDec, ← reg64_eq_extractLsb']
  exact exec_needsKey (i := .bDec rd rs1) (c := .b) rfl (fun _ => rfl) s

/-- Settles O41: every index is an encoding, and `B.RDK` needs Cipher-B's key and checks nothing else. -/
theorem bRdkInstruction : Obligations.BRdkInstruction := by
  intro rd idx s
  rw [← encode_bRdk]
  exact exec_needsKey (i := .bRdk rd idx) (c := .b) rfl (fun _ => rfl) s

end

section
/-!
PROOFS of the family 43_modes_block.md: the step of each mode (R172 to R176) and the instructions `M.INIT` (R165),
`M.ENCB` (R170), `M.DECB` (R171) and `M.END` (R178).
-/
namespace Sys2Proof.Machine

/-! What a step answers, mode by mode and in both directions (43_modes_block.md R172 to R176). -/

section Steps

variable {E D : Block → Block} {m : ModeUnit} {x : Block}

theorem steps_of_ecb (hm : m.mode = .ecb) : encStep E m x = .ok (E x, m) ∧ decStep E D m x = .ok (D x, m) := by
  simp only [encStep, decStep, hm, and_self]

theorem decStep_of_cfi (hm : m.mode = .cfi) : decStep E D m x = .error .unimpl := by simp only [decStep, hm]

theorem steps_of_cfi (hm : m.mode = .cfi) :
    encStep E m x = .ok (E (x ^^^ m.chainBlock), { m with chain := E (x ^^^ m.chainBlock) }) ∧
      decStep E D m x = .error .unimpl :=
  ⟨by simp only [encStep, hm], decStep_of_cfi hm⟩

theorem steps_of_cfb (hm : m.mode = .cfb) :
    encStep E m x = .ok (E m.chainBlock ^^^ x, { m with chain := E m.chainBlock ^^^ x }) ∧
      decStep E D m x = .ok (E m.chainBlock ^^^ x, { m with chain := x }) := by
  simp only [encStep, decStep, hm, and_self]

theorem steps_of_pfb (hm : m.mode = .pfb) :
    encStep E m x = .ok (E m.chainBlock ^^^ x, { m with chain := x }) ∧
      decStep E D m x = .ok (E m.chainBlock ^^^ x, { m with chain := E m.chainBlock ^^^ x }) := by
  simp only [encStep, decStep, hm, and_self]

theorem decStep_of_ctr (hm : m.mode = .ctr) : decStep E D m x = encStep E m x := by
  simp only [encStep, decStep, hm]

theorem encStep_eq_ctrStep (hm : m.mode = .ctr) : encStep E m x = ctrStep E m x := by simp only [encStep, hm]

theorem encStep_of_ctrFull (hm : m.mode = .ctr) (hfull : m.ctrFull = true) : encStep E m x = .error .ctrovf :=
  (encStep_eq_ctrStep hm).trans (if_pos hfull)

theorem encStep_of_ctr (hm : m.mode = .ctr) (hroom : ¬ m.ctrFull = true) :
    encStep E m x = .ok (x ^^^ E m.ctrBlock, { m with ctr := m.ctr + 1 }) :=
  (encStep_eq_ctrStep hm).trans (if_neg hroom)

theorem steps_of_ctr (hm : m.mode = .ctr) :
    decStep E D m x = encStep E m x ∧ (m.ctrFull = true → encStep E m x = .error .ctrovf) ∧
      (¬ m.ctrFull = true → encStep E m x = .ok (x ^^^ E m.ctrBlock, { m with ctr := m.ctr + 1 })) :=
  ⟨decStep_of_ctr hm, encStep_of_ctrFull hm, encStep_of_ctr hm⟩

end Steps

/-- The last counter value is the largest of the counter's width (43_modes_block.md R176). -/
theorem ctrFull_iff (m : ModeUnit) :
    m.ctrFull = true ↔ m.ctr.toNat % 2 ^ Config.cw m.ciph = 2 ^ Config.cw m.ciph - 1 := by
  rw [ModeUnit.ctrFull, beq_iff_eq, ← BitVec.toNat_inj, BitVec.toNat_setWidth, BitVec.toNat_allOnes]

/-! What the mode unit reads, for each cipher (43_modes_block.md R163). -/

section Ciphers

variable {m : ModeUnit}

theorem lowBlock_b (v : Block) : lowBlock .b v = (v.extractLsb' 0 64).setWidth 128 := by
  rw [← BitVec.setWidth_eq_extractLsb' (by decide)]
  rfl

theorem cipherEnc_b (h : Hardware) (x : Block64) :
    h.cipherEnc .b (x.setWidth 128) = (bEnc h.bsk x).setWidth 128 := by
  rw [Hardware.cipherEnc, BitVec.setWidth_setWidth_of_le _ (by decide), BitVec.setWidth_eq]

theorem cipherDec_b (h : Hardware) (x : Block64) :
    h.cipherDec .b (x.setWidth 128) = (bDec h.bsk x).setWidth 128 := by
  rw [Hardware.cipherDec, BitVec.setWidth_setWidth_of_le _ (by decide), BitVec.setWidth_eq]

theorem chainBlock_a (hc : m.ciph = .a) : m.chainBlock = m.chain := by
  rw [ModeUnit.chainBlock, hc, lowBlock_a]

theorem chainBlock_b (hc : m.ciph = .b) : m.chainBlock = (m.chain.extractLsb' 0 64).setWidth 128 := by
  rw [ModeUnit.chainBlock, hc, lowBlock_b]

theorem ctrBlock_a (hc : m.ciph = .a) : m.ctrBlock = m.nonce ++ m.ctr := by
  rw [ModeUnit.ctrBlock, hc]
  change (m.nonce.setWidth 64 ++ m.ctr.setWidth 64 : Block).setWidth 128 = m.nonce ++ m.ctr
  simp only [BitVec.setWidth_eq]

theorem ctrBlock_b (hc : m.ciph = .b) :
    m.ctrBlock = (m.nonce.extractLsb' 0 32 ++ m.ctr.extractLsb' 0 32).setWidth 128 := by
  have h32 : 32 ≤ 64 := by decide
  rw [ModeUnit.ctrBlock, hc, ← BitVec.setWidth_eq_extractLsb' h32, ← BitVec.setWidth_eq_extractLsb' h32]
  rfl

theorem ctrFull_a (hc : m.ciph = .a) : m.ctrFull = true ↔ m.ctr.toNat = 2 ^ 64 - 1 := by
  rw [ctrFull_iff, hc, Config.cw, Nat.mod_eq_of_lt m.ctr.isLt]

theorem ctrFull_b (hc : m.ciph = .b) : m.ctrFull = true ↔ (m.ctr.extractLsb' 0 32).toNat = 2 ^ 32 - 1 := by
  rw [ctrFull_iff, hc, Config.cw, BitVec.extractLsb'_toNat, Nat.shiftRight_zero]

end Ciphers

/-! `M.INIT` (43_modes_block.md R165). -/

/-- A value is wider than `n` bits when its bits from `n` up are not all 0 (60_exceptions.md R220). -/
theorem widerThan_iff {n k : Nat} (hk : n + k = 128) {v : Block} :
    widerThan n v = true ↔ v.extractLsb' n k ≠ 0 := by
  have hv : v.toNat / 2 ^ n < 2 ^ k := by
    rw [Nat.div_lt_iff_lt_mul (by positivity), ← Nat.pow_add, Nat.add_comm, hk]
    exact v.isLt
  rw [widerThan, bne_iff_ne, not_iff_not, ← BitVec.toNat_inj, ← BitVec.toNat_inj, BitVec.extractLsb'_toNat,
    BitVec.toNat_ushiftRight, Nat.shiftRight_eq_div_pow, Nat.mod_eq_of_lt hv]
  rfl

theorem widerThan_eq_false {n k : Nat} (hk : n + k = 128) {v : Block} (hv : v.extractLsb' n k = 0) :
    widerThan n v = false :=
  Bool.eq_false_iff.2 fun h => (widerThan_iff hk).1 h hv

/-- No block is wider than a block of Cipher-A. -/
theorem widerThan_128 (v : Block) : widerThan 128 v = false :=
  widerThan_eq_false (k := 0) rfl (Subsingleton.elim _ _)

/-- In the chaining modes the operand is an IV, which may be as wide as a block. -/
theorem ivTooWide_of_chained {mode : Mode} (hm : mode = .cfi ∨ mode = .cfb ∨ mode = .pfb) (c : Cipher) (v : Block) :
    ivTooWide mode c v = widerThan (Config.bw c) v := by
  rcases hm with rfl | rfl | rfl <;> rfl

/-- In the chaining modes the IV is the first chaining value. -/
theorem initUnit_of_chained {mode : Mode} (hm : mode = .cfi ∨ mode = .cfb ∨ mode = .pfb) (c : Cipher) (v : Block) :
    initUnit mode c v = ⟨mode, c, lowBlock c v, 0, 0⟩ := by
  rcases hm with rfl | rfl | rfl <;> rfl

theorem initUnit_ctr_a (v : Block) : initUnit .ctr .a v = ⟨.ctr, .a, 0, v.extractLsb' 0 64, 0⟩ := by
  rw [← BitVec.setWidth_eq_extractLsb' (by decide), ← BitVec.setWidth_eq (v.setWidth 64)]
  rfl

theorem initUnit_ctr_b (v : Block) : initUnit .ctr .b v = ⟨.ctr, .b, 0, (v.extractLsb' 0 32).setWidth 64, 0⟩ := by
  rw [← BitVec.setWidth_eq_extractLsb' (by decide)]
  rfl

theorem keyValid_eq_false_iff (h : Hardware) (c : Cipher) :
    h.keyValid c = false ↔ (c = .a ∧ h.akv = false) ∨ (c = .b ∧ h.bkv = false) := by
  cases c <;> simp [Hardware.keyValid]

/-! The instructions that need `MV` (60_exceptions.md R218). -/

section LiveUnit

variable {i : Instr} {s : State}

/-- Without `MV` a block step or a message ends with `NOMODE`, whatever its operands. -/
theorem exec_of_mv_eq_false (hi : isBlockStep i ∨ isMessage i) (hf : s.fatal = false) (hv : s.mv = false) :
    exec i s = .next (s.raised .nomode (encode i)) := by
  have hbad : (!s.mv) = true := by rw [hv]; rfl
  rcases hi with ⟨rd, rs1, rfl | rfl⟩ | rfl | rfl <;>
    exact command_of_fails _ _ hf (failIf_of_true hbad _ _ _)

/-- With `MV` an error of the step is the instruction's, and its error record is all that is left. -/
theorem exec_of_step_error {rd : Reg} {r : Hardware → StepResult} {e : Err}
    (hi : ∀ s, exec i s = command i (fun h => failIf (!h.mv) .nomode h (finishBlock rd (r h) h)) s)
    (hf : s.fatal = false) (hv : s.mv = true) (hr : r s.toHardware = .error e) :
    exec i s = .next (s.raised e (encode i)) := by
  have hgood : (!s.mv) = false := by rw [hv]; rfl
  rw [hi, command_of_fails i _ hf ((failIf_of_false hgood _ _ _).trans (finishBlock_eq_fails.2 ⟨hr, rfl⟩)),
    State.raised]

end LiveUnit

end Sys2Proof.Machine

open Sys2Proof Sys2Proof.Machine

/-- Settles O43: the equations of the modes hold for any `E` and `D`; what is left is what each cipher puts there and
what it reads of the mode unit. -/
theorem modeStepRules : Obligations.ModeStepRules := by
  intro s m
  refine ⟨fun hc x => ?_, fun hc x => ?_⟩
  · have hE : s.cipherEnc m.ciph = aEnc s.ark := by rw [hc]; rfl
    have hD : s.cipherDec m.ciph = aEnc s.ark := by rw [hc]; rfl
    simp only [Hardware.encStep, Hardware.decStep, hE, hD, ne_eq, ← ctrBlock_a hc, ← ctrFull_a hc]
    refine ⟨steps_of_ecb, ?_, ?_, ?_, steps_of_ctr⟩ <;> rw [← chainBlock_a hc]
    exacts [steps_of_cfi, steps_of_cfb, steps_of_pfb]
  · have hE (x : Block64) : s.cipherEnc m.ciph (x.setWidth 128) = (bEnc s.bsk x).setWidth 128 := hc ▸ cipherEnc_b _ x
    have hD (x : Block64) : s.cipherDec m.ciph (x.setWidth 128) = (bDec s.bsk x).setWidth 128 := hc ▸ cipherDec_b _ x
    simp only [Hardware.encStep, Hardware.decStep, BitVec.setWidth_xor, ← hE, ← hD, ne_eq, ← chainBlock_b hc,
      ← ctrBlock_b hc, ← ctrFull_b hc]
    exact ⟨steps_of_ecb, steps_of_cfi, steps_of_cfb, steps_of_pfb, steps_of_ctr⟩

/-- Settles O42: `M.INIT` is a command guarded by the key, then by the width of its operand, which each mode
examines at a width of its own. -/
theorem mInitInstruction : Obligations.MInitInstruction := by
  rintro mode c rs1 s w rfl
  rw [← encode_mInit]
  obtain ⟨hdec, hfatal, hnokey, hwidth, hdone⟩ := exec_guarded_twice (i := .mInit mode c rs1) rfl (fun _ => rfl) s
  refine ⟨hdec, hfatal, fun hf hk => hnokey hf ?_, fun hf ha hb => ?_⟩
  · rw [(keyValid_eq_false_iff _ _).2 hk]
    rfl
  have hkey : (!s.keyValid c) = false := by cases c <;> simp [Hardware.keyValid, ha, hb]
  have hwide := hwidth hf hkey
  have hopen {m : ModeUnit} (hw : ivTooWide mode c (s.reg rs1) = false) (hm : initUnit mode c (s.reg rs1) = m) :
      exec (.mInit mode c rs1) s = .next { s with m := m, mv := true, err := 0 } := hm ▸ hdone hf hkey hw
  refine ⟨?ecb, fun hm => ?chainA, fun hm => ?chainBWide, fun hm => ?chainB, ?ctrAWide, ?ctrA, ?ctrBWide, ?ctrB⟩
  case ecb => rintro rfl; exact hopen rfl rfl
  case chainA =>
    rintro rfl
    rw [ivTooWide_of_chained hm, initUnit_of_chained hm, lowBlock_a] at hopen
    exact hopen (widerThan_128 _) rfl
  case chainBWide =>
    rintro rfl hv
    rw [ivTooWide_of_chained hm] at hwide
    exact hwide ((widerThan_iff rfl).2 hv)
  case chainB =>
    rintro rfl hv
    rw [ivTooWide_of_chained hm, initUnit_of_chained hm, lowBlock_b] at hopen
    exact hopen (widerThan_eq_false rfl hv) rfl
  case ctrAWide => rintro rfl rfl hv; exact hwide ((widerThan_iff rfl).2 hv)
  case ctrA => rintro rfl rfl hv; exact hopen (widerThan_eq_false rfl hv) (initUnit_ctr_a _)
  case ctrBWide => rintro rfl rfl hv; exact hwide ((widerThan_iff rfl).2 hv)
  case ctrB => rintro rfl rfl hv; exact hopen (widerThan_eq_false rfl hv) (initUnit_ctr_b _)

/-- Settles O44: without `MV` it is `NOMODE`; with it, `EncStep` fails only at the last counter value. -/
theorem mEncbInstruction : Obligations.MEncbInstruction := by
  rintro rd rs1 s w rfl
  rw [← encode_mEncb, ← ctrFull_iff]
  refine ⟨decode_encode rfl, exec_of_fatal _, exec_of_mv_eq_false (.inl ⟨_, _, .inl rfl⟩), fun hf hv h => ?_,
    fun hf hv h => ?_⟩
  · obtain ⟨hm, hfull⟩ := h
    exact exec_of_step_error (fun _ => rfl) hf hv (encStep_of_ctrFull hm hfull)
  · have hroom (hm : s.m.mode = .ctr) : s.m.ctrFull = false := Bool.eq_false_iff.2 fun hfull => h ⟨hm, hfull⟩
    obtain ⟨y, m', hstep⟩ := encStep_answers (s.cipherEnc s.m.ciph) s.m (lowBlock s.m.ciph (s.reg rs1)) hroom
    exact ⟨y, m', hstep, exec_of_effect (i := .mEncb rd rs1) hf ⟨hv, y, m', hstep, rfl⟩⟩

/-- Settles O45: as O44, and `DecStep` fails in mode `cfi` too. -/
theorem mDecbInstruction : Obligations.MDecbInstruction := by
  rintro rd rs1 s w rfl
  rw [← encode_mDecb, ← ctrFull_iff]
  refine ⟨decode_encode rfl, exec_of_fatal _, exec_of_mv_eq_false (.inl ⟨_, _, .inr rfl⟩), fun hf hv hm => ?_,
    fun hf hv h => ?_, fun hf hv hcfi h => ?_⟩
  · exact exec_of_step_error (fun _ => rfl) hf hv (decStep_of_cfi hm)
  · obtain ⟨hm, hfull⟩ := h
    exact exec_of_step_error (fun _ => rfl) hf hv ((decStep_of_ctr hm).trans (encStep_of_ctrFull hm hfull))
  · have hroom (hm : s.m.mode = .ctr) : s.m.ctrFull = false := Bool.eq_false_iff.2 fun hfull => h ⟨hm, hfull⟩
    obtain ⟨y, m', hstep⟩ := decStep_answers (s.cipherEnc s.m.ciph) (s.cipherDec s.m.ciph) s.m
      (lowBlock s.m.ciph (s.reg rs1)) hcfi hroom
    exact ⟨y, m', hstep, exec_of_effect (i := .mDecb rd rs1) hf ⟨hv, y, m', hstep, rfl⟩⟩

/-- Settles O46: `M.END` has no checks, and `exec_of_mv_eq_false` speaks of the state it leaves. -/
theorem mEndInstruction : Obligations.MEndInstruction := by
  intro s
  rw [← encode_mEnd, ← encode_mEncs, ← encode_mDecs]
  refine ⟨decode_encode rfl, exec_of_fatal _, fun hf => exec_of_effect (i := .mEnd) hf rfl, fun hf rd rs1 => ?_⟩
  rw [← encode_mEncb, ← encode_mDecb]
  exact ⟨exec_of_mv_eq_false (.inl ⟨_, _, .inl rfl⟩) hf rfl, exec_of_mv_eq_false (.inl ⟨_, _, .inr rfl⟩) hf rfl,
    exec_of_mv_eq_false (.inr (.inl rfl)) hf rfl, exec_of_mv_eq_false (.inr (.inr rfl)) hf rfl⟩

end

section
/-!
PROOFS of the family 44_modes_stream.md: chunks and hex strings (R192 to R196), the instructions `M.ENCS` (R191) and
`M.DECS` (R197), how much they append (R202) and the block instructions they stand for (R200).
-/
namespace Sys2Proof.Machine

/-! A block as bytes and as hex digits (44_modes_stream.md R193, R194). -/

theorem hw_eq (c : Cipher) : Config.hw c = 2 * Config.bwB c := by cases c <;> rfl

/-- The value of `n` bytes has no bit above them. -/
theorem fromBytes_toNat_lt {L : List Byte} {n : Nat} (hn : L.length = n) (hn16 : n ≤ 16) :
    (fromBytes L).toNat < 2 ^ (8 * n) := by
  have hlow := fromBytes_toBytes n (fromBytes L)
  rw [toBytes_fromBytes L n hn hn16] at hlow
  rw [hlow, BitVec.toNat_setWidth]
  exact (Nat.mod_le _ _).trans_lt (BitVec.isLt _)

/-- In a list of pairs put end to end, the pair of element `k` stands at `2k` and `2k + 1`. -/
theorem getElem?_flatMap_pair {α β : Type} (f g : α → β) (l : List α) (k : Nat) :
    (l.flatMap fun b => [f b, g b])[2 * k]? = l[k]?.map f ∧
      (l.flatMap fun b => [f b, g b])[2 * k + 1]? = l[k]?.map g := by
  induction l generalizing k with
  | nil => simp
  | cons b l ih =>
    cases k with
    | zero => simp
    | succ k => simpa [Nat.mul_succ] using ih k

/-- A character is a hex digit when it is one of `0`..`9` or `a`..`f`: this hardware takes no uppercase letters. -/
theorem hexValue_ne_none_iff (ch : Byte) :
    hexValue ch ≠ none ↔ (0x30 ≤ ch.toNat ∧ ch.toNat ≤ 0x39) ∨ (0x61 ≤ ch.toNat ∧ ch.toNat ≤ 0x66) := by
  have hupper : ¬ (Config.hexinUpper = true ∧ 0x41 ≤ ch.toNat ∧ ch.toNat ≤ 0x46) := fun h => absurd h.1 (by decide)
  rw [hexValue, if_neg hupper]
  split_ifs with hdigit hletter
  · simp [hdigit]
  · simp [hletter]
  · simp [hdigit, hletter]

theorem length_hexOut (c : Cipher) (ys : List Block) : (hexOut c ys).length = Config.hw c * ys.length := by
  simp [hexOut, List.length_flatMap, length_hexenc, hw_eq, Nat.mul_comm]

theorem length_strip0_le (bs : List Byte) : (strip0 bs).length ≤ bs.length := by
  simpa [strip0] using List.length_dropWhile_le (· == 0) bs.reverse

theorem length_textOut_le (c : Cipher) (ys : List Block) : (textOut c ys).length ≤ Config.bwB c * ys.length := by
  refine (length_strip0_le _).trans_eq ?_
  simp [List.length_flatMap, Nat.mul_comm]

theorem length_messageBlocks (m : ModeUnit) (msg : List Byte) :
    (messageBlocks m msg).length = blockCount msg.length (Config.bwB m.ciph) := by
  rw [messageBlocks, List.length_map, length_chunks]

/-! How a message instruction ends once it is allowed to take `sin` (44_modes_stream.md R191, R197). -/

theorem ctrWouldOverflow_iff (m : ModeUnit) (nb : Nat) :
    m.ctrWouldOverflow nb = true ↔ m.mode = .ctr ∧ m.ctr.toNat + nb > 2 ^ Config.cw m.ciph - 1 := by
  rw [ModeUnit.ctrWouldOverflow, Bool.and_eq_true, beq_iff_eq, decide_eq_true_iff]

/-- With `MV`, an error that a message instruction's later checks raise is recorded with `sin` emptied
(44_modes_stream.md R199). -/
theorem exec_of_message_error {i : Instr} {rest : Hardware → Completion} {s : State} {e : Err}
    (hi : ∀ s, exec i s = command i (fun h => failIf (!h.mv) .nomode h (rest h)) s)
    (hf : s.fatal = false) (hv : s.mv = true) (hr : rest s.toHardware = .fails e s.takeSin) :
    exec i s = .next (State.raised e (encode i) { s with sin := [] }) := by
  have hgood : (!s.mv) = false := by rw [hv]; rfl
  rw [hi, command_of_fails i _ hf ((failIf_of_false hgood _ _ _).trans hr)]
  rfl

/-- A string that is not whole blocks of digits ends with `FORMAT`, whichever of the two checks finds it. -/
theorem formatChecks_fail {h : Hardware}
    (hbad : h.sin.length % Config.hw h.m.ciph ≠ 0 ∨ ∃ ch ∈ h.sin, hexValue ch = none) :
    failIf (h.sin.length % Config.hw h.m.ciph != 0) .format h.takeSin (decodeMessage h (parseHex h.sin)) =
      .fails .format h.takeSin := by
  by_cases hlen : h.sin.length % Config.hw h.m.ciph = 0
  · have hnone : parseHex h.sin = none := parseHex_eq_none.2 (hbad.resolve_left (not_not_intro hlen))
    rw [failIf_of_false (by simp [hlen]), hnone]
    rfl
  · exact failIf_of_true (by simp [hlen]) _ _ _

/-- A string of digits has its nibbles, one per character. -/
theorem parseHex_of_digits {bs : List Byte} (h : ∀ ch ∈ bs, hexValue ch ≠ none) :
    ∃ ns, parseHex bs = some ns ∧ ns.length = bs.length := by
  have hsome : parseHex bs ≠ none := fun hnone =>
    have ⟨ch, hmem, hch⟩ := parseHex_eq_none.1 hnone
    h ch hmem hch
  obtain ⟨ns, hns⟩ := Option.ne_none_iff_exists'.1 hsome
  exact ⟨ns, hns, length_parseHex hns⟩

/-! One block instruction on each block of a list is the loop of a message (44_modes_stream.md R200). -/

/-- The block command `i` on `rd`, `rs1` takes one mode step `f`, which reads of the hardware only the round keys. -/
structure StepsBlock (i : Instr) (rd rs1 : Reg) (f : Hardware → ModeUnit → Block → StepResult) : Prop where
  effect : ∀ {h y m'}, h.mv = true → f h h.m (lowBlock h.m.ciph (h.reg rs1)) = .ok (y, m') →
    Effect i h { h.setReg rd y with m := m' }
  frame : ∀ {h m x y m'}, f h m x = .ok (y, m') → StepFrame m m'
  keys : ∀ {h u}, u.ark = h.ark → u.bsk = h.bsk → f u = f h

theorem cipherEnc_eq_of_keys {h u : Hardware} (ha : u.ark = h.ark) (hb : u.bsk = h.bsk) :
    u.cipherEnc = h.cipherEnc := by
  funext c x
  cases c <;> simp only [Hardware.cipherEnc, ha, hb]

theorem cipherDec_eq_of_keys {h u : Hardware} (ha : u.ark = h.ark) (hb : u.bsk = h.bsk) :
    u.cipherDec = h.cipherDec := by
  funext c x
  cases c <;> simp only [Hardware.cipherDec, ha, hb]

theorem mEncb_stepsBlock (rd rs1 : Reg) : StepsBlock (.mEncb rd rs1) rd rs1 Hardware.encStep where
  effect hv hs := ⟨hv, _, _, hs, rfl⟩
  frame := encStep_frame
  keys ha hb := by
    funext m x
    rw [Hardware.encStep, Hardware.encStep, cipherEnc_eq_of_keys ha hb]

theorem mDecb_stepsBlock (rd rs1 : Reg) : StepsBlock (.mDecb rd rs1) rd rs1 Hardware.decStep where
  effect hv hs := ⟨hv, _, _, hs, rfl⟩
  frame := decStep_frame
  keys ha hb := by
    funext m x
    rw [Hardware.decStep, Hardware.decStep, cipherEnc_eq_of_keys ha hb, cipherDec_eq_of_keys ha hb]

section BlockRun

variable {i : Instr} {rd rs1 : Reg} {f : Hardware → ModeUnit → Block → StepResult} {s : State} {m' : ModeUnit}

/-- A block loaded into `rs1` and stepped: `rd` holds the result, and the next block meets the same step. -/
theorem StepsBlock.exec_loaded (hi : StepsBlock i rd rs1 f) {x y : Block} (hf : s.fatal = false) (hv : s.mv = true)
    (hx : lowBlock s.m.ciph x = x) (hstep : f s.toHardware s.m x = .ok (y, m')) :
    ∃ t, exec i (s.setReg rs1 x) = .next t ∧ t.err = 0 ∧ t.reg rd = y ∧ t.m = m' ∧ t.fatal = false ∧ t.mv = true ∧
      f t.toHardware = f s.toHardware := by
  have hloaded : f (s.toHardware.setReg rs1 x) s.m (lowBlock s.m.ciph ((s.toHardware.setReg rs1 x).reg rs1)) =
      .ok (y, m') := by
    rw [reg_setReg_self, hx, hi.keys (setReg_ark s.toHardware rs1 x) (setReg_bsk s.toHardware rs1 x), hstep]
  exact ⟨_, exec_of_effect hf (hi.effect hv hloaded), rfl, reg_setReg_self (s.toHardware.setReg rs1 x) rd y, rfl, hf,
    hv, hi.keys rfl rfl⟩

/-- On blocks of the cipher's width the run of a block command gives the results and the mode unit of the loop over
its step. -/
theorem StepsBlock.blockRun_eq (hi : StepsBlock i rd rs1 f) {xs ys : List Block} (hf : s.fatal = false)
    (hv : s.mv = true) (hxs : ∀ x ∈ xs, lowBlock s.m.ciph x = x)
    (hrun : runBlocks (f s.toHardware) s.m xs = .ok (ys, m')) :
    ∃ u, blockRun i rd rs1 s xs = some (ys, u) ∧ u.m = m' := by
  induction xs generalizing s ys with
  | nil =>
    obtain ⟨rfl, rfl⟩ : [] = ys ∧ s.m = m' := by simpa [runBlocks] using hrun
    exact ⟨s, rfl, rfl⟩
  | cons x xs ih =>
    obtain ⟨y, m₁, zs, hstep, hrest, rfl⟩ := runBlocks_cons hrun
    obtain ⟨t, hexec, herr, rfl, rfl, htf, htv, hsame⟩ := hi.exec_loaded hf hv (hxs x List.mem_cons_self) hstep
    have hciph : t.m.ciph = s.m.ciph := (hi.frame hstep).ciph
    obtain ⟨u, hu, hum⟩ := ih htf htv (fun z hz => hciph ▸ hxs z (List.mem_cons_of_mem _ hz)) (hsame ▸ hrest)
    exact ⟨u, blockRun_cons hexec herr hu, hum⟩

end BlockRun

end Sys2Proof.Machine

open Sys2Proof Sys2Proof.Machine

/-- Settles O47: `M.ENCS` is a command with one check after `MV`; past it the counter has room for every block, so
the loop runs to its end. -/
theorem mEncsInstruction : Obligations.MEncsInstruction := by
  rintro s nb rfl
  rw [← encode_mEncs, ← ctrWouldOverflow_iff]
  refine ⟨decode_encode rfl, exec_of_fatal _, exec_of_mv_eq_false (.inr (.inl rfl)), fun hf hv hover => ?_,
    fun hf hv hroom => ?_⟩
  · exact exec_of_message_error (fun _ => rfl) hf hv (failIf_of_true hover _ _ _)
  · rw [Bool.not_eq_true] at hroom
    have hcount := length_messageBlocks s.m s.sin
    obtain ⟨ys, m', hrun⟩ := runBlocks_enc_answers s.toHardware s.m (messageBlocks s.m s.sin) (hcount ▸ hroom)
    exact ⟨ys, m', hrun, (length_runBlocks hrun).trans hcount,
      exec_of_effect (i := .mEncs) hf ⟨hv, hroom, ys, m', hrun, rfl⟩⟩

/-- Settles O48: the checks of `M.DECS` one after the other; past them the mode has a decrypt and the counter room
for every block, so the loop runs to its end. -/
theorem mDecsInstruction : Obligations.MDecsInstruction := by
  rintro s nb rfl
  rw [← encode_mDecs, ← ctrWouldOverflow_iff]
  have hgoes {rest} (hne : s.m.mode ≠ .cfi) : failIf (s.m.mode == .cfi) .unimpl s.takeSin rest = rest :=
    failIf_of_false (beq_eq_false_iff_ne.2 hne) _ _ _
  refine ⟨decode_encode rfl, exec_of_fatal _, exec_of_mv_eq_false (.inr (.inr rfl)), fun hf hv hcfi => ?_,
    fun hf hv hne hbad => ?_, fun hf hv hne hlen hdigits hover => ?_, fun hf hv hne hlen hdigits hroom => ?_⟩
  · exact exec_of_message_error (fun _ => rfl) hf hv (failIf_of_true (beq_iff_eq.2 hcfi) _ _ _)
  · exact exec_of_message_error (fun _ => rfl) hf hv ((hgoes hne).trans (formatChecks_fail hbad))
  · obtain ⟨ns, hns, hcount⟩ := parseHex_of_digits hdigits
    refine exec_of_message_error (fun _ => rfl) hf hv ((hgoes hne).trans ?_)
    rw [failIf_of_false (by simp [hlen]), hns]
    exact failIf_of_true (hcount ▸ hover) _ _ _
  · obtain ⟨ns, hns, hcount⟩ := parseHex_of_digits hdigits
    rw [Bool.not_eq_true, ← hcount] at hroom
    have hblocks := length_hexBlocks (Config.hw s.m.ciph) ns
    obtain ⟨ys, m', hrun⟩ := runBlocks_dec_answers s.toHardware s.m _ hne (hblocks ▸ hroom)
    exact ⟨ns, ys, m', hns, hrun, (length_runBlocks hrun).trans (hcount ▸ hblocks),
      exec_of_effect (i := .mDecs) hf ⟨hv, hne, hlen, ns, hns, hroom, ys, m', hrun, rfl⟩⟩

/-- Settles O49: chunks by `flatten_chunks`, bytes by `byteOf_fromBytes` and `toBytes_fromBytes`. -/
theorem chunksAreThePaddedMessage : Obligations.ChunksAreThePaddedMessage := by
  refine ⟨fun mode => by cases mode <;> rfl, fun pad bwB msg hpos => ?_, by decide, fun n L hn hL => ?_,
    fun n v _ => ?_⟩
  · exact ⟨length_chunks pad bwB msg, fun c => length_of_mem_chunks, flatten_chunks pad hpos msg⟩
  · have hn16 : n ≤ 16 := by omega
    refine ⟨fun k hk => ?_, fromBytes_toNat_lt hL hn16, toBytes_fromBytes L n hL hn16⟩
    exact (byteOf_fromBytes L n k hL hn16 (hL ▸ hk)).trans (List.getD_eq_getElem L 0 hk)
  · refine ⟨length_toBytes n v, fun k hk => ?_⟩
    have hlen : k < (toBytes n v).length := by rwa [length_toBytes]
    rw [List.getElem?_eq_getElem hlen, getElem_toBytes]
    rfl

/-- Settles O50: the digits of byte `k` stand at `2k` and `2k + 1`, and reading them gives the nibbles of the
blocks' bytes, which `hexBlocks` puts together again. -/
theorem hexdecUndoesHexenc : Obligations.HexdecUndoesHexenc := by
  refine ⟨by decide, fun v n k hk => ?_, length_hexenc, hexValue_ne_none_iff, fun c ys => ?_⟩
  · have hlen : k < (toBytes n v).length := by rwa [length_toBytes]
    have hbyte : (toBytes n v)[k]? = some (byteOf n v k) := by
      rw [List.getElem?_eq_getElem hlen, getElem_toBytes]
    have hpair := getElem?_flatMap_pair (fun b : Byte => hexDigit (b.extractLsb' 4 4))
      (fun b => hexDigit (b.extractLsb' 0 4)) (toBytes n v) k
    rwa [hbyte] at hpair
  · exact ⟨length_hexOut c ys, _, parseHex_hexOut c ys, hexBlocks_nibbles c ys⟩

/-- Settles O52: a success has had its effect, whose results are as many as the blocks. -/
theorem messageOutputLengths : Obligations.MessageOutputLengths := by
  refine fun s t => ⟨fun h herr => ?_, fun h herr => ?_⟩
  · obtain ⟨-, u, ⟨-, -, ys, m', hrun, rfl⟩, rfl⟩ := effect_of_err_eq_zero h herr
    refine ⟨hexOut s.m.ciph ys, rfl, ?_⟩
    rw [length_hexOut, length_runBlocks hrun, length_messageBlocks]
    rfl
  · obtain ⟨-, u, ⟨-, -, -, ns, hns, -, ys, m', hrun, rfl⟩, rfl⟩ := effect_of_err_eq_zero h herr
    refine ⟨textOut s.m.ciph ys, rfl, (length_textOut_le _ ys).trans_eq ?_⟩
    rw [length_runBlocks hrun, length_hexBlocks, length_parseHex hns]

/-- Settles O53: a success has run the loop over the message's blocks, which are of the cipher's width, so
`StepsBlock.blockRun_eq` gives the run of the block instruction. -/
theorem messageIsTheSequenceOfItsBlocks : Obligations.MessageIsTheSequenceOfItsBlocks := by
  refine fun rd rs1 s t => ⟨fun h herr => ?_, fun h herr => ?_⟩
  · obtain ⟨hf, u, ⟨hv, -, ys, m', hrun, rfl⟩, rfl⟩ := effect_of_err_eq_zero h herr
    obtain ⟨u, hu, hum⟩ := (mEncb_stepsBlock rd rs1).blockRun_eq hf hv (fun _ => lowBlock_of_mem_messageBlocks) hrun
    exact ⟨ys, u, hu, hum, rfl⟩
  · obtain ⟨hf, u, ⟨hv, -, -, ns, hns, -, ys, m', hrun, rfl⟩, rfl⟩ := effect_of_err_eq_zero h herr
    obtain ⟨u, hu, hum⟩ := (mDecb_stepsBlock rd rs1).blockRun_eq hf hv (fun _ => lowBlock_of_mem_hexBlocks) hrun
    exact ⟨ns, ys, u, hns, hu, hum, rfl⟩

end

section
/-!
PROOFS of the family 60_exceptions.md: what a command word that fails leaves behind (R213, R199).
-/
namespace Sys2Proof

/-- A word that decodes is the encoding of its instruction, so `ECMD` takes the word the host wrote
(60_exceptions.md R213, 30_encoding.md R82). -/
theorem encode_of_decode {w : Word} {i : Instr} (hd : decode w = .ok i) : encode i = w := by
  rw [encode, (decode_eq_ok_iff.1 hd).2, Fields.toWord_ofWord]

namespace Machine

/-- R199's premise, said of the command word. -/
theorem exists_decode_takesMessage_iff {w : Word} {e : Err} :
    (∃ i, decode w = .ok i ∧ TakesMessage i e) ↔
      (w = 0x43000000 ∨ w = 0x44000000) ∧ (e = .unimpl ∨ e = .format ∨ e = .ctrovf) := by
  constructor
  · rintro ⟨i, hd, rfl | rfl, he⟩
    · exact ⟨.inl ((encode_of_decode hd).symm.trans encode_mEncs), he⟩
    · exact ⟨.inr ((encode_of_decode hd).symm.trans encode_mDecs), he⟩
  · rintro ⟨rfl | rfl, he⟩
    · exact ⟨.mEncs, rfl, .inl rfl, he⟩
    · exact ⟨.mDecs, rfl, .inr rfl, he⟩

/-- A command word that fails records an error over the state before it, of which only `sin` may have been taken;
a word that does not decode takes nothing (60_exceptions.md R213, 44_modes_stream.md R199). -/
theorem runWord_raise_of_err_ne_zero {w : Word} {h u : Hardware} (hw : runWord w h = .next u) (herr : u.err ≠ 0) :
    ∃ e q, ((∃ i, decode w = .ok i ∧ TakesMessage i e) → q = []) ∧
      ((¬ ∃ i, decode w = .ok i ∧ TakesMessage i e) → q = h.sin) ∧ u = raise e w { h with sin := q } := by
  rcases runWord_cases hw with ⟨i, hd, hexec⟩ | ⟨r, hd, rfl⟩
  · rcases exec_effect_or_raise hexec with ⟨v, -, hu⟩ | ⟨e, q, htaken, hkept, hu⟩
    · exact absurd (congrArg (·.err) hu) herr
    · refine ⟨e, q, fun ⟨j, hj, ht⟩ => htaken ?_, fun hn => hkept fun ht => hn ⟨i, hd, ht⟩, ?_⟩
      · have hji : j = i := Except.ok.inj (hj.symm.trans hd)
        exact hji ▸ ht
      · rw [encode_of_decode hd] at hu
        exact congrArg (·.toHardware) hu
  · have hnone (i : Instr) : decode w ≠ .ok i := fun hi => nomatch hi.symm.trans hd
    exact ⟨_, h.sin, fun ⟨i, hi, _⟩ => absurd hi (hnone i), fun _ => rfl, rfl⟩

end Machine

end Sys2Proof

open Sys2Proof Sys2Proof.Machine

/-- Settles O10: the failed word's record is `raise` over the state before it, up to `sin`
(`runWord_raise_of_err_ne_zero`), and the words that take a message are the two that R199 names. -/
theorem failingCommandChangesOnlyTheErrorRecord : Obligations.FailingCommandChangesOnlyTheErrorRecord := by
  refine ⟨by decide, fun w h u hw herr => ?_⟩
  obtain ⟨e, q, htaken, hkept, rfl⟩ := runWord_raise_of_err_ne_zero hw herr
  rw [exists_decode_takesMessage_iff] at htaken hkept
  exact ⟨e, rfl, htaken, hkept⟩

end

section
/-!
PROOFS of the family other, encoding: encode and decode are inverse to each other (30_encoding.md R71 to R74, R82).
-/

open Sys2Proof Sys2Proof.Machine

/-- Settles O1: an instruction's word has the instruction's fields, and these decode to it (`decode_encode`). -/
theorem encodeDecodeRoundTrip : Obligations.EncodeDecodeRoundTrip := fun _ hwf => decode_encode hwf

/-- Settles O2: fields that decode are those of what they decode to, and a word is its fields. -/
theorem decodedWordIsItsEncoding : Obligations.DecodedWordIsItsEncoding := fun _ _ hd =>
  ⟨(decode_eq_ok_iff.1 hd).1, encode_of_decode hd⟩

/-- Settles O5: each word is decoded by computation. -/
theorem sampleWordsDecode : Obligations.SampleWordsDecode := by
  unfold Obligations.SampleWordsDecode
  decide

end

section
/-!
PROOFS of the family other, moves of the host: every move completes (70_reset_and_hazards.md R255), what a step and
a command word can do to the hardware, and how a command word runs (20_memory.md R54, 60_exceptions.md R212, R215).
-/
namespace Sys2Proof.Machine

/-! A step performs the host's next move. -/

theorem hostWrite_cmd (v : Block) (h : Hardware) : hostWrite 0x18 v h = runWord (v.setWidth 32) h := rfl

/-- Every host write completes (20_memory.md R53 to R57). -/
theorem hostWrite_answers (n : BitVec 8) (v : Block) (h : Hardware) : ∃ u, hostWrite n v h = .next u := by
  unfold hostWrite
  split_ifs
  · exact ⟨_, rfl⟩
  · exact runWord_answers _ h
  · exact ⟨_, rfl⟩
  · exact ⟨_, rfl⟩

theorem performMove_write {n : BitVec 8} {v : Block} {h u : Hardware} (hw : hostWrite n v h = .next u) :
    performMove (.write n v) h = .next (u, none) := by rw [performMove, hw, noValue]

/-- Every move of the host completes (70_reset_and_hazards.md R255). -/
theorem performMove_answers (mv : HostMove) (h : Hardware) : ∃ u v, performMove mv h = .next (u, v) := by
  cases mv with
  | read n => exact ⟨_, _, rfl⟩
  | write n v =>
    obtain ⟨u, hu⟩ := hostWrite_answers n v h
    exact ⟨u, none, performMove_write hu⟩
  | reset => exact ⟨_, _, rfl⟩

theorem step_of_no_move {s : State} (hp : s.pending = []) : step s = .next s := by rw [step, hp]

/-- A step performs the first of the pending moves. -/
theorem step_of_move {s : State} {mv : HostMove} {rest : List HostMove} {u : Hardware} {v : Option Block}
    (hp : s.pending = mv :: rest) (hm : performMove mv s.toHardware = .next (u, v)) :
    step s = .next ⟨u, rest, s.observed ++ v.toList⟩ := by simp only [step, hp, hm, afterMove]

/-- A step whose move is a write leaves the hardware as `hostWrite` does, and nothing more is observed. -/
theorem step_of_write {s : State} {n : BitVec 8} {v : Block} {rest : List HostMove} {u : Hardware}
    (hp : s.pending = .write n v :: rest) (hw : hostWrite n v s.toHardware = .next u) :
    step s = .next ⟨u, rest, s.observed⟩ := by
  rw [step_of_move hp (performMove_write hw), Option.toList_none, List.append_nil]

/-- A step whose move is a write to `CMD`: `runWord` on the hardware, and `exec` where the word decodes. -/
theorem step_of_cmd {s : State} {v : Block} {rest : List HostMove} (hp : s.pending = .write 0x18 v :: rest) :
    (∃ u, runWord (v.setWidth 32) s.toHardware = .next u ∧ step s = .next ⟨u, rest, s.observed⟩) ∧
      (∀ i, decode (v.setWidth 32) = .ok i → step s = exec i { s with pending := rest }) := by
  refine ⟨?_, fun i hd => ?_⟩
  · obtain ⟨u, hu⟩ := runWord_answers (v.setWidth 32) s.toHardware
    exact ⟨u, hu, step_of_write hp hu⟩
  · obtain ⟨u, hu, hexec⟩ := exec_eq_runWord hd { s with pending := rest }
    rw [step_of_write hp hu, hexec, State.withHardware]

theorem withFetchWord_pending (s : State) (w : Word) :
    (s.withFetchWord 32 w.toNat).pending = .write 0x18 (w.setWidth 128) :: s.pending := by
  rw [State.withFetchWord, cmdMove, Nat.mod_eq_of_lt w.isLt, BitVec.ofNat_toNat, BitVec.setWidth_eq]

/-! What a move can do to the hardware: an access to data touches the data registers and the queues alone. -/

/-- A host read changes no component but `sout`. -/
theorem hostRead_snd_eq (n : BitVec 8) (h : Hardware) : ∃ q, (hostRead n h).2 = { h with sout := q } := by
  rcases hostRead_snd n h with hsame | ⟨b, rest, -, hpop⟩
  · exact ⟨h.sout, hsame⟩
  · exact ⟨rest, hpop⟩

/-- Everything a step can do to the hardware. -/
theorem step_toHardware_cases {s t : State} (h : step s = .next t) :
    (∃ d q q', t.toHardware = { s.toHardware with d := d, sin := q, sout := q' }) ∨
    (∃ v, s.pending.head? = some (.write 0x18 v) ∧ runWord (v.setWidth 32) s.toHardware = .next t.toHardware) ∨
    (s.pending.head? = some .reset ∧ t.toHardware = Hardware.reset) := by
  rcases step_cases h with ⟨-, rfl⟩ | ⟨mv, rest, u, v, hp, hm, rfl⟩
  · exact .inl ⟨t.d, t.sin, t.sout, rfl⟩
  rw [hp]
  cases mv with
  | read n =>
    cases hm
    obtain ⟨q, hq⟩ := hostRead_snd_eq n s.toHardware
    exact .inl ⟨s.d, s.sin, q, hq⟩
  | write n v =>
    obtain ⟨w, hw⟩ := hostWrite_answers n v s.toHardware
    cases (performMove_write hw).symm.trans hm
    rcases hostWrite_cases hw with ⟨r, rfl⟩ | ⟨rfl, hcmd⟩ | rfl | rfl
    · exact .inl ⟨_, s.sin, s.sout, rfl⟩
    · exact .inr (.inl ⟨v, rfl, hcmd⟩)
    · exact .inl ⟨s.d, _, s.sout, rfl⟩
    · exact .inl ⟨s.d, s.sin, s.sout, rfl⟩
  | reset =>
    cases hm
    exact .inr (.inr ⟨rfl, rfl⟩)

/-- The two ways a command word ends: with the effect of its instruction, or with an error recorded over the hardware
before it, of which only `sin` may have been taken. -/
theorem runWord_effect_or_raise {w : Word} {h u : Hardware} (hw : runWord w h = .next u) :
    (∃ i v, decode w = .ok i ∧ Effect i h v ∧ u = succeed v) ∨
      ∃ e q, u = raise e w { h with sin := q } := by
  by_cases herr : u.err = 0
  · rcases runWord_cases hw with ⟨i, hd, hexec⟩ | ⟨r, -, rfl⟩
    · obtain ⟨-, v, he, hu⟩ := effect_of_err_eq_zero hexec herr
      exact .inl ⟨i, v, hd, he, congrArg (·.toHardware) hu⟩
    · exact absurd herr (raise_err_ne_zero _ _ _)
  · obtain ⟨e, q, -, -, hu⟩ := runWord_raise_of_err_ne_zero hw herr
    exact .inr ⟨e, q, hu⟩

/-- Under `FATAL` a command word ends with `FATALD`, whether it decodes or not (60_exceptions.md R215). -/
theorem runWord_of_fatal (w : Word) {h : Hardware} (hf : h.fatal = true) : runWord w h = .next (raise .fatald w h) := by
  cases hd : decode w with
  | ok i =>
    have hexec := exec_of_fatal i (s := h.alone) hf
    rw [encode_of_decode hd] at hexec
    simp only [runWord, hd, hexec, hardwareOf, raised_toHardware, alone_toHardware]
  | error r => rw [runWord_of_error hd, rejectWord, if_pos hf]

theorem keyValid_eq_of_flags {h u : Hardware} (ha : u.akv = h.akv) (hb : u.bkv = h.bkv) (c : Cipher) :
    u.keyValid c = h.keyValid c := by
  cases c
  exacts [ha, hb]

/-- A key-valid flag, once set, is set after any effect. -/
theorem Writes.keyValid {i : Instr} {h u : Hardware} (hw : Writes i h u) {c : Cipher} (hc : h.keyValid c = true) :
    u.keyValid c = true := by
  cases hw with
  | keyA =>
    cases c
    exacts [rfl, hc]
  | keyB =>
    cases c
    exacts [hc, rfl]
  | _ => exact (keyValid_eq_of_flags rfl rfl c).trans hc

/-- What nothing but reset clears: `AKV`, `BKV`, `FATAL` and the bits of `ELOG` (10_state.md R23, R26). -/
structure Sticky (h u : Hardware) : Prop where
  keyValid : ∀ {c}, h.keyValid c = true → u.keyValid c = true
  fatal : h.fatal = true → u.fatal = true
  elog : h.elog &&& u.elog = h.elog

theorem and_logErr (elog : BitVec 16) (e : Err) : elog &&& logErr elog e = elog := by
  refine BitVec.eq_of_getLsbD_eq fun i _ => ?_
  rw [logErr, BitVec.getLsbD_and, BitVec.getLsbD_or]
  cases elog.getLsbD i <;> rfl

theorem sticky_raise (e : Err) (w : Word) (h : Hardware) : Sticky h (raise e w h) where
  keyValid hc := (keyValid_eq_of_flags rfl rfl _).trans hc
  fatal hf := by rw [raise_fatal, hf, Bool.true_or]
  elog := and_logErr h.elog e

/-- A command word clears none of them, whether it succeeds or fails. -/
theorem runWord_sticky {w : Word} {h u : Hardware} (hw : runWord w h = .next u) : Sticky h u := by
  rcases runWord_effect_or_raise hw with ⟨i, v, -, he, rfl⟩ | ⟨e, q, rfl⟩
  · obtain ⟨helog, -, hfatal⟩ := he.writes.errorLog
    refine ⟨fun hc => (keyValid_eq_of_flags rfl rfl _).trans (he.writes.keyValid hc), fun hf => hfatal.trans hf, ?_⟩
    rw [succeed_elog, helog, BitVec.and_self]
  · have hs := sticky_raise e w { h with sin := q }
    exact ⟨fun hc => hs.keyValid ((keyValid_eq_of_flags rfl rfl _).trans hc), hs.fatal, hs.elog⟩

/-- Only `A.KEY` off a lock changes Cipher-A's keys, and it installs its operand's schedule (10_state.md R30). -/
theorem Effect.ark {i : Instr} {h u : Hardware} (he : Effect i h u) :
    (u.ark = h.ark ∧ u.akv = h.akv) ∨
      ∃ rs1, i = .aKey rs1 ∧ h.locked .a = false ∧ u.ark = aKeySched (h.reg rs1) ∧ u.akv = true := by
  by_cases hi : ∃ rs1, i = .aKey rs1
  · obtain ⟨rs1, rfl⟩ := hi
    obtain ⟨hl, rfl⟩ := he
    exact .inr ⟨rs1, rfl, hl, rfl, rfl⟩
  · exact .inl (he.writes.keysA fun rs1 h => hi ⟨rs1, h⟩)

/-- Only `B.KEY` off a lock changes Cipher-B's keys, and it installs its operand's schedule (10_state.md R31). -/
theorem Effect.bsk {i : Instr} {h u : Hardware} (he : Effect i h u) :
    (u.bsk = h.bsk ∧ u.bkv = h.bkv) ∨
      ∃ rs1, i = .bKey rs1 ∧ h.locked .b = false ∧ u.bsk = bKeySched (h.reg64 rs1) ∧ u.bkv = true := by
  by_cases hi : ∃ rs1, i = .bKey rs1
  · obtain ⟨rs1, rfl⟩ := hi
    obtain ⟨hl, -, rfl⟩ := he
    exact .inr ⟨rs1, rfl, hl, rfl, rfl⟩
  · exact .inl (he.writes.keysB fun rs1 h => hi ⟨rs1, h⟩)

section Keys

variable {s t : State} (h : step s = .next t) (hreset : s.pending.head? ≠ some .reset)
include h hreset

/-- Of a step that is no reset, only a command that succeeds can change round keys. -/
theorem step_keys_cases :
    (t.ark = s.ark ∧ t.bsk = s.bsk) ∨
      ∃ v i u, s.pending.head? = some (.write 0x18 v) ∧ decode (v.setWidth 32) = .ok i ∧ Effect i s.toHardware u ∧
        t.toHardware = succeed u := by
  rcases step_toHardware_cases h with ⟨d, q, q', ht⟩ | ⟨v, hhead, hw⟩ | ⟨hr, -⟩
  · rw [ht]
    exact .inl ⟨rfl, rfl⟩
  · rcases runWord_effect_or_raise hw with ⟨i, u, hd, he, ht⟩ | ⟨e, q, ht⟩
    · exact .inr ⟨v, i, u, hhead, hd, he, ht⟩
    · rw [ht]
      exact .inl ⟨rfl, rfl⟩
  · exact absurd hr hreset

theorem step_ark : t.ark = s.ark ∨ ∃ v rs1, s.pending.head? = some (.write 0x18 v) ∧
    decode (v.setWidth 32) = .ok (.aKey rs1) ∧ t.err = 0 ∧ s.locked .a = false ∧ t.ark = aKeySched (s.reg rs1) := by
  rcases step_keys_cases h hreset with ⟨hark, -⟩ | ⟨v, i, u, hhead, hd, he, ht⟩
  · exact .inl hark
  · rw [ht]
    exact he.ark.imp And.left fun ⟨rs1, hi, hl, hsched, _⟩ => ⟨v, rs1, hhead, hi ▸ hd, rfl, hl, hsched⟩

theorem step_bsk : t.bsk = s.bsk ∨ ∃ v rs1, s.pending.head? = some (.write 0x18 v) ∧
    decode (v.setWidth 32) = .ok (.bKey rs1) ∧ t.err = 0 ∧ s.locked .b = false ∧ t.bsk = bKeySched (s.reg64 rs1) := by
  rcases step_keys_cases h hreset with ⟨-, hbsk⟩ | ⟨v, i, u, hhead, hd, he, ht⟩
  · exact .inl hbsk
  · rw [ht]
    exact he.bsk.imp And.left fun ⟨rs1, hi, hl, hsched, _⟩ => ⟨v, rs1, hhead, hi ▸ hd, rfl, hl, hsched⟩

end Keys

end Sys2Proof.Machine

open Sys2Proof Sys2Proof.Machine

/-- Settles O6: a write to `CMD` is `runWord`, which does in any run what `exec` does (`step_of_cmd`);
`withFetchWord` puts such a write first. -/
theorem stepRunsDecodedCommand : Obligations.StepRunsDecodedCommand := by
  refine ⟨hostWrite_cmd, fun s v rest hp => step_of_cmd hp, fun s w => ?_⟩
  have hcmd := step_of_cmd (withFetchWord_pending s w)
  rwa [BitVec.setWidth_setWidth_of_le _ (by decide), BitVec.setWidth_eq] at hcmd

/-- Settles O9: `FATALD` is recorded (`runWord_of_fatal`), and it is not `WIDTH`. -/
theorem fatalCoreRefusesEveryWord : Obligations.FatalCoreRefusesEveryWord := by
  intro w h hf
  rw [runWord_of_fatal w hf, raise_of_ne_width (by decide)]
  rfl

/-- Settles O11: a success has had its effect on a core that was not fatal, and no effect writes the error log. -/
theorem successfulCommandKeepsTheErrorLog : Obligations.SuccessfulCommandKeepsTheErrorLog := by
  intro i s t h herr
  obtain ⟨hf, u, he, rfl⟩ := effect_of_err_eq_zero h herr
  obtain ⟨helog, hecmd, hfatal⟩ := he.writes.errorLog
  exact ⟨hf, hfatal.trans hf, helog, hecmd⟩

/-- Settles O12: `performMove` answers for every move (`performMove_answers`), and a step is its answer for the first
pending one; an instruction is a function of the hardware (`exec_eq`). -/
theorem everyMoveCompletes : Obligations.EveryMoveCompletes := by
  refine ⟨fun s => ?_, exec_eq⟩
  cases hp : s.pending with
  | nil => exact ⟨s, step_of_no_move hp, hp, fun _ => rfl, by simp, by simp, by simp, by simp⟩
  | cons mv rest =>
    obtain ⟨u, v, hm⟩ := performMove_answers mv s.toHardware
    refine ⟨_, step_of_move hp hm, rfl, by simp, ?_, ?_, ?_, ?_⟩
    · rintro _ _ ⟨⟩
      exact ⟨v, hm, rfl⟩
    · rintro n _ ⟨⟩
      cases hm
      exact ⟨rfl, rfl⟩
    · rintro n x _ ⟨⟩
      obtain ⟨w, hw⟩ := hostWrite_answers n x s.toHardware
      cases (performMove_write hw).symm.trans hm
      exact ⟨hw, List.append_nil _⟩
    · rintro _ ⟨⟩
      cases hm
      exact ⟨rfl, List.append_nil _⟩

/-- Settles O13: an access to data leaves these components, and `runWord_sticky` speaks of the rest. -/
theorem flagsAndLogAreStickyUntilReset : Obligations.FlagsAndLogAreStickyUntilReset := by
  intro s t h hreset
  have hsticky : Sticky s.toHardware t.toHardware := by
    rcases step_toHardware_cases h with ⟨d, q, q', ht⟩ | ⟨v, -, hw⟩ | ⟨hr, -⟩
    · rw [ht]
      exact ⟨fun hc => (keyValid_eq_of_flags rfl rfl _).trans hc, id, BitVec.and_self⟩
    · exact runWord_sticky hw
    · exact absurd hr hreset
  exact ⟨hsticky.keyValid (c := .a), hsticky.keyValid (c := .b), hsticky.fatal, hsticky.elog⟩

/-- Settles O57: of a step that is no reset only an effect can change round keys; it is the key command's, which the
lock of a live unit on that cipher refuses (`Effect.ark`, `Effect.bsk`). -/
theorem roundKeysChangeOnlyByKeyCommands : Obligations.RoundKeysChangeOnlyByKeyCommands := by
  intro s t h hreset
  have hark := step_ark h hreset
  have hbsk := step_bsk h hreset
  have hlive {c : Cipher} (hv : s.mv = true) (hc : s.m.ciph = c) : s.locked c ≠ false := by
    rw [Bool.ne_false_iff]
    exact (locked_iff s.toHardware c).2 ⟨hv, hc⟩
  refine ⟨fun hne => ?_, fun hne => ?_, fun hv hc => ?_, fun hv hc => ?_⟩
  · obtain ⟨v, rs1, hhead, hd, herr, -, hsched⟩ := hark.resolve_left hne
    exact ⟨v, rs1, hhead, hd, herr, hsched⟩
  · obtain ⟨v, rs1, hhead, hd, herr, -, hsched⟩ := hbsk.resolve_left hne
    exact ⟨v, rs1, hhead, hd, herr, hsched⟩
  · exact hark.resolve_right fun ⟨_, _, _, _, _, hl, _⟩ => hlive hv hc hl
  · exact hbsk.resolve_right fun ⟨_, _, _, _, _, hl, _⟩ => hlive hv hc hl

end

section
/-!
PROOFS of the family other, the machine's invariant: the error registers agree (10_state.md R25 to R27), the key files
hold schedules (R30, R31, R35), a live unit has a key (43_modes_block.md R164), and the mode unit holds what its mode
and cipher allow (R162, R165, R176).
-/
namespace Sys2Proof.Machine

variable {h u : Hardware} {i : Instr}

/-! The error registers (10_state.md R25 to R27, 60_exceptions.md R213). -/

theorem errInv_reset : Hardware.reset.ErrInv := ⟨by decide, fun hne => absurd rfl hne, rfl, rfl, fun _ => rfl⟩

/-- A success writes `ERR` alone of the error registers (60_exceptions.md R212). -/
theorem Hardware.ErrInv.succeed (hh : h.ErrInv) (hlog : u.elog = h.elog ∧ u.ecmd = h.ecmd ∧ u.fatal = h.fatal) :
    (succeed u).ErrInv := by
  obtain ⟨helog, hecmd, hfatal⟩ := hlog
  refine ⟨Nat.zero_le _, fun hne => absurd rfl hne, ?_, ?_, ?_⟩
  · rw [succeed_elog, helog, hh.reserved]
  · rw [succeed_elog, succeed_fatal, helog, hfatal, hh.fatal_iff]
  · rw [succeed_elog, succeed_ecmd, helog, hecmd]
    exact hh.ecmd_zero

/-- The bit an error sets: that of its code, which is no reserved one, and bit 6 for `WIDTH` alone. -/
theorem errBit (e : Err) : (1#16 <<< e.code.toNat).getLsbD e.code.toNat = true ∧
    (1#16 <<< e.code.toNat) &&& 0xFC01#16 = 0 ∧ (1#16 <<< e.code.toNat).getLsbD 6 = (e == .width) := by
  cases e <;> decide

/-- An error is logged with the bits before it, so the record agrees with itself (60_exceptions.md R213). -/
theorem Hardware.ErrInv.raise (hh : h.ErrInv) (e : Err) (w : Word) : (raise e w h).ErrInv := by
  obtain ⟨hbit, hreserved, hwidth⟩ := errBit e
  have hlogged : (logErr h.elog e).getLsbD e.code.toNat = true := by
    rw [logErr, BitVec.getLsbD_or, hbit, Bool.or_true]
  refine ⟨e.code_le, fun _ => hlogged, ?_, ?_, fun hzero => ?_⟩
  · rw [raise_elog, logErr, BitVec.and_or_distrib_right, hh.reserved, hreserved]
    rfl
  · rw [raise_elog, raise_fatal, logErr, BitVec.getLsbD_or, hwidth, hh.fatal_iff]
  · rw [raise_elog] at hzero
    rw [hzero] at hlogged
    simp at hlogged

/-! The round-key files (10_state.md R30, R31, R35). -/

theorem keyInv_reset : Hardware.reset.KeyInv :=
  ⟨fun hv => Bool.noConfusion hv, fun _ => rfl, fun hv => Bool.noConfusion hv, fun _ => rfl⟩

/-- A file of Cipher-A is kept with its flag, or installed as its operand's schedule. -/
theorem Hardware.KeyInv.effect (hh : h.KeyInv) (he : Effect i h u) : u.KeyInv := by
  have ha : (u.akv = true → u.ark = aKeySched u.ark[0]) ∧ (u.akv = false → u.ark = Hardware.reset.ark) := by
    rcases he.ark with ⟨hark, hakv⟩ | ⟨rs1, -, -, hark, hakv⟩
    · rw [hark, hakv]
      exact ⟨hh.a_valid, hh.a_unset⟩
    · rw [hark, hakv]
      exact ⟨fun _ => rfl, fun hv => Bool.noConfusion hv⟩
  have hb : (u.bkv = true → ∃ k, u.bsk = bKeySched k) ∧ (u.bkv = false → u.bsk = Hardware.reset.bsk) := by
    rcases he.bsk with ⟨hbsk, hbkv⟩ | ⟨rs1, -, -, hbsk, hbkv⟩
    · rw [hbsk, hbkv]
      exact ⟨hh.b_valid, hh.b_unset⟩
    · rw [hbsk, hbkv]
      exact ⟨fun _ => ⟨_, rfl⟩, fun hv => Bool.noConfusion hv⟩
  exact ⟨ha.1, ha.2, hb.1, hb.2⟩

/-! A live unit's cipher has a key (43_modes_block.md R164). -/

/-- A unit live after an effect was live before it, on the same cipher, or `M.INIT` has found that cipher's key. -/
theorem Effect.live (he : Effect i h u) (hv : u.mv = true) :
    (h.mv = true ∧ u.m.ciph = h.m.ciph) ∨ u.keyValid u.m.ciph = true := by
  have hw := he.writes
  cases hw with
  | blockStep hi hb v m' => exact .inl ⟨hv, (he.unitFrame (.inl hb)).ciph⟩
  | init hi m' =>
    obtain ⟨mode, c, rs1, rfl⟩ := hi
    obtain ⟨hkey, -, hu⟩ := he
    rw [hu]
    right
    cases c <;> exact hkey
  | message => exact Bool.noConfusion hv
  | endInstance => exact Bool.noConfusion hv
  | _ => exact .inl ⟨hv, rfl⟩

/-! The mode unit (43_modes_block.md R162, R165, R172 to R176). -/

theorem lowBlock_b_toNat_lt {v : Block} (hv : lowBlock .b v = v) : v.toNat < 2 ^ 64 := by
  rw [← hv, lowBlock, BitVec.toNat_setWidth]
  exact (Nat.mod_le _ _).trans_lt (BitVec.isLt _)

theorem modeUnitInv_reset : ModeUnit.reset.Inv := ⟨⟨rfl, rfl, rfl⟩, fun _ => by decide⟩

/-- What `M.INIT` constructs (43_modes_block.md R165). -/
theorem initUnit_inv (mode : Mode) (c : Cipher) (v : Block) : (initUnit mode c v).Inv where
  unused := by
    cases mode with
    | ecb => exact ⟨rfl, rfl, rfl⟩
    | ctr => exact (rfl : (0 : Block) = 0)
    | _ => exact ⟨rfl, rfl⟩
  narrow := by
    rintro rfl
    have hchain : (lowBlock .b v).toNat < 2 ^ 64 := lowBlock_b_toNat_lt (lowBlock_idem .b v)
    have hnonce : ((v.setWidth 32).setWidth 64).toNat < 2 ^ 32 := by
      rw [BitVec.toNat_setWidth]
      exact (Nat.mod_le _ _).trans_lt (BitVec.isLt _)
    have hzero : (0#128).toNat < 2 ^ 64 ∧ (0#64).toNat < 2 ^ 32 := by decide
    obtain ⟨hzeroBlock, hzeroHalf⟩ := hzero
    cases mode with
    | ecb => exact ⟨hzeroBlock, hzeroHalf, hzeroHalf⟩
    | ctr => exact ⟨hzeroBlock, hnonce, hzeroHalf⟩
    | _ => exact ⟨hchain, hzeroHalf, hzeroHalf⟩

section Steps

variable {m m' : ModeUnit} {x y : Block} {xs ys : List Block}

/-- A step of a mode writes `M.chain` and `M.ctr` within the bounds of the cipher when the chaining value it stores is
a block of the cipher. -/
theorem ModeUnit.Inv.step (hm : m.Inv) (hf : StepFrame m m')
    (hchain : m'.chain = m.chain ∨ lowBlock m.ciph m'.chain = m'.chain) : m'.Inv where
  unused := by
    have hunused := hm.unused
    unfold ModeUnit.unusedZero at hunused ⊢
    rw [hf.mode]
    cases hmode : m.mode <;> rw [hmode] at hunused
    case ecb => simpa only [hf.nonce, hf.ctr (by simp [hmode]), hf.chain (.inl hmode)] using hunused
    case ctr => simpa only [hf.chain (.inr hmode)] using hunused
    all_goals simpa only [hf.nonce, hf.ctr (by simp [hmode])] using hunused
  narrow := by
    intro hb
    rw [hf.ciph] at hb
    obtain ⟨hc, hn, hctr⟩ := hm.narrow hb
    rw [hb] at hchain
    refine ⟨hchain.elim (fun he => he ▸ hc) lowBlock_b_toNat_lt, hf.nonce ▸ hn, ?_⟩
    by_cases hmode : m.mode = .ctr
    · obtain ⟨hroom, hnext⟩ := hf.ctr_next hmode
      have hlast : ¬ m.ctr.toNat % 2 ^ 32 = 2 ^ 32 - 1 := by
        have := mt (ctrFull_iff m).2 (Bool.eq_false_iff.1 hroom)
        rwa [hb] at this
      rw [hnext, ctr_succ_toNat (by rw [hb]; change _ < 2 ^ 32 - 1; omega)]
      omega
    · rw [hf.ctr hmode]
      exact hctr

variable {h : Hardware}

theorem lowBlock_xor_eq_self {c : Cipher} (hx : lowBlock c x = x) (hy : lowBlock c y = y) :
    lowBlock c (x ^^^ y) = x ^^^ y := by rw [lowBlock_xor, hx, hy]

/-- `EncStep` on a block of the cipher gives one, and stores no other chaining value (43_modes_block.md R163). -/
theorem encStep_lowBlock (hx : lowBlock m.ciph x = x) (hs : h.encStep m x = .ok (y, m')) :
    lowBlock m.ciph y = y ∧ (m'.chain = m.chain ∨ lowBlock m.ciph m'.chain = m'.chain) := by
  have hE (z : Block) := lowBlock_cipherEnc h m.ciph z
  rw [Hardware.encStep] at hs
  cases hm : m.mode with
  | ecb =>
    cases (steps_of_ecb (D := id) hm).1.symm.trans hs
    exact ⟨hE _, .inl rfl⟩
  | cfi =>
    cases (steps_of_cfi (D := id) hm).1.symm.trans hs
    exact ⟨hE _, .inr (hE _)⟩
  | cfb =>
    cases (steps_of_cfb (D := id) hm).1.symm.trans hs
    exact ⟨lowBlock_xor_eq_self (hE _) hx, .inr (lowBlock_xor_eq_self (hE _) hx)⟩
  | pfb =>
    cases (steps_of_pfb (D := id) hm).1.symm.trans hs
    exact ⟨lowBlock_xor_eq_self (hE _) hx, .inr hx⟩
  | ctr =>
    obtain ⟨-, rfl, rfl⟩ := ctrStep_ok ((encStep_eq_ctrStep hm).symm.trans hs)
    exact ⟨lowBlock_xor_eq_self hx (hE _), .inl rfl⟩

/-- The same of `DecStep`. -/
theorem decStep_lowBlock (hx : lowBlock m.ciph x = x) (hs : h.decStep m x = .ok (y, m')) :
    lowBlock m.ciph y = y ∧ (m'.chain = m.chain ∨ lowBlock m.ciph m'.chain = m'.chain) := by
  have hE (z : Block) := lowBlock_cipherEnc h m.ciph z
  rw [Hardware.decStep] at hs
  cases hm : m.mode with
  | ecb =>
    cases (steps_of_ecb hm).2.symm.trans hs
    exact ⟨lowBlock_cipherDec h m.ciph _, .inl rfl⟩
  | cfi => cases (decStep_of_cfi hm).symm.trans hs
  | cfb =>
    cases (steps_of_cfb hm).2.symm.trans hs
    exact ⟨lowBlock_xor_eq_self (hE _) hx, .inr hx⟩
  | pfb =>
    cases (steps_of_pfb hm).2.symm.trans hs
    exact ⟨lowBlock_xor_eq_self (hE _) hx, .inr (lowBlock_xor_eq_self (hE _) hx)⟩
  | ctr =>
    exact encStep_lowBlock hx ((decStep_of_ctr hm).symm.trans hs)

/-- A function of one step keeps the unit's invariant on blocks of the cipher. -/
def StepsKeepInv (f : ModeUnit → Block → StepResult) : Prop :=
  ∀ m x y m', m.Inv → lowBlock m.ciph x = x → f m x = .ok (y, m') → m'.Inv ∧ m'.ciph = m.ciph

theorem encStep_keepsInv (h : Hardware) : StepsKeepInv h.encStep := fun _ _ _ _ hm hx hs =>
  have hf := encStep_frame hs
  ⟨hm.step hf (encStep_lowBlock hx hs).2, hf.ciph⟩

theorem decStep_keepsInv (h : Hardware) : StepsKeepInv h.decStep := fun _ _ _ _ hm hx hs =>
  have hf := decStep_frame hs
  ⟨hm.step hf (decStep_lowBlock hx hs).2, hf.ciph⟩

theorem StepsKeepInv.runBlocks {f : ModeUnit → Block → StepResult} (hf : StepsKeepInv f) (hm : m.Inv)
    (hxs : ∀ x ∈ xs, lowBlock m.ciph x = x) (hrun : runBlocks f m xs = .ok (ys, m')) : m'.Inv := by
  refine (runBlocks_keeps (fun n => n.Inv ∧ n.ciph = m.ciph) ?_ ⟨hm, rfl⟩ hrun).1
  rintro n x y n' hx ⟨hn, hc⟩ hs
  obtain ⟨hn', hc'⟩ := hf n x y n' hn (hc ▸ hxs x hx) hs
  exact ⟨hn', hc'.trans hc⟩

end Steps

/-- The mode unit is left alone, constructed by `M.INIT`, or stepped on blocks of the cipher. -/
theorem ModeUnit.Inv.effect (hm : h.m.Inv) (he : Effect i h u) : u.m.Inv := by
  by_cases hi : isInit i
  · obtain ⟨mode, c, rs1, rfl⟩ := hi
    obtain ⟨-, -, rfl⟩ := he
    exact initUnit_inv mode c _
  by_cases hb : isBlockStep i
  · obtain ⟨rd, rs1, rfl | rfl⟩ := hb
    · obtain ⟨-, y, m', hs, rfl⟩ := he
      exact (encStep_keepsInv h _ _ _ _ hm (lowBlock_idem _ _) hs).1
    · obtain ⟨-, y, m', hs, rfl⟩ := he
      exact (decStep_keepsInv h _ _ _ _ hm (lowBlock_idem _ _) hs).1
  by_cases hmsg : isMessage i
  · rcases hmsg with rfl | rfl
    · obtain ⟨-, -, ys, m', hrun, rfl⟩ := he
      exact (encStep_keepsInv h).runBlocks hm (fun _ => lowBlock_of_mem_messageBlocks) hrun
    · obtain ⟨-, -, -, ns, -, -, ys, m', hrun, rfl⟩ := he
      exact (decStep_keepsInv h).runBlocks hm (fun _ => lowBlock_of_mem_hexBlocks) hrun
  rw [he.writes.modeUnit hi hb hmsg]
  exact hm

/-! The whole machine. -/

/-- The invariant does not speak of the data registers and the queues. -/
theorem Hardware.Inv.withData (hh : h.Inv) (d : Vector Block 16) (q q' : List Byte) :
    Hardware.Inv { h with d := d, sin := q, sout := q' } := by
  obtain ⟨⟨hcode, hlog, hres, hfatal, hecmd⟩, ⟨hav, hau, hbv, hbu⟩, hlive, hunit⟩ := hh
  exact ⟨⟨hcode, hlog, hres, hfatal, hecmd⟩, ⟨hav, hau, hbv, hbu⟩,
    fun hv => (keyValid_eq_of_flags rfl rfl _).trans (hlive hv), hunit⟩

theorem Hardware.Inv.raise (hh : h.Inv) (e : Err) (w : Word) : (raise e w h).Inv := by
  obtain ⟨herrors, ⟨hav, hau, hbv, hbu⟩, hlive, hunit⟩ := hh
  refine ⟨herrors.raise e w, ⟨hav, hau, hbv, hbu⟩, fun hv => ?_, hunit⟩
  exact (sticky_raise e w h).keyValid (hlive hv)

theorem Hardware.Inv.effect (hh : h.Inv) (he : Effect i h u) : (succeed u).Inv := by
  obtain ⟨hav, hau, hbv, hbu⟩ := hh.keys.effect he
  refine ⟨hh.errors.succeed he.writes.errorLog, ⟨hav, hau, hbv, hbu⟩, fun hv => ?_, (hh.unit.effect he : u.m.Inv)⟩
  refine (keyValid_eq_of_flags rfl rfl _).trans ?_
  rcases he.live hv with ⟨hvh, hciph⟩ | hkey
  · rw [succeed_m, hciph]
    exact he.writes.keyValid (hh.live_key hvh)
  · exact hkey

theorem hardware_reset_inv : Hardware.reset.Inv :=
  ⟨errInv_reset, keyInv_reset, fun hv => Bool.noConfusion hv, modeUnitInv_reset⟩

theorem runWord_keeps_inv {w : Word} (hh : h.Inv) (hw : runWord w h = .next u) : u.Inv := by
  rcases runWord_effect_or_raise hw with ⟨i, v, -, he, rfl⟩ | ⟨e, q, rfl⟩
  · exact hh.effect he
  · exact (hh.withData h.d q h.sout).raise e w

end Sys2Proof.Machine

open Sys2Proof Sys2Proof.Machine

/-- Settles O14: each register group meets its part at reset. -/
theorem resetStateMeetsInvariant : Obligations.ResetStateMeetsInvariant := hardware_reset_inv

/-- Settles O15: an access to data touches nothing the invariant speaks of, a command word has an effect or raises an
error, and reset is O14. -/
theorem stepKeepsInvariant : Obligations.StepKeepsInvariant := by
  intro s t hs h
  rcases step_toHardware_cases h with ⟨d, q, q', ht⟩ | ⟨v, -, hw⟩ | ⟨-, ht⟩
  · rw [ht]
    exact Hardware.Inv.withData hs d q q'
  · exact runWord_keeps_inv hs hw
  · rw [ht]
    exact hardware_reset_inv

end

section
/-!
PROOFS of the family other, the field GF(2^8): `gfmul` is the product of polynomials modulo 0x11B, and a field's
multiplication (40_gf256.md R91).
-/
namespace Sys2Proof.Machine

theorem xor_xor_xor_comm {n : Nat} (x y s t : BitVec n) : x ^^^ y ^^^ (s ^^^ t) = x ^^^ s ^^^ (y ^^^ t) := by
  ac_rfl

/-- A fold of steps that respect xor respects xor. -/
theorem foldl_xor {n : Nat} {ι : Type} {f g k : BitVec n → ι → BitVec n} {l : List ι}
    (hstep : ∀ x y i, k (x ^^^ y) i = f x i ^^^ g y i) (x y : BitVec n) :
    l.foldl k (x ^^^ y) = l.foldl f x ^^^ l.foldl g y := by
  induction l generalizing x y with
  | nil => rfl
  | cons i l ih => rw [List.foldl_cons, List.foldl_cons, List.foldl_cons, hstep, ih]

/-- One of the terms of a sum, where its condition holds. -/
theorem ite_xor {n : Nat} (p : Bool) (x z : BitVec n) :
    (if p then x ^^^ z else x) = x ^^^ (if p then z else 0) := by
  cases p
  · exact BitVec.xor_zero.symm
  · rfl

/-- A term is in the sum where one of two conditions holds but not both: twice in, it cancels. -/
theorem ite_bxor {n : Nat} (p q : Bool) (z : BitVec n) :
    (if p ^^ q then z else 0) = (if p then z else 0) ^^^ (if q then z else 0) := by
  cases p <;> cases q <;> simp

/-- The term of bit `i` in the product of two polynomials (40_gf256.md R91). -/
def polyTerm (a b : Byte) (i : Nat) : BitVec 16 := if b.getLsbD i then a.setWidth 16 <<< i else 0

theorem polyMul_eq_foldl (a b : Byte) : polyMul a b = (List.range 8).foldl (fun acc i => acc ^^^ polyTerm a b i) 0 := by
  simp only [polyMul, polyTerm, ite_xor]

theorem polyTerm_xor_left (a a' b : Byte) (i : Nat) :
    polyTerm (a ^^^ a') b i = polyTerm a b i ^^^ polyTerm a' b i := by
  unfold polyTerm
  split
  · rw [BitVec.setWidth_xor, BitVec.shiftLeft_xor_distrib]
  · rfl

theorem polyTerm_xor_right (a b b' : Byte) (i : Nat) :
    polyTerm a (b ^^^ b') i = polyTerm a b i ^^^ polyTerm a b' i := by
  rw [polyTerm, BitVec.getLsbD_xor, ite_bxor, polyTerm, polyTerm]

theorem polyMul_xor_left (a a' b : Byte) : polyMul (a ^^^ a') b = polyMul a b ^^^ polyMul a' b := by
  simp only [polyMul_eq_foldl]
  refine foldl_xor (x := 0) (y := 0) fun x y i => ?_
  rw [polyTerm_xor_left, xor_xor_xor_comm]

theorem polyMul_xor_right (a b b' : Byte) : polyMul a (b ^^^ b') = polyMul a b ^^^ polyMul a b' := by
  simp only [polyMul_eq_foldl]
  refine foldl_xor (x := 0) (y := 0) fun x y i => ?_
  rw [polyTerm_xor_right, xor_xor_xor_comm]

theorem polyReduce_xor (p q : BitVec 16) : polyReduce (p ^^^ q) = polyReduce p ^^^ polyReduce q := by
  simp only [polyReduce, ← BitVec.setWidth_xor, ite_xor]
  congr 1
  refine foldl_xor (fun x y j => ?_) p q
  rw [BitVec.getLsbD_xor, ite_bxor, xor_xor_xor_comm]

theorem polyReduce_polyMul_xor_left (b : Byte) : XorHom fun a => polyReduce (polyMul a b) := fun a a' =>
  (congrArg polyReduce (polyMul_xor_left a a' b)).trans (polyReduce_xor _ _)

theorem polyReduce_polyMul_xor_right (a : Byte) : XorHom fun b => polyReduce (polyMul a b) := fun b b' =>
  (congrArg polyReduce (polyMul_xor_right a b b')).trans (polyReduce_xor _ _)

/-- Off 0 there is an inverse: the table's entry taken back through its affine map (41_cipher_a.md R101). -/
theorem gfmul_existsUnique_inverse {a : Byte} (ha : a ≠ 0) : ∃! b : Byte, gfmul a b = 1 :=
  ⟨sboxAffineInv (sbox a), gfmul_sboxAffineInv_sbox ha,
    fun _ hb => gfmul_inverse_unique hb (gfmul_sboxAffineInv_sbox ha)⟩

end Sys2Proof.Machine

open Sys2Proof Sys2Proof.Machine

/-- Settles O20: both sides are additive in each operand, so they agree because they agree on the bytes with one bit
set. -/
theorem gfmulIsPolynomialProduct : Obligations.GfmulIsPolynomialProduct := by
  intro a b
  refine (gfmul_xor_left b).eq_of_twoPow (polyReduce_polyMul_xor_left b) (fun i hi => ?_) a
  refine (gfmul_xor_right _).eq_of_twoPow (polyReduce_polyMul_xor_right _) (fun j hj => ?_) b
  revert i j
  decide

/-- Settles O21: the laws of `gfmul`, and its inverse read off the substitution table. -/
theorem gfmulFieldLaws : Obligations.GfmulFieldLaws :=
  ⟨gfmul_comm, fun a => (gfmul_xor_right a).map_zero, gfmul_one, gfmul_xor_right,
    fun a b c => (gfmul_assoc a b c).symm, fun _ => gfmul_existsUnique_inverse⟩

end

section
/-!
PROOFS of the family other, the ciphers: the inverse networks (41_cipher_a.md R116, 42_cipher_b.md R134, R151), the
key's parity bits (R151) and Cipher-B's tables (R130 to R137).
-/
namespace Sys2Proof.Machine

/-! Cipher-A's inverse network (41_cipher_a.md R116). -/

theorem invSubBytes_invShiftRows (s : Block) : invSubBytes (invShiftRows (shiftRows (subBytes s))) = s := by
  rw [invShiftRows_shiftRows, invSubBytes_subBytes]

theorem invFullRound_fullRound (s k : Block) : invFullRound (fullRound s k) k = s := by
  rw [invFullRound, fullRound, BitVec.xor_assoc, BitVec.xor_self, BitVec.xor_zero, invMixColumns_mixColumns,
    invSubBytes_invShiftRows]

/-- Rounds are undone last one first. -/
theorem foldl_invFullRound_foldl_fullRound (ks : List Block) (s : Block) :
    ks.reverse.foldl invFullRound (ks.foldl fullRound s) = s := by
  induction ks generalizing s with
  | nil => rfl
  | cons k ks ih => rw [List.reverse_cons, List.foldl_concat, List.foldl_cons, ih, invFullRound_fullRound]

theorem aDecInverse_eq (rk : Vector Block 11) (y : Block) : aDecInverse rk y =
    (fullRoundKeys rk).reverse.foldl invFullRound (invSubBytes (invShiftRows (y ^^^ rk[10]))) ^^^ rk[0] := rfl

theorem aDecInverse_aEnc (rk : Vector Block 11) (x : Block) : aDecInverse rk (aEnc rk x) = x := by
  rw [aDecInverse_eq, aEnc_eq, BitVec.xor_assoc _ rk[10], BitVec.xor_self, BitVec.xor_zero, invSubBytes_invShiftRows,
    foldl_invFullRound_foldl_fullRound, BitVec.xor_assoc, BitVec.xor_self, BitVec.xor_zero]

/-! Tables of positions that undo each other (42_cipher_b.md R134). -/

section Perm

variable {w m : Nat} {v v' : BitVec w} {table : List Nat}

/-- `perm` reads no position but those of its table. -/
theorem perm_congr (h : ∀ p ∈ table, posBit v p = posBit v' p) : perm v table m = perm v' table m :=
  List.foldl_ext _ _ _ fun _ p hp => by rw [h p hp]

/-- The second table names, for each bit, the place where the first one has put it. -/
def UndoesTable (w : Nat) (table back : List Nat) : Prop :=
  back.length = w ∧ ∀ i < w, 1 ≤ back.reverse.getD i 0 ∧ table.reverse[w - back.reverse.getD i 0]? = some (w - i)

theorem UndoesTable.perm_perm {back : List Nat} (h : UndoesTable w table back) (v : BitVec w) :
    perm (perm v table w) back w = v := by
  obtain ⟨hlen, hback⟩ := h
  refine BitVec.eq_of_getLsbD_eq fun i hi => ?_
  obtain ⟨hpos, hentry⟩ := hback i hi
  have hget : back.reverse[i]? = some (back.reverse.getD i 0) := by
    rw [List.getD_eq_getElem _ _ (by rwa [List.length_reverse, hlen])]
    exact List.getElem?_eq_getElem _
  have hsub : w - (w - i) = i := by omega
  rw [perm_getLsbD _ _ hi, hget, Option.any_some, posBit, perm_getLsbD _ _ (by omega), hentry, Option.any_some, posBit,
    hsub]

end Perm

theorem fpTable_undoes_ipTable : UndoesTable 64 ipTable fpTable := by
  unfold UndoesTable
  decide

theorem ipTable_undoes_fpTable : UndoesTable 64 fpTable ipTable := by
  unfold UndoesTable
  decide

/-! Cipher-B's network backwards (42_cipher_b.md R147, R151). -/

/-- A round on the halves a round has left, swapped, gives those before it, swapped. -/
theorem bRound_swap_bRound (lr : Word × Word) (k : Subkey) : bRound (bRound lr k).swap k = lr.swap := by
  simp only [bRound, Prod.swap, BitVec.xor_assoc, BitVec.xor_self, BitVec.xor_zero]

theorem foldl_bRound_reverse (ks : List Subkey) (lr : Word × Word) :
    ks.reverse.foldl bRound (ks.foldl bRound lr).swap = lr.swap := by
  induction ks generalizing lr with
  | nil => rfl
  | cons k ks ih => rw [List.reverse_cons, List.foldl_concat, List.foldl_cons, ih, bRound_swap_bRound]

/-- The two halves of a block, as the rounds take them. -/
def halves (y : Block64) : Word × Word := (y.extractLsb' 32 32, y.extractLsb' 0 32)

theorem halves_append (l r : Word) : halves (l ++ r) = (l, r) :=
  Prod.ext BitVec.extractLsb'_append_eq_left BitVec.extractLsb'_append_eq_right

theorem append_halves (y : Block64) : (halves y).1 ++ (halves y).2 = y :=
  BitVec.extractLsb'_append_extractLsb'

/-- The network ends with its halves swapped, so the rounds in reverse begin with them as they need them. -/
theorem bNet_eq (ks : List Subkey) (x : Block64) : bNet ks x =
    perm ((ks.foldl bRound (halves (perm x ipTable 64))).2 ++ (ks.foldl bRound (halves (perm x ipTable 64))).1)
      fpTable 64 := rfl

theorem bNet_reverse_bNet (ks : List Subkey) (x : Block64) : bNet ks.reverse (bNet ks x) = x := by
  rw [bNet_eq ks.reverse, bNet_eq ks, ipTable_undoes_fpTable.perm_perm, halves_append]
  have hback := foldl_bRound_reverse ks (halves (perm x ipTable 64))
  rw [Prod.swap] at hback
  rw [hback, Prod.snd_swap, Prod.fst_swap, append_halves, fpTable_undoes_ipTable.perm_perm]

theorem bDec_bEnc (sk : Vector Subkey 16) (x : Block64) : bDec sk (bEnc sk x) = x := bNet_reverse_bNet sk.toList x

/-! The key's parity bits (42_cipher_b.md R130, R151). -/

/-- No position of `PC1` is a multiple of 8 (42_cipher_b.md R130). -/
theorem pc1Table_positions : ∀ p ∈ pc1Table, 64 - p < 64 ∧ (64 - p) % 8 ≠ 0 := by decide

/-- The schedule reads of the key its image under `PC1` alone (42_cipher_b.md R140). -/
theorem bKeySched_congr {k k' : Block64} (h : perm k pc1Table 56 = perm k' pc1Table 56) :
    bKeySched k = bKeySched k' :=
  Vector.ext fun i hi => by rw [bKeyScheduleRounds k i hi, bKeyScheduleRounds k' i hi, h]

end Sys2Proof.Machine

open Sys2Proof Sys2Proof.Machine

/-- Settles O26: the inverse network undoes the steps last one first, and encrypt is onto. -/
theorem inverseNetworkUndoesEncrypt : Obligations.InverseNetworkUndoesEncrypt := by
  intro rk x
  refine ⟨aDecInverse_aEnc rk x, ?_⟩
  obtain ⟨y, rfl⟩ := (aEncIsTheTenRoundNetwork rk).2.surjective x
  exact congrArg (aEnc rk) (aDecInverse_aEnc rk y)

/-- Settles O32: the tables are the one's places in the other. -/
theorem fpUndoesIp : Obligations.FpUndoesIp := fpTable_undoes_ipTable.perm_perm

/-- Settles O34: `PC1` reads no position that is a multiple of 8, and the schedule nothing else of the key. -/
theorem keyParityHasNoInfluence : Obligations.KeyParityHasNoInfluence := by
  intro k k' hbits
  refine bKeySched_congr (perm_congr fun p hp => ?_)
  obtain ⟨hlt, hmod⟩ := pc1Table_positions p hp
  exact hbits _ hlt hmod

/-- Settles O37: a network undoes the network over its subkeys in reverse, whichever of the two comes first. -/
theorem bDecInvertsBEnc : Obligations.BDecInvertsBEnc := by
  intro sk x
  refine ⟨bDec_bEnc sk x, ?_⟩
  have hback := bNet_reverse_bNet sk.toList.reverse x
  rwa [List.reverse_reverse] at hback

/-- Settles O60: the tables are the printed ones by definition, and their laws are checked entry by entry. -/
theorem cipherBTablesAsPrinted : Obligations.CipherBTablesAsPrinted := by
  have hpc1 : ∀ p ≤ 64, 1 ≤ p → (p ∉ pc1Table ↔ p ∈ [8, 16, 24, 32, 40, 48, 56, 64]) := by decide
  have hpc2 : ∀ p ≤ 56, 1 ≤ p → (p ∉ pc2Table ↔ p ∈ [9, 18, 22, 25, 35, 38, 43, 54]) := by decide
  have hrows : ∀ box ∈ sBoxes, box.length = 4 ∧ ∀ row ∈ box, row.length = 16 ∧ ∀ v, v < 16 → row.count v = 1 := by
    decide
  exact ⟨rfl, rfl, rfl, rfl, rfl, rfl, rfl, rfl, rfl, rfl, rfl, rfl, rfl, rfl, rfl, rfl,
    fun p h1 h64 => hpc1 p h64 h1, fun p h1 h56 => hpc2 p h56 h1, rfl, hrows⟩

end

section
/-!
PROOFS of the family other, messages and blocks there and back: `strip0` (44_modes_stream.md R198), the round trips
(43_modes_block.md R179, 44_modes_stream.md R201), the closed forms (R203), and block commands of the two ciphers in
either order (20_memory.md R66).
-/
namespace Sys2Proof.Machine

/-! `strip0` (44_modes_stream.md R198). -/

theorem strip0_eq_rdropWhile (bs : List Byte) : strip0 bs = bs.rdropWhile (· == 0) := rfl

theorem exists_strip0_append_zeros (bs : List Byte) : ∃ n, bs = strip0 bs ++ List.replicate n 0 := by
  have hzeros : ∀ b ∈ bs.rtakeWhile (· == 0), b = 0 := fun _ hb =>
    eq_of_beq (List.mem_rtakeWhile_imp (p := (· == 0)) hb)
  refine ⟨(bs.rtakeWhile (· == 0)).length, ?_⟩
  rw [← List.eq_replicate_of_mem hzeros, strip0_eq_rdropWhile, List.rdropWhile_append_rtakeWhile]

theorem getLast?_strip0_ne (bs : List Byte) : (strip0 bs).getLast? ≠ some 0 := by
  intro h
  have hne : strip0 bs ≠ [] := fun hnil => by simp [hnil] at h
  have hlast := (List.getLast_eq_iff_getLast?_eq_some hne).2 h
  exact List.rdropWhile_last_not (· == 0) bs hne (beq_iff_eq.2 hlast)

/-- Reading a message's blocks back as bytes gives the message without its trailing zero run: the padding is zeros. -/
theorem textOut_messageBlocks (m : ModeUnit) (msg : List Byte) :
    textOut m.ciph (messageBlocks m msg) = strip0 msg := by
  have hpos : 0 < Config.bwB m.ciph := by cases m.ciph <;> decide
  have h16 : Config.bwB m.ciph ≤ 16 := by cases m.ciph <;> decide
  have hbytes : (messageBlocks m msg).flatMap (toBytes (Config.bwB m.ciph)) =
      (chunks (Config.pad m.mode) (Config.bwB m.ciph) msg).flatten := by
    rw [messageBlocks, List.flatMap_def, List.map_map]
    congr 1
    refine (List.map_congr_left fun ch hch => ?_).trans (List.map_id _)
    exact toBytes_fromBytes ch _ (length_of_mem_chunks hch) h16
  obtain ⟨p, -, hflat⟩ := flatten_chunks (Config.pad m.mode) hpos msg
  rw [textOut, hbytes, hflat, chunksAreThePaddedMessage.1, strip0_append_zeros]

/-! A step of deciphering undoes a step of enciphering (43_modes_block.md R172 to R176, R179). -/

theorem cipherDec_cipherEnc_b (h : Hardware) (x : Block) : h.cipherDec .b (h.cipherEnc .b x) = lowBlock .b x := by
  have hE : h.cipherEnc .b x = (bEnc h.bsk (x.setWidth 64)).setWidth 128 := rfl
  rw [hE, cipherDec_b, bDec_bEnc]
  rfl

theorem xor_xor_cancel (a b : Block) : a ^^^ (a ^^^ b) = b := by
  rw [← BitVec.xor_assoc, BitVec.xor_self, BitVec.zero_xor]

theorem decStep_eq_of_keys {h u : Hardware} (ha : u.ark = h.ark) (hb : u.bsk = h.bsk) : u.decStep = h.decStep :=
  (mDecb_stepsBlock 0 0).keys ha hb

/-- The mode unit `k` counter values further on. -/
def ModeUnit.atCounter (m : ModeUnit) (k : Nat) : ModeUnit := { m with ctr := m.ctr + BitVec.ofNat 64 k }

theorem ModeUnit.atCounter_zero (m : ModeUnit) : m.atCounter 0 = m := by simp [atCounter]

theorem ModeUnit.atCounter_succ (m : ModeUnit) (k : Nat) :
    { m.atCounter k with ctr := (m.atCounter k).ctr + 1 } = m.atCounter (k + 1) := by
  simp only [atCounter, BitVec.ofNat_add, BitVec.add_assoc]
  rfl

section Steps

variable {h : Hardware} {m m' : ModeUnit} {x y : Block} {xs ys : List Block}

theorem runBlocks_nil {f : ModeUnit → Block → StepResult} (hrun : runBlocks f m [] = .ok (ys, m')) :
    ys = [] ∧ m' = m := by
  cases hrun
  exact ⟨rfl, rfl⟩

/-- In the modes that round-trip, `DecStep` on what `EncStep` gave gives the block back and takes the unit the same
way. -/
theorem decStep_of_encStep (hr : roundTrips m.mode m.ciph) (hx : lowBlock m.ciph x = x)
    (hs : h.encStep m x = .ok (y, m')) : h.decStep m y = .ok (x, m') := by
  rw [Hardware.encStep] at hs
  rw [Hardware.decStep]
  rcases hr with hm | hm | hm | ⟨hm, hc⟩
  · cases (steps_of_cfb (D := id) hm).1.symm.trans hs
    rw [(steps_of_cfb hm).2, xor_xor_cancel]
  · cases (steps_of_pfb (D := id) hm).1.symm.trans hs
    rw [(steps_of_pfb hm).2, xor_xor_cancel]
  · obtain ⟨hroom, rfl, rfl⟩ := ctrStep_ok ((encStep_eq_ctrStep hm).symm.trans hs)
    rw [decStep_of_ctr hm, encStep_of_ctr hm (Bool.eq_false_iff.1 hroom), BitVec.xor_assoc, BitVec.xor_self,
      BitVec.xor_zero]
  · cases (steps_of_ecb (D := id) hm).1.symm.trans hs
    rw [(steps_of_ecb hm).2, hc, cipherDec_cipherEnc_b, ← hc, hx]

/-- So does the loop over the blocks of a message. -/
theorem runBlocks_dec_of_enc (hr : roundTrips m.mode m.ciph) (hxs : ∀ x ∈ xs, lowBlock m.ciph x = x)
    (hrun : runBlocks h.encStep m xs = .ok (ys, m')) : runBlocks h.decStep m ys = .ok (xs, m') := by
  induction xs generalizing m ys with
  | nil =>
    obtain ⟨rfl, rfl⟩ := runBlocks_nil hrun
    rfl
  | cons x xs ih =>
    obtain ⟨y, m₁, zs, hs, hrest, rfl⟩ := runBlocks_cons hrun
    obtain ⟨hx, hxs⟩ := List.forall_mem_cons.1 hxs
    have hf := encStep_frame hs
    have hloop := ih (hf.mode ▸ hf.ciph ▸ hr) (hf.ciph ▸ hxs) hrest
    simp only [runBlocks, decStep_of_encStep hr hx hs, hloop]

/-- The results of enciphering blocks of the cipher are blocks of the cipher. -/
theorem lowBlock_of_mem_runBlocks_enc (hxs : ∀ x ∈ xs, lowBlock m.ciph x = x)
    (hrun : runBlocks h.encStep m xs = .ok (ys, m')) : ∀ y ∈ ys, lowBlock m.ciph y = y := by
  induction xs generalizing m ys with
  | nil =>
    obtain ⟨rfl, -⟩ := runBlocks_nil hrun
    exact List.forall_mem_nil _
  | cons x xs ih =>
    obtain ⟨y, m₁, zs, hs, hrest, rfl⟩ := runBlocks_cons hrun
    obtain ⟨hx, hxs⟩ := List.forall_mem_cons.1 hxs
    have hc := (encStep_frame hs).ciph
    exact List.forall_mem_cons.2 ⟨(encStep_lowBlock hx hs).1, hc ▸ ih (hc ▸ hxs) hrest⟩

/-- A loop whose step leaves the unit as it is maps its blocks. -/
theorem runBlocks_of_const {f : ModeUnit → Block → StepResult} {g : Block → Block} (hf : ∀ x, f m x = .ok (g x, m))
    (xs : List Block) : runBlocks f m xs = .ok (xs.map g, m) := by
  induction xs with
  | nil => rfl
  | cons x xs ih => simp only [runBlocks, hf, ih, List.map_cons]

theorem hardware_steps_of_ecb (hm : m.mode = .ecb) :
    h.encStep m x = .ok (h.cipherEnc m.ciph x, m) ∧ h.decStep m x = .ok (h.cipherDec m.ciph x, m) :=
  steps_of_ecb hm

/-- In `ecb` each block is enciphered by itself. -/
theorem runBlocks_enc_ecb (hm : m.mode = .ecb) (hrun : runBlocks h.encStep m xs = .ok (ys, m')) :
    ys = xs.map (h.cipherEnc m.ciph) := by
  have hloop := runBlocks_of_const (f := h.encStep) (fun _ => (hardware_steps_of_ecb hm).1) xs
  cases hloop.symm.trans hrun
  rfl

/-- In `ctr` block `i` is XORed with `E` of the counter block `i` values on; the loop begins `k` values on. -/
theorem runBlocks_enc_ctr (hm : m.mode = .ctr) {k : Nat}
    (hrun : runBlocks h.encStep (m.atCounter k) xs = .ok (ys, m')) :
    ys = (xs.zipIdx k).map fun (x, i) => x ^^^ h.cipherEnc m.ciph (m.atCounter i).ctrBlock := by
  induction xs generalizing k ys with
  | nil =>
    obtain ⟨rfl, -⟩ := runBlocks_nil hrun
    rfl
  | cons x xs ih =>
    obtain ⟨y, m₁, zs, hs, hrest, rfl⟩ := runBlocks_cons hrun
    obtain ⟨-, rfl, rfl⟩ := ctrStep_ok ((encStep_eq_ctrStep (m := m.atCounter k) hm).symm.trans hs)
    rw [ModeUnit.atCounter_succ] at hrest
    rw [List.zipIdx_cons, List.map_cons, ← ih hrest]
    rfl

end Steps

/-! A run of block commands gives the loop of a message (44_modes_stream.md R200). -/

section BlockRun

variable {i : Instr} {rd rs1 : Reg} {s t u : State} {x : Block} {xs ys : List Block}

/-- A run that succeeds is a command that succeeds and the run over the blocks that follow. -/
theorem blockRun_cons_inv (h : blockRun i rd rs1 s (x :: xs) = some (ys, u)) :
    ∃ t zs, exec i (s.setReg rs1 x) = .next t ∧ t.err = 0 ∧ blockRun i rd rs1 t xs = some (zs, u) ∧
      ys = t.reg rd :: zs := by
  obtain ⟨t, ht⟩ := exec_answers i (s.setReg rs1 x)
  simp only [blockRun, ht] at h
  split_ifs at h with herr
  cases hrest : blockRun i rd rs1 t xs with
  | none => simp [hrest] at h
  | some p =>
    simp only [hrest, Option.some.injEq, Prod.mk.injEq] at h
    obtain ⟨rfl, rfl⟩ := h
    exact ⟨t, p.1, ht, herr, hrest, rfl⟩

theorem blockRun_cons_of_error (h : exec i (s.setReg rs1 x) = .next t) (herr : t.err ≠ 0) :
    blockRun i rd rs1 s (x :: xs) = none := by
  simp only [blockRun, h, if_neg herr]

/-- A block loaded into `rs1` and enciphered with success: the step taken, which the next block meets too. -/
theorem encStep_of_exec_mEncb (h : exec (.mEncb rd rs1) (s.setReg rs1 x) = .next t) (herr : t.err = 0) :
    s.encStep s.m (lowBlock s.m.ciph x) = .ok (t.reg rd, t.m) ∧ t.encStep = s.encStep := by
  have hkeys := (mEncb_stepsBlock rd rs1).keys (setReg_ark s.toHardware rs1 x) (setReg_bsk s.toHardware rs1 x)
  obtain ⟨-, v, ⟨-, y, m', hs, rfl⟩, rfl⟩ := effect_of_err_eq_zero h herr
  rw [state_setReg_toHardware, setReg_m, reg_setReg_self, hkeys] at hs
  refine ⟨hs.trans ?_, (mEncb_stepsBlock rd rs1).keys rfl rfl⟩
  exact congrArg (fun z => Except.ok (z, m')) (reg_setReg_self (s.toHardware.setReg rs1 x) rd y).symm

/-- The results of a run of `M.ENCB` are those of the loop over the low `bw` bits of its blocks. -/
theorem runBlocks_of_encbRun (h : encbRun rd rs1 s xs = some (ys, u)) :
    ∃ m', runBlocks s.encStep s.m (xs.map (lowBlock s.m.ciph)) = .ok (ys, m') := by
  rw [encbRun] at h
  induction xs generalizing s ys with
  | nil =>
    cases h
    exact ⟨_, rfl⟩
  | cons x xs ih =>
    obtain ⟨t, zs, hexec, herr, hrest, rfl⟩ := blockRun_cons_inv h
    obtain ⟨hs, hsame⟩ := encStep_of_exec_mEncb hexec herr
    obtain ⟨m', hloop⟩ := ih hrest
    rw [hsame, (encStep_frame hs).ciph] at hloop
    exact ⟨m', by simp only [List.map_cons, runBlocks, hs, hloop]⟩

/-- The loop of `DecStep` with the keys and the unit of `s` is the run of `M.DECB` from any live state that has
them. -/
theorem decbRun_of_runBlocks {m' : ModeUnit} (hf : t.fatal = false) (hv : t.mv = true) (hm : t.m = s.m)
    (ha : t.ark = s.ark) (hb : t.bsk = s.bsk) (hxs : ∀ x ∈ xs, lowBlock s.m.ciph x = x)
    (hrun : runBlocks s.decStep s.m xs = .ok (ys, m')) : ∃ u, decbRun rd rs1 t xs = some (ys, u) := by
  rw [← hm] at hxs
  rw [← decStep_eq_of_keys ha hb, ← hm] at hrun
  obtain ⟨u, hu, -⟩ := (mDecb_stepsBlock rd rs1).blockRun_eq hf hv hxs hrun
  exact ⟨u, hu⟩

/-- `M.DECB` of any block in mode `cfi` (43_modes_block.md R173). -/
theorem exec_mDecb_of_cfi (hf : s.fatal = false) (hv : s.mv = true) (hm : s.m.mode = .cfi) (y : Block) :
    exec (.mDecb rd rs1) (s.setReg rs1 y) =
      .next (State.raised .unimpl (wordF2 0x42 rd rs1) (s.setReg rs1 y)) := by
  rw [← encode_mDecb]
  exact exec_of_step_error (fun _ => rfl) hf hv (decStep_of_cfi hm)

end BlockRun

theorem roundTrips_ne_cfi {mode : Mode} {c : Cipher} (hr : roundTrips mode c) : mode ≠ .cfi := by
  rcases hr with rfl | rfl | rfl | ⟨rfl, -⟩ <;> decide

/-- What `M.INIT` leaves when it succeeds (43_modes_block.md R165). -/
theorem mInit_success {mode : Mode} {c : Cipher} {rs : Reg} {s t : State} (h : exec (.mInit mode c rs) s = .next t)
    (herr : t.err = 0) :
    t.fatal = false ∧ t.mv = true ∧ t.m = initUnit mode c (s.reg rs) ∧ t.ark = s.ark ∧ t.bsk = s.bsk := by
  obtain ⟨hf, u, ⟨-, -, rfl⟩, rfl⟩ := effect_of_err_eq_zero h herr
  exact ⟨hf, rfl, rfl, rfl, rfl⟩

/-- The hardware but for what the mode instructions write when they succeed: the mode unit, the queues and `ERR`. -/
def Hardware.besidesUnit (h : Hardware) : Hardware :=
  { h with m := ModeUnit.reset, mv := false, err := 0, sin := [], sout := [] }

theorem besidesUnit_eq {h u : Hardware} (hs : u.besidesUnit = h.besidesUnit) :
    u.reg = h.reg ∧ u.ark = h.ark ∧ u.bsk = h.bsk ∧ u.keyValid = h.keyValid ∧ u.fatal = h.fatal := by
  simp only [Hardware.besidesUnit, Hardware.mk.injEq, true_and, and_true] at hs
  obtain ⟨hd, hark, hakv, hbsk, hbkv, hfatal, -⟩ := hs
  refine ⟨funext fun r => ?_, hark, hbsk, funext (keyValid_eq_of_flags hakv hbkv), hfatal⟩
  rw [Hardware.reg, hd, Hardware.reg]

/-- `M.INIT` with a valid key and an operand that fits. -/
theorem mInit_of_fits {mode : Mode} {c : Cipher} {rs : Reg} {s : State} (hf : s.fatal = false)
    (hkey : s.keyValid c = true) (hfits : ivTooWide mode c (s.reg rs) = false) :
    ∃ t, exec (.mInit mode c rs) s = .next t ∧ t.err = 0 ∧ t.besidesUnit = s.besidesUnit ∧
      t.m = initUnit mode c (s.reg rs) ∧ t.mv = true ∧ t.sin = s.sin ∧ t.sout = s.sout :=
  ⟨_, exec_of_effect (i := .mInit mode c rs) hf ⟨hkey, hfits, rfl⟩, rfl, rfl, rfl, rfl, rfl, rfl⟩

/-- A unit just constructed has room for as many blocks as there are counter values (43_modes_block.md R168). -/
theorem initUnit_ctrWouldOverflow {mode : Mode} {c : Cipher} {v : Block} {nb : Nat}
    (hroom : mode = .ctr → nb ≤ 2 ^ Config.cw c - 1) : (initUnit mode c v).ctrWouldOverflow nb = false := by
  rw [Bool.eq_false_iff, ne_eq, ctrWouldOverflow_iff]
  rintro ⟨hm, hover⟩
  have hzero : (initUnit mode c v).ctr.toNat = 0 := rfl
  have hfits := hroom hm
  rw [hzero, Nat.zero_add] at hover
  exact absurd hover hfits.not_gt

/-- `M.ENCS` on a unit with room for the message: its results, whose hex string goes to `sout`. -/
theorem mEncs_of_room {s : State} (hf : s.fatal = false) (hv : s.mv = true)
    (hroom : s.m.ctrWouldOverflow (blockCount s.sin.length (Config.bwB s.m.ciph)) = false) :
    ∃ t ys m', exec .mEncs s = .next t ∧ t.err = 0 ∧ t.besidesUnit = s.besidesUnit ∧
      runBlocks s.encStep s.m (messageBlocks s.m s.sin) = .ok (ys, m') ∧ t.sout = s.sout ++ hexOut s.m.ciph ys := by
  obtain ⟨ys, m', hrun⟩ := runBlocks_enc_answers s.toHardware s.m (messageBlocks s.m s.sin)
    (length_messageBlocks s.m s.sin ▸ hroom)
  exact ⟨_, ys, m', exec_of_effect (i := .mEncs) hf ⟨hv, hroom, ys, m', hrun, rfl⟩, rfl, rfl, hrun, rfl⟩

/-- `M.DECS` on the hex string of some blocks is the loop over these blocks. -/
theorem mDecs_of_hexOut {s : State} {ys xs : List Block} {m' : ModeUnit} (hf : s.fatal = false) (hv : s.mv = true)
    (hcfi : s.m.mode ≠ .cfi) (hsin : s.sin = hexOut s.m.ciph ys) (hlow : ∀ y ∈ ys, lowBlock s.m.ciph y = y)
    (hroom : s.m.ctrWouldOverflow ys.length = false) (hrun : runBlocks s.decStep s.m ys = .ok (xs, m')) :
    ∃ t, exec .mDecs s = .next t ∧ t.err = 0 ∧ t.sout = s.sout ++ textOut s.m.ciph xs := by
  have hpos : 0 < Config.hw s.m.ciph := by cases s.m.ciph <;> decide
  have hparse := parseHex_hexOut s.m.ciph ys
  have hlen := length_hexOut s.m.ciph ys
  have hblocks := hexBlocks_nibbles s.m.ciph ys
  rw [List.map_congr_left hlow, List.map_id'] at hblocks
  have hcount := (length_parseHex hparse).trans hlen
  rw [← hsin] at hparse hlen
  refine ⟨_, exec_of_effect (i := .mDecs) hf
    ⟨hv, hcfi, hlen ▸ Nat.mul_mod_right _ _, _, hparse, ?_, xs, m', ?_, rfl⟩, rfl, rfl⟩
  · rw [hcount, Nat.mul_div_cancel_left _ hpos, hroom]
  · rw [hblocks, hrun]

/-! `A.ENC` and `B.ENC` with their keys valid, from what they read of the state (20_memory.md R66). -/

section Encrypt

variable {rd rs : Reg} {s : State} {x : Block} (hf : s.fatal = false)
include hf

theorem exec_aEnc_of_key {rk : Vector Block 11} (ha : s.akv = true) (hrk : s.ark = rk) (hx : s.reg rs = x) :
    exec (.aEnc rd rs) s = .next (s.withHardware (succeed (s.toHardware.setReg rd (aEnc rk x)))) :=
  exec_of_effect hf ⟨ha, by rw [hrk, hx]⟩

theorem exec_bEnc_of_key {sk : Vector Subkey 16} (hb : s.bkv = true) (hsk : s.bsk = sk) (hx : s.reg rs = x) :
    exec (.bEnc rd rs) s =
      .next (s.withHardware (succeed (s.toHardware.setReg rd ((bEnc sk (x.setWidth 64)).setWidth 128)))) :=
  exec_of_effect hf ⟨hb, by rw [hsk, Hardware.reg64, hx]⟩

end Encrypt

end Sys2Proof.Machine

open Sys2Proof Sys2Proof.Machine

/-- Settles O51: what `strip0` drops is the longest run of zeros at the end. -/
theorem strip0DropsTheTrailingZeroRun : Obligations.Strip0DropsTheTrailingZeroRun := fun bs =>
  ⟨exists_strip0_append_zeros bs, getLast?_strip0_ne bs⟩

/-- Settles O54: the run of `M.ENCB` is a loop of `EncStep`; `DecStep` with the same keys undoes it from the same unit
where the mode round-trips, enciphers once more in `ecb` over Cipher-A, and fails in `cfi`. -/
theorem blockLevelRoundTrip : Obligations.BlockLevelRoundTrip := by
  intro mode c rs rd rs1 s s' s₁ s₁' u xs ys hark hbsk hreg hinit herr hinit' herr' hrun
  obtain ⟨-, -, hm, ha, hb⟩ := mInit_success hinit herr
  obtain ⟨hf', hv', hm', ha', hb'⟩ := mInit_success hinit' herr'
  have hunit : s₁'.m = s₁.m := by rw [hm', hm, hreg]
  have hmode : s₁.m.mode = mode := congrArg ModeUnit.mode hm
  have hciph : s₁.m.ciph = c := congrArg ModeUnit.ciph hm
  have hark₁ := ha'.trans (hark.trans ha.symm)
  have hbsk₁ := hb'.trans (hbsk.trans hb.symm)
  obtain ⟨m', hloop⟩ := runBlocks_of_encbRun hrun
  have hlow : ∀ x ∈ xs.map (lowBlock s₁.m.ciph), lowBlock s₁.m.ciph x = x :=
    List.forall_mem_map.2 fun x _ => lowBlock_idem _ x
  have hys := lowBlock_of_mem_runBlocks_enc hlow hloop
  have hdecb {zs : List Block} {n : ModeUnit} (hback : runBlocks s₁.decStep s₁.m ys = .ok (zs, n)) :
      ∃ u', decbRun rd rs1 s₁' ys = some (zs, u') := decbRun_of_runBlocks hf' hv' hunit hark₁ hbsk₁ hys hback
  refine ⟨fun hr => ?_, fun hecb hca => ?_, fun hcfi hne => ?_⟩
  · subst hmode hciph
    exact hdecb (runBlocks_dec_of_enc hr hlow hloop)
  · have hE : s₁.cipherEnc s₁.m.ciph = aEnc s.ark := by rw [hciph, hca, ← ha]; rfl
    have hD : s₁.cipherDec s₁.m.ciph = aEnc s.ark := by rw [hciph, hca, ← ha]; rfl
    have hecb₁ : s₁.m.mode = .ecb := hmode.trans hecb
    have htwice : ys.map (s₁.cipherDec s₁.m.ciph) = xs.map fun x => aEnc s.ark (aEnc s.ark x) := by
      rw [runBlocks_enc_ecb hecb₁ hloop, hE, hD, hciph, hca, List.map_map, List.map_map]
      exact List.map_congr_left fun x _ => congrArg (fun z => aEnc s.ark (aEnc s.ark z)) (lowBlock_a x)
    exact htwice ▸ hdecb (runBlocks_of_const (fun _ => (hardware_steps_of_ecb hecb₁).2) ys)
  · have hcfi' : s₁'.m.mode = .cfi := by rw [hunit, hmode, hcfi]
    have hexec := exec_mDecb_of_cfi (rd := rd) (rs1 := rs1) hf' hv' hcfi'
    refine ⟨?_, hexec⟩
    cases ys with
    | nil =>
      have hlen := length_runBlocks hloop
      rw [List.length_map] at hlen
      exact absurd (List.length_eq_zero_iff.1 hlen.symm) hne
    | cons y ys => exact blockRun_cons_of_error (hexec y) (raise_err_ne_zero _ _ _)

/-- Settles O55: the loop of `M.DECS` undoes that of `M.ENCS` on its hex string, and the blocks' bytes are the message
and its padding. -/
theorem messageRoundTrip : Obligations.MessageRoundTrip := by
  intro mode c rs s P hr hf hsout hkey hfits hcount
  have hroom := initUnit_ctrWouldOverflow (v := s.reg rs) hcount
  obtain ⟨s₁, hinit, herr₁, hsame₁, hm₁, hv₁, -, hsout₁⟩ := mInit_of_fits hf hkey hfits
  obtain ⟨-, -, -, -, hf₁⟩ := besidesUnit_eq hsame₁
  have hmode : s₁.m.mode = mode := congrArg ModeUnit.mode hm₁
  have hciph : s₁.m.ciph = c := congrArg ModeUnit.ciph hm₁
  have hroom : s₁.m.ctrWouldOverflow (blockCount P.length (Config.bwB s₁.m.ciph)) = false :=
    hm₁ ▸ initUnit_ctrWouldOverflow hcount
  obtain ⟨s₂, ys, m', henc, herr₂, hsame₂, hrun, hsout₂⟩ :=
    mEncs_of_room (s := { s₁ with sin := P }) (hf₁.trans hf) hv₁ hroom
  obtain ⟨hreg₂, hark₂, hbsk₂, hkey₂, hf₂⟩ := besidesUnit_eq (hsame₂.trans hsame₁)
  obtain ⟨s₃, hinit', herr₃, hsame₃, hm₃, hv₃, hsin₃, hsout₃⟩ :=
    mInit_of_fits (s := { s₂ with sin := s₂.sout, sout := [] }) (hf₂.trans hf) ((congrFun hkey₂ c).trans hkey)
      ((congrArg (ivTooWide mode c) (congrFun hreg₂ rs)).trans hfits)
  obtain ⟨-, hark₃, hbsk₃, -, hf₃⟩ := besidesUnit_eq (hsame₃.trans hsame₂)
  have hunit : s₃.m = s₁.m := hm₃.trans ((congrArg (initUnit mode c) (congrFun hreg₂ rs)).trans hm₁.symm)
  have hlow : ∀ x ∈ messageBlocks s₁.m P, lowBlock s₁.m.ciph x = x := fun _ => lowBlock_of_mem_messageBlocks
  have hys := lowBlock_of_mem_runBlocks_enc hlow hrun
  have hlen := (length_runBlocks hrun).trans (length_messageBlocks s₁.m P)
  have hback := runBlocks_dec_of_enc (hmode ▸ hciph ▸ hr) hlow hrun
  rw [← decStep_eq_of_keys hark₃ hbsk₃] at hback
  have hcfi : s₃.m.mode ≠ .cfi := by
    rw [hunit, hmode]
    exact roundTrips_ne_cfi hr
  have hsin : s₃.sin = hexOut s₁.m.ciph ys := by rw [hsin₃, hsout₂, hsout₁, hsout, List.nil_append]
  obtain ⟨s₄, hdec, herr₄, hsout₄⟩ := mDecs_of_hexOut (s := s₃) (hf₃.trans (hf₁.trans hf)) hv₃ hcfi (hunit ▸ hsin)
    (hunit ▸ hys) (hunit ▸ hlen ▸ hroom) (hunit ▸ hback)
  have hout : s₄.sout = strip0 P := by
    rw [hsout₄, hsout₃, List.nil_append, hunit, textOut_messageBlocks]
  refine ⟨s₁, s₂, s₃, s₄, hinit, herr₁, henc, herr₂, hinit', herr₃, hdec, herr₄, hout, fun hP => ?_⟩
  refine hout.trans (strip0_of_last ?_)
  rcases hP with rfl | hP
  · exact fun h => nomatch h
  · exact hP

/-- Settles O56: the loop of a success has a closed form where the step does not chain. -/
theorem parallelClosedForms : Obligations.ParallelClosedForms := by
  intro s t h herr
  obtain ⟨-, u, ⟨-, -, ys, m', hrun, rfl⟩, rfl⟩ := effect_of_err_eq_zero h herr
  have hout : messageBlocks s.m s.sin = (chunks 0 (Config.bwB s.m.ciph) s.sin).map fromBytes := by
    rw [messageBlocks, chunksAreThePaddedMessage.1]
  rw [hout] at hrun
  refine ⟨fun hm => ?_, fun hm => ?_⟩
  · have hys := runBlocks_enc_ecb hm hrun
    rw [List.map_map] at hys
    exact congrArg (fun zs => s.sout ++ hexOut s.m.ciph zs) hys
  · rw [← s.m.atCounter_zero] at hrun
    have hys := runBlocks_enc_ctr (m := s.m) hm hrun
    rw [List.zipIdx_map, List.map_map] at hys
    exact congrArg (fun zs => s.sout ++ hexOut s.m.ciph zs) hys

/-- Settles O59: each command reads nothing the other writes, and writes to two registers commute. -/
theorem blockCommandsCommute : Obligations.BlockCommandsCommute := by
  intro rd rs rd' rs' s hdd hds hds' hf ha hb
  let t := s.withHardware (succeed (s.toHardware.setReg rd (aEnc s.ark (s.reg rs))))
  let u := s.withHardware (succeed (s.toHardware.setReg rd' ((bEnc s.bsk (s.reg64 rs')).setWidth 128)))
  have ht : t.reg rs' = s.reg rs' := reg_setReg_of_ne _ _ hds.symm
  have hu : u.reg rs = s.reg rs := reg_setReg_of_ne _ _ hds'.symm
  refine ⟨t, u, _, exec_aEnc_of_key hf ha rfl rfl, exec_bEnc_of_key (s := t) hf hb rfl ht,
    exec_bEnc_of_key hf hb rfl rfl, (exec_aEnc_of_key (s := u) hf ha rfl hu).trans ?_, ?_, ?_⟩
  · have hcomm := setReg_comm s.toHardware ((bEnc s.bsk (s.reg64 rs')).setWidth 128) (aEnc s.ark (s.reg rs)) hdd.symm
    have hlast := congrArg (fun h => s.withHardware (succeed h)) hcomm
    exact congrArg Host.Outcome.next hlast
  · exact (reg_setReg_of_ne _ _ hdd).trans (reg_setReg_self _ _ _)
  · exact reg_setReg_self _ _ _

end
